-- ==== Sys2Proof/Word.lean ====
section
/-! DEFINITION. The words and the small data types every other file speaks in: bytes and 32-bit words, the 16 TAP
states (R13, R91), a scan field (R97) and the seven JTAG operations an `execute` list may hold (R92). -/

namespace Sys2Proof

/-- One byte of a command record. -/
abbrev Byte := BitVec 8

/-- An SWD data word (R8: 32 bits). -/
abbrev Word := BitVec 32

/-- The 16 TAP states, by the names of R13, in the order of their codes (R91). -/
inductive TapState where
  | reset | idle
  | drSelect | drCapture | drShift | drExit1 | drPause | drExit2 | drUpdate
  | irSelect | irCapture | irShift | irExit1 | irPause | irExit2 | irUpdate
  deriving DecidableEq, Repr, Inhabited

namespace TapState

/-- All 16 states, in code order. -/
def all : List TapState :=
  [reset, idle, drSelect, drCapture, drShift, drExit1, drPause, drExit2, drUpdate,
   irSelect, irCapture, irShift, irExit1, irPause, irExit2, irUpdate]

/-- R14: the four stable states. -/
def isStable : TapState → Bool
  | reset | idle | drPause | irPause => true
  | drSelect | drCapture | drShift | drExit1 | drExit2 | drUpdate => false
  | irSelect | irCapture | irShift | irExit1 | irExit2 | irUpdate => false

/-- R14: the two shift states. -/
def isShift : TapState → Bool
  | drShift | irShift => true
  | reset | idle | drSelect | drCapture | drExit1 | drPause | drExit2 | drUpdate => false
  | irSelect | irCapture | irExit1 | irPause | irExit2 | irUpdate => false

/-- R14, R134: the six path states are the stable and the shift states together. -/
def isPath (t : TapState) : Bool := t.isStable || t.isShift

end TapState

/-- What a scan field drives (R97: "output bits or none", with its bit count). -/
inductive ScanOut where
  /-- a bit buffer; offset 0 first on the wire -/
  | bits (b : List Bool)
  /-- no output bits, for `n` cycles -/
  | silent (n : Nat)
  deriving DecidableEq, Repr

/-- R97: a scan field `(out, capture, n)`; the count `n` is the buffer's own length where there is a buffer. -/
structure ScanField where
  out : ScanOut
  capture : Bool
  deriving DecidableEq, Repr

/-- The bit count `n` of a field. -/
def ScanField.len (f : ScanField) : Nat :=
  match f.out with
  | .bits b => b.length
  | .silent n => n

/-- R92: an element of the list given to `execute`: tags 0 to 6, or any other tag, which `execute` meets only when it
reaches it (R113, R160). -/
inductive JtagOp where
  | runtest (cycles : Nat) (endState : TapState)
  | statemove (endState : TapState)
  | pathmove (states : List TapState)
  | scan (isIr : Bool) (fields : List ScanField) (endState : TapState)
  | tms (count : Nat) (bits : List Bool)
  | sleep (us : Nat)
  | stableclocks (cycles : Nat)
  /-- a tag outside 0 to 6 -/
  | other (tag : BitVec 4)
  deriving DecidableEq, Repr

end Sys2Proof
end

