-- ==== Sys2Proof/Config.lean ====
section
/-! DEFINITION. The block's parameters (R7) and the free values of the model. Every parameter is a field of `Params`, which
State carries unchanged, so that a statement about every state holds for every value of it; at reset a parameter has the
value the spec gives, or an `opaque` constant without a body where the spec leaves it OPEN. -/

namespace Sys2Proof

/-- The two clock-edge polarities of a `mode_flags` value (R7, R272); the bit order is always LSB-first (R62), so it is no
field. Events carry them and no rule reads them (D43, U14). -/
structure EdgeFlags where
  captureRising : Bool
  driveRising : Bool
  deriving DecidableEq, Repr, Inhabited

/-- R252: one mode-switch bit pattern, of length at least 1: its first bit and the rest. -/
structure BitPattern where
  first : Bool
  rest : List Bool
  deriving DecidableEq, Repr, Inhabited

/-- The pattern as a wire string, offset 0 first. -/
def BitPattern.bits (p : BitPattern) : List Bool := p.first :: p.rest

/-- R252: the table `MODE_SEQ`, six fixed patterns. -/
structure ModeSeq where
  jtagToSwd : BitPattern
  swdToJtag : BitPattern
  jtagToDormant : BitPattern
  dormantToJtag : BitPattern
  swdToDormant : BitPattern
  dormantToSwd : BitPattern
  deriving DecidableEq, Repr

/-- R7: the parameters, each "a configuration field". -/
structure Params where
  /-- `TMS_BURST_MAX - 1`: the parameter is at least 1 (92 OPEN parameters), which this field makes true by its form. -/
  tmsBurstMaxLess1 : Nat
  /-- `PATH_MAX - 7`: the parameter bounds every path, and the longest has 7 bits (R136), which this field makes true by its
  form. -/
  pathMaxLess7 : Nat
  /-- `SWD_QUEUE_INIT_CAP - 1`: the parameter is at least 1 (D29) -/
  swdQueueInitCapLess1 : Nat
  /-- `SWD_RUN_IDLE` (R210): the idle cycles `swd_run` appends -/
  swdRunIdle : Nat
  /-- `TRN_CYCLES` (R104, R105, D25): the cycles of one turnaround -/
  trnCycles : Nat
  /-- `TMS_OP_TRACKS` (R170, D11) -/
  tmsOpTracks : Bool
  /-- the request bytes `ACK_IGNORED` selects (R219); `ackIgnored` below restricts them to writes -/
  ackIgnoredBytes : List Byte
  /-- `MODE_SEQ` (R252) -/
  modeSeq : ModeSeq
  /-- `JTAG_MODE` and `SWD_MODE` (R272, D43) -/
  jtagMode : EdgeFlags
  swdMode : EdgeFlags
  deriving DecidableEq, Repr

/-- `TMS_BURST_MAX` (R7, R162). -/
def Params.tmsBurstMax (p : Params) : Nat := p.tmsBurstMaxLess1 + 1

/-- `PATH_MAX` (R7): the bound on the length of a path. -/
def Params.pathMax (p : Params) : Nat := p.pathMaxLess7 + 7

/-- `SWD_QUEUE_INIT_CAP` (R7, R51): the queue capacity at reset. -/
def Params.swdQueueInitCap (p : Params) : Nat := p.swdQueueInitCapLess1 + 1

namespace Config

/-- R7, D29: `SWD_QUEUE_INIT_CAP - 1`, OPEN in the spec: uninterpreted. -/
opaque swdQueueInitCapLess1 : Nat

/-- R252: the six mode-switch patterns, uninterpreted. -/
opaque modeSeqPattern : Nat → BitPattern

/-- R272: the two edge settings, uninterpreted. -/
opaque jtagEdges : EdgeFlags
opaque swdEdges : EdgeFlags

/-- The parameters of the block at reset: the value the spec gives (`TMS_BURST_MAX` 7, `PATH_MAX` 8, `SWD_RUN_IDLE` 8,
`TRN_CYCLES` 1, `TMS_OP_TRACKS` true, the default of R219 for `ACK_IGNORED`), an opaque constant where it gives none. -/
def params : Params where
  tmsBurstMaxLess1 := 6
  pathMaxLess7 := 1
  swdQueueInitCapLess1 := swdQueueInitCapLess1
  swdRunIdle := 8
  trnCycles := 1
  tmsOpTracks := true
  ackIgnoredBytes := [0x99#8]
  modeSeq :=
    { jtagToSwd := modeSeqPattern 0, swdToJtag := modeSeqPattern 1
      jtagToDormant := modeSeqPattern 2, dormantToJtag := modeSeqPattern 3
      swdToDormant := modeSeqPattern 4, dormantToSwd := modeSeqPattern 5 }
  jtagMode := jtagEdges
  swdMode := swdEdges

/-- Free value (R70): a captured bit the environment's list in State does not supply. -/
opaque freeCapture : Nat → Bool

/-- Free value (R277): the result of a flush the environment's list in State does not supply; true is success. -/
opaque freeFlush : Nat → Bool

/-- Free value (R277, U9): what a capture destination holds after a failed flush. -/
opaque freeLost : Nat → Bool

/-- Free value (R51, U8): the contents of a queue entry's `raw` buffer before anything is captured into it. -/
opaque freeRaw : Nat → Bool

/-- Free value (R169, U4): `tap_cur` and `tap_goal` after a failed pathmove. -/
opaque freeTapState : Nat → TapState

end Config

end Sys2Proof
end

