-- ==== Sys2Proof/Syntax.lean ====
section
/-! DEFINITION. The syntax: one constructor per row of spec/opcode_table.json. The first sixteen are the command tags
(R92, R113). The other rows of the table are values of an operand or of a captured field, not tags (R121): each has a
constructor too, which stands for the use of that value that the rule in its row describes (log entry 1). -/

namespace Sys2Proof

/-- The instructions of the block: commands at the command port, and the table's operand rows. -/
inductive Instr where
  -- command tags (R92)
  | runtest (cycles : Nat) (endState : TapState)
  | statemove (endState : TapState)
  | pathmove (states : List TapState)
  | scan (isIr : Bool) (fields : List ScanField) (endState : TapState)
  | tms (count : Nat) (bits : List Bool)
  | sleep (us : Nat)
  | stableclocks (cycles : Nat)
  | swdRead (apndp : Bool) (addr : BitVec 2) (apDelay : Nat)
  | swdWrite (apndp : Bool) (addr : BitVec 2) (data : Word) (apDelay : Nat)
  | swdRun
  | switchSequence (id : BitVec 3)
  | execute (ops : List JtagOp)
  -- unassigned tags (R113)
  | unassignedTag7
  | unassignedTag13
  | unassignedTag14
  | unassignedTag15
  -- the sixteen request bytes (R103), each the SWD transaction that sends it (R207, R208)
  | swdReqDpWriteA0 (data : Word) (apDelay : Nat)
  | swdReqDpWriteA1 (data : Word) (apDelay : Nat)
  | swdReqDpWriteA2 (data : Word) (apDelay : Nat)
  | swdReqDpWriteA3 (data : Word) (apDelay : Nat)
  | swdReqDpReadA0 (apDelay : Nat)
  | swdReqDpReadA1 (apDelay : Nat)
  | swdReqDpReadA2 (apDelay : Nat)
  | swdReqDpReadA3 (apDelay : Nat)
  | swdReqApWriteA0 (data : Word) (apDelay : Nat)
  | swdReqApWriteA1 (data : Word) (apDelay : Nat)
  | swdReqApWriteA2 (data : Word) (apDelay : Nat)
  | swdReqApWriteA3 (data : Word) (apDelay : Nat)
  | swdReqApReadA0 (apDelay : Nat)
  | swdReqApReadA1 (apDelay : Nat)
  | swdReqApReadA2 (apDelay : Nat)
  | swdReqApReadA3 (apDelay : Nat)
  -- the pattern of every request byte (R201); `data` is the word of a write and unused by a read
  | swdReqGeneric (apndp rnw : Bool) (addr : BitVec 2) (data : Word) (apDelay : Nat)
  -- the eight 3-bit ack values (R106, R117): a `swd_run` in which queue entry `entry` is answered so
  | swdAckOk (entry : Nat)
  | swdAckWait (entry : Nat)
  | swdAckFault (entry : Nat)
  | swdAckOther000 (entry : Nat)
  | swdAckOther011 (entry : Nat)
  | swdAckOther101 (entry : Nat)
  | swdAckOther110 (entry : Nat)
  | swdAckOther111 (entry : Nat)
  -- the eight mode-switch ids (R110), each the `switch_sequence` of that id (R253)
  | switchJtagToSwd
  | switchSwdToJtag
  | switchJtagToDormant
  | switchDormantToJtag
  | switchSwdToDormant
  | switchDormantToSwd
  | switchUnrecognised6
  | switchUnrecognised7
  -- the sixteen TAP state codes (R91), each a one-cycle walk to that state by the table of R131
  | tapStateReset
  | tapStateIdle
  | tapStateDrSelect
  | tapStateDrCapture
  | tapStateDrShift
  | tapStateDrExit1
  | tapStateDrPause
  | tapStateDrExit2
  | tapStateDrUpdate
  | tapStateIrSelect
  | tapStateIrCapture
  | tapStateIrShift
  | tapStateIrExit1
  | tapStateIrPause
  | tapStateIrExit2
  | tapStateIrUpdate
  deriving DecidableEq, Repr

/-- A JTAG operation presented on its own at the command port (R92: tags 0 to 6 are commands of the table). An operation
of any other tag has no such form. -/
def Instr.ofOp : JtagOp → Option Instr
  | .runtest c e => some (.runtest c e)
  | .statemove e => some (.statemove e)
  | .pathmove l => some (.pathmove l)
  | .scan ir f e => some (.scan ir f e)
  | .tms c b => some (.tms c b)
  | .sleep us => some (.sleep us)
  | .stableclocks c => some (.stableclocks c)
  | .other _ => none

end Sys2Proof
end

