-- ==== Sys2Proof/WellFormed.lean ====
section
/-! DEFINITION. What the types of the syntax leave open: operand widths (R93) and the length of a tms buffer (R92, R98).
An `end_state` that is not stable, a path of non-adjacent states and an unknown sequence id are NOT ill-formed: the spec
checks them when the command runs (R94, R96, R114, R115). -/

namespace Sys2Proof

/-- R93: an unsigned operand, or the length of a list, fits 32 bits. -/
def fits32 (n : Nat) : Bool := decide (n < 4294967296)

/-- R93, R97: a field's bit count fits. -/
def ScanField.wellFormed (f : ScanField) : Bool := fits32 f.len

/-- R92: an operation of an `execute` list; the tag of an `other` operation is not one of 0 to 6. -/
def JtagOp.wellFormed : JtagOp → Bool
  | .runtest c _ => fits32 c
  | .statemove _ => true
  | .pathmove l => fits32 l.length
  | .scan _ f _ => fits32 f.length && f.all ScanField.wellFormed
  | .tms c b => fits32 c && b.length == c
  | .sleep us => fits32 us
  | .stableclocks c => fits32 c
  | .other t => decide (7 ≤ t.toNat)

/-- An instruction whose operands the command formats admit. -/
def Instr.wellFormed : Instr → Bool
  | .runtest c e => (JtagOp.runtest c e).wellFormed
  | .statemove e => (JtagOp.statemove e).wellFormed
  | .pathmove l => (JtagOp.pathmove l).wellFormed
  | .scan ir f e => (JtagOp.scan ir f e).wellFormed
  | .tms c b => (JtagOp.tms c b).wellFormed
  | .sleep us => (JtagOp.sleep us).wellFormed
  | .stableclocks c => (JtagOp.stableclocks c).wellFormed
  | .swdRead _ _ d => fits32 d
  | .swdWrite _ _ _ d => fits32 d
  | .swdRun => true
  | .switchSequence _ => true
  | .execute ops => fits32 ops.length && ops.all JtagOp.wellFormed
  | .unassignedTag7 | .unassignedTag13 | .unassignedTag14 | .unassignedTag15 => true
  | .swdReqDpWriteA0 _ d | .swdReqDpWriteA1 _ d | .swdReqDpWriteA2 _ d | .swdReqDpWriteA3 _ d => fits32 d
  | .swdReqDpReadA0 d | .swdReqDpReadA1 d | .swdReqDpReadA2 d | .swdReqDpReadA3 d => fits32 d
  | .swdReqApWriteA0 _ d | .swdReqApWriteA1 _ d | .swdReqApWriteA2 _ d | .swdReqApWriteA3 _ d => fits32 d
  | .swdReqApReadA0 d | .swdReqApReadA1 d | .swdReqApReadA2 d | .swdReqApReadA3 d => fits32 d
  | .swdReqGeneric _ _ _ _ d => fits32 d
  | .swdAckOk e | .swdAckWait e | .swdAckFault e | .swdAckOther000 e => fits32 e
  | .swdAckOther011 e | .swdAckOther101 e | .swdAckOther110 e | .swdAckOther111 e => fits32 e
  | .switchJtagToSwd | .switchSwdToJtag | .switchJtagToDormant | .switchDormantToJtag => true
  | .switchSwdToDormant | .switchDormantToSwd | .switchUnrecognised6 | .switchUnrecognised7 => true
  | .tapStateReset | .tapStateIdle | .tapStateDrSelect | .tapStateDrCapture => true
  | .tapStateDrShift | .tapStateDrExit1 | .tapStateDrPause | .tapStateDrExit2 => true
  | .tapStateDrUpdate | .tapStateIrSelect | .tapStateIrCapture | .tapStateIrShift => true
  | .tapStateIrExit1 | .tapStateIrPause | .tapStateIrExit2 | .tapStateIrUpdate => true

end Sys2Proof
end

