-- ==== Sys2Proof/Decode.lean ====
section
/-! DEFINITION. The command record as bytes: the decoder, total and rejecting by name, and after it the encoder. The spec
gives commands as records and fixes no bytes (R92, R118, D4); the byte layout is the model's (log entry 2): a header byte,
then the operands in the order of R92, each count 32 bits little-endian (R63, R93), bit buffers packed as R60 says. A header
below 0x10 is a command tag (R92), a header of 0x80 or more an SWD request byte (R103); 0x10, 0x20, 0x30 and 0x40 open the
operand rows of the opcode table, which are no tags. -/

namespace Sys2Proof

/-- Why bytes are no command record. -/
inductive DecodeError where
  /-- the bytes end inside a record -/
  | truncated
  /-- no row of the opcode table has this header -/
  | unknownHeader (header : Byte)
  /-- a byte that stands for one TAP state is above 15 (R93: 4 bits) -/
  | badStateCode (code : Byte)
  /-- a byte that stands for a flag, a 2-bit address or a 3-bit id holds more (R93) -/
  | badOperand (value : Byte)
  /-- a bit above a buffer's length is not 0 -/
  | badPadding
  /-- the tag of an operation inside `execute` is above 15 (R92: a 4-bit tag) -/
  | badTag (tag : Byte)
  deriving DecidableEq, Repr

/-- A reader of one item at the front of the bytes. -/
abbrev Reader (α : Type) := List Byte → Except DecodeError (α × List Byte)

namespace TapState

/-- R91: the code of a state. -/
def code : TapState → Nat
  | reset => 0 | idle => 1 | drSelect => 2 | drCapture => 3
  | drShift => 4 | drExit1 => 5 | drPause => 6 | drExit2 => 7
  | drUpdate => 8 | irSelect => 9 | irCapture => 10 | irShift => 11
  | irExit1 => 12 | irPause => 13 | irExit2 => 14 | irUpdate => 15

/-- R91: the state of a code. -/
def ofCode (n : Nat) : Option TapState := all[n]?

end TapState

/-! ### Items -/

/-- One byte. -/
def takeByte : Reader Byte
  | [] => .error .truncated
  | b :: bs => .ok (b, bs)

/-- A byte that must be below `bound` (R93). -/
def takeSmall (bound : Nat) (bs : List Byte) : Except DecodeError (Nat × List Byte) :=
  match takeByte bs with
  | .error e => .error e
  | .ok (b, r) => if b.toNat < bound then .ok (b.toNat, r) else .error (.badOperand b)

/-- A 32-bit unsigned operand, least significant byte first (R63). -/
def takeU32 : Reader Nat
  | b0 :: b1 :: b2 :: b3 :: bs =>
    .ok (b0.toNat + 256 * b1.toNat + 65536 * b2.toNat + 16777216 * b3.toNat, bs)
  | _ => .error .truncated

/-- A TAP state code (R91). -/
def takeState (bs : List Byte) : Except DecodeError (TapState × List Byte) :=
  match takeByte bs with
  | .error e => .error e
  | .ok (b, r) =>
    match TapState.ofCode b.toNat with
    | some t => .ok (t, r)
    | none => .error (.badStateCode b)

/-- `n` items, one after another. -/
def takeMany {α : Type} (one : Reader α) : Nat → Reader (List α)
  | 0, bs => .ok ([], bs)
  | n + 1, bs =>
    match one bs with
    | .error e => .error e
    | .ok (x, r) =>
      match takeMany one n r with
      | .error e => .error e
      | .ok (xs, r') => .ok (x :: xs, r')

/-- The bits of a byte, bit 0 first (R60). -/
def byteBits (b : Byte) : List Bool := (List.range 8).map b.getLsbD

/-- A bit buffer of `n` bits: offset `k` is bit `k mod 8` of byte `k div 8` (R60); the bits above it are 0. -/
def takeBits (n : Nat) (bs : List Byte) : Except DecodeError (List Bool × List Byte) :=
  let k := (n + 7) / 8
  if bs.length < k then .error .truncated
  else
    let all := (bs.take k).flatMap byteBits
    if (all.drop n).any id then .error .badPadding else .ok (all.take n, bs.drop k)

/-- A scan field (R97): flags (bit 0: has output bits, bit 1: capture), the count, the bits if it has them. -/
def takeField (bs : List Byte) : Except DecodeError (ScanField × List Byte) :=
  match takeSmall 4 bs with
  | .error e => .error e
  | .ok (fl, r) =>
    match takeU32 r with
    | .error e => .error e
    | .ok (n, r) =>
      if fl.testBit 0 then
        match takeBits n r with
        | .error e => .error e
        | .ok (b, r) => .ok (⟨.bits b, fl.testBit 1⟩, r)
      else .ok (⟨.silent n, fl.testBit 1⟩, r)

/-- A counted list. -/
def takeList {α : Type} (one : Reader α) (bs : List Byte) : Except DecodeError (List α × List Byte) :=
  match takeU32 bs with
  | .error e => .error e
  | .ok (n, r) => takeMany one n r

/-- A 32-bit data word (R93). -/
def takeWord (bs : List Byte) : Except DecodeError (Word × List Byte) :=
  match takeU32 bs with
  | .error e => .error e
  | .ok (n, r) => .ok (BitVec.ofNat 32 n, r)

/-! ### Commands -/

/-- The operands of a JTAG operation by its tag (R92, R94 to R99). Inside `execute` a tag outside 0 to 6 stands alone:
its operands are not known, and nothing of the list after it is realised (R160). -/
def takeOpOf (tag : Nat) (bs : List Byte) : Except DecodeError (JtagOp × List Byte) :=
  match tag with
  | 0 =>
    match takeU32 bs with
    | .error e => .error e
    | .ok (c, r) =>
      match takeState r with
      | .error e => .error e
      | .ok (t, r) => .ok (.runtest c t, r)
  | 1 =>
    match takeState bs with
    | .error e => .error e
    | .ok (t, r) => .ok (.statemove t, r)
  | 2 =>
    match takeList takeState bs with
    | .error e => .error e
    | .ok (l, r) => .ok (.pathmove l, r)
  | 3 =>
    match takeSmall 2 bs with
    | .error e => .error e
    | .ok (ir, r) =>
      match takeList takeField r with
      | .error e => .error e
      | .ok (f, r) =>
        match takeState r with
        | .error e => .error e
        | .ok (t, r) => .ok (.scan (ir == 1) f t, r)
  | 4 =>
    match takeU32 bs with
    | .error e => .error e
    | .ok (c, r) =>
      match takeBits c r with
      | .error e => .error e
      | .ok (b, r) => .ok (.tms c b, r)
  | 5 =>
    match takeU32 bs with
    | .error e => .error e
    | .ok (us, r) => .ok (.sleep us, r)
  | 6 =>
    match takeU32 bs with
    | .error e => .error e
    | .ok (c, r) => .ok (.stableclocks c, r)
  | t => if t < 16 then .ok (.other (BitVec.ofNat 4 t), bs) else .error (.badTag (BitVec.ofNat 8 t))

/-- An element of an `execute` list: its tag and its operands. -/
def takeOp (bs : List Byte) : Except DecodeError (JtagOp × List Byte) :=
  match takeByte bs with
  | .error e => .error e
  | .ok (b, r) => takeOpOf b.toNat r

/-- A JTAG operation on its own at the command port. -/
def takeOpCommand (header : Byte) (bs : List Byte) : Except DecodeError (Instr × List Byte) :=
  match takeOpOf header.toNat bs with
  | .error e => .error e
  | .ok (op, r) =>
    match Instr.ofOp op with
    | some i => .ok (i, r)
    | none => .error (.unknownHeader header)

/-- The space and address operands of an SWD command (R93). -/
def takeApAddr (bs : List Byte) : Except DecodeError ((Bool × BitVec 2) × List Byte) :=
  match takeSmall 2 bs with
  | .error e => .error e
  | .ok (ap, r) =>
    match takeSmall 4 r with
    | .error e => .error e
    | .ok (a, r) => .ok ((ap == 1, BitVec.ofNat 2 a), r)

/-- A constructor with one count operand. -/
def takeCount (mk : Nat → Instr) (bs : List Byte) : Except DecodeError (Instr × List Byte) :=
  match takeU32 bs with
  | .error e => .error e
  | .ok (n, r) => .ok (mk n, r)

/-- A constructor with a data word and a count. -/
def takeWordCount (mk : Word → Nat → Instr) (bs : List Byte) : Except DecodeError (Instr × List Byte) :=
  match takeWord bs with
  | .error e => .error e
  | .ok (d, r) => takeCount (mk d) r

/-- Tags 8 to 15 (R92, R113). -/
def decodeHighTag (header : Byte) (bs : List Byte) : Except DecodeError (Instr × List Byte) :=
  match header.toNat with
  | 8 =>
    match takeApAddr bs with
    | .error e => .error e
    | .ok ((ap, a), r) => takeCount (.swdRead ap a) r
  | 9 =>
    match takeApAddr bs with
    | .error e => .error e
    | .ok ((ap, a), r) => takeWordCount (.swdWrite ap a) r
  | 10 => .ok (.swdRun, bs)
  | 11 =>
    match takeSmall 8 bs with
    | .error e => .error e
    | .ok (n, r) => .ok (.switchSequence (BitVec.ofNat 3 n), r)
  | 12 =>
    match takeList takeOp bs with
    | .error e => .error e
    | .ok (ops, r) => .ok (.execute ops, r)
  | 7 => .ok (.unassignedTag7, bs)
  | 13 => .ok (.unassignedTag13, bs)
  | 14 => .ok (.unassignedTag14, bs)
  | 15 => .ok (.unassignedTag15, bs)
  | _ => .error (.unknownHeader header)

/-- The sixteen request bytes (R103); any other start, stop, park or parity value is no request (R116). -/
def decodeRequest (header : Byte) (bs : List Byte) : Except DecodeError (Instr × List Byte) :=
  match header.toNat with
  | 0x81 => takeWordCount .swdReqDpWriteA0 bs
  | 0xA9 => takeWordCount .swdReqDpWriteA1 bs
  | 0xB1 => takeWordCount .swdReqDpWriteA2 bs
  | 0x99 => takeWordCount .swdReqDpWriteA3 bs
  | 0xA5 => takeCount .swdReqDpReadA0 bs
  | 0x8D => takeCount .swdReqDpReadA1 bs
  | 0x95 => takeCount .swdReqDpReadA2 bs
  | 0xBD => takeCount .swdReqDpReadA3 bs
  | 0xA3 => takeWordCount .swdReqApWriteA0 bs
  | 0x8B => takeWordCount .swdReqApWriteA1 bs
  | 0x93 => takeWordCount .swdReqApWriteA2 bs
  | 0xBB => takeWordCount .swdReqApWriteA3 bs
  | 0x87 => takeCount .swdReqApReadA0 bs
  | 0xAF => takeCount .swdReqApReadA1 bs
  | 0xB7 => takeCount .swdReqApReadA2 bs
  | 0x9F => takeCount .swdReqApReadA3 bs
  | _ => .error (.unknownHeader header)

/-- The operand rows of the table: acks at 0x10, mode-switch ids at 0x20, TAP state codes at 0x30, the generic request at
0x40 (flags: bit 0 APnDP, bit 1 RnW, bits 3:2 the address). -/
def decodeOperandRow (header : Byte) (bs : List Byte) : Except DecodeError (Instr × List Byte) :=
  match header.toNat with
  | 0x10 => takeCount .swdAckOther000 bs
  | 0x11 => takeCount .swdAckOk bs
  | 0x12 => takeCount .swdAckWait bs
  | 0x13 => takeCount .swdAckOther011 bs
  | 0x14 => takeCount .swdAckFault bs
  | 0x15 => takeCount .swdAckOther101 bs
  | 0x16 => takeCount .swdAckOther110 bs
  | 0x17 => takeCount .swdAckOther111 bs
  | 0x20 => .ok (.switchJtagToSwd, bs)
  | 0x21 => .ok (.switchSwdToJtag, bs)
  | 0x22 => .ok (.switchJtagToDormant, bs)
  | 0x23 => .ok (.switchDormantToJtag, bs)
  | 0x24 => .ok (.switchSwdToDormant, bs)
  | 0x25 => .ok (.switchDormantToSwd, bs)
  | 0x26 => .ok (.switchUnrecognised6, bs)
  | 0x27 => .ok (.switchUnrecognised7, bs)
  | 0x30 => .ok (.tapStateReset, bs)
  | 0x31 => .ok (.tapStateIdle, bs)
  | 0x32 => .ok (.tapStateDrSelect, bs)
  | 0x33 => .ok (.tapStateDrCapture, bs)
  | 0x34 => .ok (.tapStateDrShift, bs)
  | 0x35 => .ok (.tapStateDrExit1, bs)
  | 0x36 => .ok (.tapStateDrPause, bs)
  | 0x37 => .ok (.tapStateDrExit2, bs)
  | 0x38 => .ok (.tapStateDrUpdate, bs)
  | 0x39 => .ok (.tapStateIrSelect, bs)
  | 0x3A => .ok (.tapStateIrCapture, bs)
  | 0x3B => .ok (.tapStateIrShift, bs)
  | 0x3C => .ok (.tapStateIrExit1, bs)
  | 0x3D => .ok (.tapStateIrPause, bs)
  | 0x3E => .ok (.tapStateIrExit2, bs)
  | 0x3F => .ok (.tapStateIrUpdate, bs)
  | 0x40 =>
    match takeSmall 16 bs with
    | .error e => .error e
    | .ok (fl, r) => takeWordCount (.swdReqGeneric (fl.testBit 0) (fl.testBit 1) (BitVec.ofNat 2 (fl / 4))) r
  | _ => .error (.unknownHeader header)

/-- Reads one command record at the front of the bytes and answers it with what follows it. -/
def decode (bytes : List Byte) : Except DecodeError (Instr × List Byte) :=
  match bytes with
  | [] => .error .truncated
  | h :: bs =>
    if h.toNat < 7 then takeOpCommand h bs
    else if h.toNat < 16 then decodeHighTag h bs
    else if h.toNat < 128 then decodeOperandRow h bs
    else decodeRequest h bs

/-! ### The encoder -/

/-- A 32-bit unsigned operand, least significant byte first (R63). -/
def u32Bytes (n : Nat) : List Byte :=
  [BitVec.ofNat 8 n, BitVec.ofNat 8 (n / 256), BitVec.ofNat 8 (n / 65536), BitVec.ofNat 8 (n / 16777216)]

/-- R91: a state's code as a byte. -/
def stateByte (t : TapState) : Byte := BitVec.ofNat 8 t.code

/-- A flag as a byte. -/
def flagByte (b : Bool) : Byte := if b then 1#8 else 0#8

/-- The value of a bit list, offset 0 least significant (R10, R60). -/
def bitsVal : List Bool → Nat
  | [] => 0
  | b :: r => b.toNat + 2 * bitsVal r

/-- Packs `k` bytes of a bit buffer, eight bits each, offset 0 first (R60). -/
def packBytes : Nat → List Bool → List Byte
  | 0, _ => []
  | k + 1, l => BitVec.ofNat 8 (bitsVal (l.take 8)) :: packBytes k (l.drop 8)

/-- A bit buffer in as many bytes as it needs (R60). -/
def packBits (l : List Bool) : List Byte := packBytes ((l.length + 7) / 8) l

/-- R97: a scan field. -/
def encodeField (f : ScanField) : List Byte :=
  match f.out with
  | .bits b => BitVec.ofNat 8 (1 + 2 * f.capture.toNat) :: (u32Bytes b.length ++ packBits b)
  | .silent n => BitVec.ofNat 8 (2 * f.capture.toNat) :: u32Bytes n

/-- R92, R94 to R99: an operation, its tag first. -/
def encodeOp : JtagOp → List Byte
  | .runtest c e => 0x00#8 :: (u32Bytes c ++ [stateByte e])
  | .statemove e => [0x01#8, stateByte e]
  | .pathmove l => 0x02#8 :: (u32Bytes l.length ++ l.map stateByte)
  | .scan ir f e => 0x03#8 :: flagByte ir :: (u32Bytes f.length ++ f.flatMap encodeField ++ [stateByte e])
  | .tms c b => 0x04#8 :: (u32Bytes c ++ packBits b)
  | .sleep us => 0x05#8 :: u32Bytes us
  | .stableclocks c => 0x06#8 :: u32Bytes c
  | .other t => [t.setWidth 8]

/-- The bytes of an instruction. -/
def encode : Instr → List Byte
  | .runtest c e => encodeOp (.runtest c e)
  | .statemove e => encodeOp (.statemove e)
  | .pathmove l => encodeOp (.pathmove l)
  | .scan ir f e => encodeOp (.scan ir f e)
  | .tms c b => encodeOp (.tms c b)
  | .sleep us => encodeOp (.sleep us)
  | .stableclocks c => encodeOp (.stableclocks c)
  | .swdRead ap a d => 0x08#8 :: flagByte ap :: a.setWidth 8 :: u32Bytes d
  | .swdWrite ap a w d => 0x09#8 :: flagByte ap :: a.setWidth 8 :: (u32Bytes w.toNat ++ u32Bytes d)
  | .swdRun => [0x0A#8]
  | .switchSequence id => [0x0B#8, id.setWidth 8]
  | .execute ops => 0x0C#8 :: (u32Bytes ops.length ++ ops.flatMap encodeOp)
  | .unassignedTag7 => [0x07#8]
  | .unassignedTag13 => [0x0D#8]
  | .unassignedTag14 => [0x0E#8]
  | .unassignedTag15 => [0x0F#8]
  | .swdReqDpWriteA0 w d => 0x81#8 :: (u32Bytes w.toNat ++ u32Bytes d)
  | .swdReqDpWriteA1 w d => 0xA9#8 :: (u32Bytes w.toNat ++ u32Bytes d)
  | .swdReqDpWriteA2 w d => 0xB1#8 :: (u32Bytes w.toNat ++ u32Bytes d)
  | .swdReqDpWriteA3 w d => 0x99#8 :: (u32Bytes w.toNat ++ u32Bytes d)
  | .swdReqDpReadA0 d => 0xA5#8 :: u32Bytes d
  | .swdReqDpReadA1 d => 0x8D#8 :: u32Bytes d
  | .swdReqDpReadA2 d => 0x95#8 :: u32Bytes d
  | .swdReqDpReadA3 d => 0xBD#8 :: u32Bytes d
  | .swdReqApWriteA0 w d => 0xA3#8 :: (u32Bytes w.toNat ++ u32Bytes d)
  | .swdReqApWriteA1 w d => 0x8B#8 :: (u32Bytes w.toNat ++ u32Bytes d)
  | .swdReqApWriteA2 w d => 0x93#8 :: (u32Bytes w.toNat ++ u32Bytes d)
  | .swdReqApWriteA3 w d => 0xBB#8 :: (u32Bytes w.toNat ++ u32Bytes d)
  | .swdReqApReadA0 d => 0x87#8 :: u32Bytes d
  | .swdReqApReadA1 d => 0xAF#8 :: u32Bytes d
  | .swdReqApReadA2 d => 0xB7#8 :: u32Bytes d
  | .swdReqApReadA3 d => 0x9F#8 :: u32Bytes d
  | .swdReqGeneric ap rnw a w d =>
    0x40#8 :: BitVec.ofNat 8 (ap.toNat + 2 * rnw.toNat + 4 * a.toNat) :: (u32Bytes w.toNat ++ u32Bytes d)
  | .swdAckOk e => 0x11#8 :: u32Bytes e
  | .swdAckWait e => 0x12#8 :: u32Bytes e
  | .swdAckFault e => 0x14#8 :: u32Bytes e
  | .swdAckOther000 e => 0x10#8 :: u32Bytes e
  | .swdAckOther011 e => 0x13#8 :: u32Bytes e
  | .swdAckOther101 e => 0x15#8 :: u32Bytes e
  | .swdAckOther110 e => 0x16#8 :: u32Bytes e
  | .swdAckOther111 e => 0x17#8 :: u32Bytes e
  | .switchJtagToSwd => [0x20#8]
  | .switchSwdToJtag => [0x21#8]
  | .switchJtagToDormant => [0x22#8]
  | .switchDormantToJtag => [0x23#8]
  | .switchSwdToDormant => [0x24#8]
  | .switchDormantToSwd => [0x25#8]
  | .switchUnrecognised6 => [0x26#8]
  | .switchUnrecognised7 => [0x27#8]
  | .tapStateReset => [0x30#8]
  | .tapStateIdle => [0x31#8]
  | .tapStateDrSelect => [0x32#8]
  | .tapStateDrCapture => [0x33#8]
  | .tapStateDrShift => [0x34#8]
  | .tapStateDrExit1 => [0x35#8]
  | .tapStateDrPause => [0x36#8]
  | .tapStateDrExit2 => [0x37#8]
  | .tapStateDrUpdate => [0x38#8]
  | .tapStateIrSelect => [0x39#8]
  | .tapStateIrCapture => [0x3A#8]
  | .tapStateIrShift => [0x3B#8]
  | .tapStateIrExit1 => [0x3C#8]
  | .tapStateIrPause => [0x3D#8]
  | .tapStateIrExit2 => [0x3E#8]
  | .tapStateIrUpdate => [0x3F#8]

/-! ### The opcode table's words -/

/-- The bytes of an opcode-table word: `nbits / 8` bytes, the first holding bits 7..0, then zeros up to the longest record
of zero operands (ten bytes). -/
def tableBytes (nbits w : Nat) : List Byte :=
  (List.range (nbits / 8)).map (fun k => BitVec.ofNat 8 (w >>> (8 * k))) ++ List.replicate 10 0x00#8

/-- The instruction the decoder reads from an opcode-table word. The table numbers tags, acks, ids and state codes each
from 0, so a word below 16 is read as the command tag it is at the command port (log entry 2). -/
def decodeTableWord (nbits w : Nat) : Option Instr :=
  match decode (tableBytes nbits w) with
  | .ok (i, _) => some i
  | .error _ => none

end Sys2Proof
end

