-- ==== Sys2Proof/Machine/State.lean ====
section
/-! DEFINITION. The state of the block as plain data: the registers of 10_state.md, the buffers of its neighbours that it
writes (destination slots, scan capture buffers, the Transport's pending batch), its inputs (command port, captured bits,
flush results) and its parameters; then why a step can stop, and the state after reset. -/

namespace Sys2Proof.Machine

/-- R41: whether the block drives the SWD data line. -/
inductive Dir where
  | drive | float
  deriving DecidableEq, Repr

/-- R272: which lines a `BITS` event uses, and the `mode_flags` it carries (D43). -/
inductive WireMode where
  | jtag (flags : EdgeFlags)
  | swd (flags : EdgeFlags)
  deriving DecidableEq, Repr

/-- Where the bits captured by an event are delivered at the next successful flush (R72). -/
inductive CapDest where
  /-- nothing is captured -/
  | none
  /-- offsets `0` to `n - 1` of the `raw` buffer of SWD queue entry `entry` (R104, R105) -/
  | raw (entry n : Nat)
  /-- offsets `off` to `off + n - 1` of scan capture buffer `buf` (R174) -/
  | buf (buf off n : Nat)
  deriving DecidableEq, Repr

/-- R270: the event alphabet, the block's only outputs. -/
inductive Event where
  /-- R271: `TMS(bits, tdi, cap)` -/
  | tms (bits : List Bool) (tdi : Bool) (cap : CapDest)
  /-- R272: `BITS(mode, out, n, cap)` -/
  | bits (mode : WireMode) (out : Option (List Bool)) (n : Nat) (cap : CapDest)
  /-- R276: `DIR(d)` -/
  | dir (d : Dir)
  /-- R277: `FLUSH` -/
  | flush
  /-- R275: `DELAY(us)` -/
  | delay (us : Nat)
  deriving DecidableEq, Repr

/-- R300 to R302: OK or one error, with the information it carries. -/
inductive Result where
  | ok
  /-- ConfigError(UnknownCommand): in `execute` the operation's index (R160), at the command port the tag -/
  | unknownCommand (index : Nat)
  /-- ConfigError(UnknownSequence, id) (R253) -/
  | unknownSequence (id : BitVec 3)
  /-- UnsupportedSignal: of the Signal Registry only; no command of the block returns it (R287) -/
  | unsupportedSignal
  /-- InvalidTransition(from, requested) -/
  | invalidTransition (src dst : TapState)
  | transportError
  /-- ProtocolAck(WAIT) of a queue entry; its raw ack is 0b010 (R217) -/
  | ackWait (entry : Nat)
  /-- ProtocolAck(FAULT) of a queue entry, with the raw ack (R217, R218) -/
  | ackFault (entry : Nat) (ack : BitVec 3)
  /-- DataIntegrityError of a queue entry (R220) -/
  | dataIntegrity (entry : Nat)
  deriving DecidableEq, Repr

/-- R44, R302: the result port: a result and, from `execute`, the index of the operation that failed. -/
structure Report where
  result : Result
  opIndex : Option Nat
  deriving DecidableEq, Repr

/-- R38: a transaction's place in the per-transaction state machine. -/
inductive Phase where
  | pending | submitted | decoded | committed | failed
  deriving DecidableEq, Repr

/-- R37: one SWD queue entry. -/
structure Entry where
  /-- the request byte (R100) -/
  cmd : Byte
  isRead : Bool
  /-- "optional write data word" -/
  wdata : Option Word
  /-- the destination slot's handle, of a read -/
  dst : Option Nat
  /-- the buffer of R104 and R105, 38 bits with `TRN_CYCLES` = 1, offset 0 first -/
  raw : List Bool
  phase : Phase
  deriving DecidableEq, Repr

/-- A sparse map by number: strictly rising keys, listed keys only. -/
abbrev Store (α : Type) := List (Nat × α)

/-- The state of the block and of what it reads and writes at its ports. -/
structure State where
  /-- R32 -/
  tapCur : TapState
  /-- R33 -/
  tapGoal : TapState
  /-- R36: the entries of the queue's array that have been written; entries `0` to `swdLen - 1` are in use -/
  swdQ : List Entry
  /-- R36 -/
  swdLen : Nat
  swdCap : Nat
  /-- R40 -/
  swdSticky : Result
  /-- R41 -/
  swdioDir : Dir
  /-- R42 -/
  fatal : Bool
  /-- R43 -/
  trace : List Event
  /-- R44 -/
  lastResult : Report
  /-- R39: the destination slots the block has written, by handle -/
  slots : Store Word
  /-- R207: the next fresh handle, and the handle the last `swd_read` returned -/
  nextSlot : Nat
  lastHandle : Option Nat
  /-- R47, R72: the scan capture buffers, by buffer number and offset, as far as captured bits were delivered -/
  captured : Store (Store Bool)
  /-- the next buffer number: field `k` of a scan captures to buffer `nextBuf + k` of the moment it starts -/
  nextBuf : Nat
  /-- R45: the Transport's pending batch: the Transport events emitted since the last flush -/
  pending : List Event
  /-- R17: the command port: the bytes of the command records not yet taken -/
  cmdPort : List Byte
  /-- R70: the bits the environment supplies to capturing events, in order -/
  capIn : List Bool
  /-- R277: the results the environment supplies to flushes, in order; true is success -/
  flushIn : List Bool
  /-- the number of free values drawn so far (the model's own) -/
  freeCtr : Nat
  /-- R7: the parameters; no step writes them -/
  params : Params
  deriving DecidableEq, Repr

/-- Why the machine stops. -/
inductive Fault where
  /-- The bytes at the command port are no command record. Raised by `step` when `decode` rejects them. Safe: the spec
  gives commands as records and no bytes (R118), so no behaviour of the block is cut off. -/
  | badRecord (why : DecodeError)
  deriving DecidableEq, Repr

/-- Why a command has no step. -/
inductive Refusal where
  /-- The instruction has no meaning in the model yet. Raised by `exec` alone. Safe. -/
  | notModelled (mnemonic : String)
  /-- `stableclocks` outside a stable state: "this spec gives the call no meaning: a model refuses it" (R180, U5). Raised
  by `stableclocks` and by an `execute` that reaches one. Safe. -/
  | stableclocksUnstable (cur : TapState)
  deriving DecidableEq, Repr

/-- R51, R340, R341: the state after reset. The ports and the model's own counters start empty (log entries 4, 5). -/
def State.reset : State where
  tapCur := .reset
  tapGoal := .reset
  swdQ := []
  swdLen := 0
  swdCap := Config.params.swdQueueInitCap
  swdSticky := .ok
  swdioDir := .drive
  fatal := false
  trace := []
  lastResult := ⟨.ok, none⟩
  slots := []
  nextSlot := 0
  lastHandle := none
  captured := []
  nextBuf := 0
  pending := []
  cmdPort := []
  capIn := []
  flushIn := []
  freeCtr := 0
  params := Config.params

end Sys2Proof.Machine
end

