-- ==== Sys2Proof/Machine/Operands.lean ====
section
/-! DEFINITION. The operand forms of the wire: bit buffers and values, the SWD request byte, the read and write frames and
the fields of a captured `raw` buffer (R60, R100 to R109). -/

namespace Sys2Proof.Machine

open Sys2Proof (Byte Word Params)

/-- R9, R62: a value as the bits sent, bit 0 first. -/
def wireOf {w : Nat} (v : BitVec w) : List Bool := (List.range w).map v.getLsbD

/-- R10: the bits `o` to `o + n - 1` of a buffer, read as a value whose bit `k` is `B[o + k]`. -/
def slice (b : List Bool) (o n : Nat) : BitVec n := BitVec.ofNat n (bitsVal ((b.drop o).take n))

/-- R12, R107: the XOR of a value's bits. -/
def parity {w : Nat} (v : BitVec w) : Bool := (wireOf v).foldl xor false

/-- R100, R101, R201: the request byte. -/
def encodeRequest (apndp rnw : Bool) (a : BitVec 2) : Byte :=
  let p := ((apndp ^^ rnw) ^^ a.getLsbD 0) ^^ a.getLsbD 1
  BitVec.ofNat 8 (1 + 2 * apndp.toNat + 4 * rnw.toNat + 8 * (a.getLsbD 0).toNat + 16 * (a.getLsbD 1).toNat
    + 32 * p.toNat + 64 * 0 + 128 * 1)

/-- R100: a request byte's APnDP and RnW bits. -/
def Request.apndp (cmd : Byte) : Bool := cmd.getLsbD 1
def Request.rnw (cmd : Byte) : Bool := cmd.getLsbD 2

/-- R272: the mode of scan data. -/
def jtagWire (p : Params) : WireMode := .jtag p.jtagMode

/-- R272: the mode of SWD traffic and of the mode-switch sequences. -/
def swdWire (p : Params) : WireMode := .swd p.swdMode

/-- R104: the cycles of a read's captured frame: turnaround, 3-bit ack, 32 data bits, parity, turnaround. -/
def readFrameLen (p : Params) : Nat := p.trnCycles + 3 + 32 + 1 + p.trnCycles

/-- R105: the cycles of a write's captured frame: turnaround, 3-bit ack, turnaround. -/
def writeFrameLen (p : Params) : Nat := p.trnCycles + 3 + p.trnCycles

/-- R104, R105: the ack, `raw[1 +: 3]` with `TRN_CYCLES` = 1. -/
def rawAck (p : Params) (raw : List Bool) : BitVec 3 := slice raw p.trnCycles 3

/-- R104: the read data, `raw[4 +: 32]` with `TRN_CYCLES` = 1. -/
def rawData (p : Params) (raw : List Bool) : Word := slice raw (p.trnCycles + 3) 32

/-- R104: the read parity bit, `raw[36]` with `TRN_CYCLES` = 1. -/
def rawParity (p : Params) (raw : List Bool) : Bool := raw.getD (p.trnCycles + 35) false

/-- R105, R107: the 33 payload bits of a write: the data word, bit 0 first, then its parity. -/
def writePayload (data : Word) : List Bool := wireOf data ++ [parity data]

/-- R62: bits delivered to the front of a buffer; the offsets above them keep their contents. -/
def overlay (bits buf : List Bool) : List Bool := bits ++ buf.drop bits.length

/-- R106: the buffer with its ack field holding `ack`. -/
def withAck (p : Params) (ack : BitVec 3) (raw : List Bool) : List Bool :=
  raw.take p.trnCycles ++ wireOf ack ++ raw.drop (p.trnCycles + 3)

/-- R106: the ack OK. -/
def ackOk : BitVec 3 := 0b001#3
/-- R106: the ack WAIT. -/
def ackWaitCode : BitVec 3 := 0b010#3

/-- R253: `MODE_SEQ[id]`, none for an unrecognised id (R115). -/
def modePattern (m : ModeSeq) (id : BitVec 3) : Option BitPattern :=
  match id.toNat with
  | 0 => some m.jtagToSwd
  | 1 => some m.swdToJtag
  | 2 => some m.jtagToDormant
  | 3 => some m.dormantToJtag
  | 4 => some m.swdToDormant
  | 5 => some m.dormantToSwd
  | _ => none

end Sys2Proof.Machine
end

