-- ==== Sys2Proof/Machine/Flags.lean ====
section
/-! DEFINITION. The block's flags and codes: the fatal set and the 3-bit error codes (R301, R303), the predicate
`ACK_IGNORED` (R219), and the verdict on one decoded queue entry (R210, R217 to R220). -/

namespace Sys2Proof.Machine

open Sys2Proof (Byte Word Params)

/-- R301: the 3-bit code of a result. -/
def Result.code : Result → BitVec 3
  | .ok => 0
  | .unknownCommand _ | .unknownSequence _ => 1
  | .unsupportedSignal => 2
  | .invalidTransition _ _ => 3
  | .transportError => 4
  | .ackWait _ => 5
  | .ackFault _ _ => 6
  | .dataIntegrity _ => 7

/-- R303: the kinds that set the `fatal` latch: ConfigError and InvalidTransition. -/
def Result.isFatal : Result → Bool
  | .unknownCommand _ | .unknownSequence _ | .invalidTransition _ _ => true
  | .ok | .unsupportedSignal | .transportError | .ackWait _ | .ackFault _ _ | .dataIntegrity _ => false

/-- R219: `ACK_IGNORED(cmd)`, "true only for write requests". -/
def ackIgnored (p : Params) (cmd : Byte) : Bool := !Request.rnw cmd && p.ackIgnoredBytes.contains cmd

/-- What decoding one queue entry comes to. -/
inductive Verdict where
  /-- the entry is Committed, with the slot write of a read -/
  | commit (write : Option (Nat × Word))
  /-- the entry is Failed and ends the decode -/
  | fail (r : Result)
  deriving DecidableEq, Repr

/-- R217, R218: the result for a non-OK ack that is not ignored. -/
def ackError (entry : Nat) (ack : BitVec 3) : Result :=
  if ack = ackWaitCode then .ackWait entry else .ackFault entry ack

/-- R210's loop body: the ack first, then, for an OK read, the parity (R308). -/
def judge (p : Params) (index : Nat) (e : Entry) : Verdict :=
  let ack := rawAck p e.raw
  if ack ≠ ackOk ∧ ackIgnored p e.cmd = false then .fail (ackError index ack)
  else if e.isRead = true ∧ ack = ackOk then
    if rawParity p e.raw ≠ parity (rawData p e.raw) then .fail (.dataIntegrity index)
    else .commit (e.dst.map fun h => (h, rawData p e.raw))
  else .commit none

end Sys2Proof.Machine
end

