-- ==== Sys2Proof/Machine/Tracker.lean ====
section
/-! DEFINITION. The TAP state tracker as pure functions (R130): the transition function, the path table, and which TMS
level leads from one state to another. -/

namespace Sys2Proof.Machine

open Sys2Proof (TapState)

/-- R131: `T(s, b)`, one clock cycle with TMS = `b`. -/
def tapNext : TapState → Bool → TapState
  | .reset, false => .idle | .reset, true => .reset
  | .idle, false => .idle | .idle, true => .drSelect
  | .drSelect, false => .drCapture | .drSelect, true => .irSelect
  | .drCapture, false => .drShift | .drCapture, true => .drExit1
  | .drShift, false => .drShift | .drShift, true => .drExit1
  | .drExit1, false => .drPause | .drExit1, true => .drUpdate
  | .drPause, false => .drPause | .drPause, true => .drExit2
  | .drExit2, false => .drShift | .drExit2, true => .drUpdate
  | .drUpdate, false => .idle | .drUpdate, true => .drSelect
  | .irSelect, false => .irCapture | .irSelect, true => .reset
  | .irCapture, false => .irShift | .irCapture, true => .irExit1
  | .irShift, false => .irShift | .irShift, true => .irExit1
  | .irExit1, false => .irPause | .irExit1, true => .irUpdate
  | .irPause, false => .irPause | .irPause, true => .irExit2
  | .irExit2, false => .irShift | .irExit2, true => .irUpdate
  | .irUpdate, false => .idle | .irUpdate, true => .drSelect

/-- R132: `step` iterated over a list of TMS bits, the first bit first. -/
def tapWalk (t : TapState) (bits : List Bool) : TapState := bits.foldl tapNext t

/-- R111: the wire string of a pair `(value, length)`. -/
def pairBits (value length : Nat) : List Bool := (List.range length).map value.testBit

/-- R136, R137: the path table as `(value, length)`; none where start or goal is not one of the six path states (R135). -/
def pathPair : TapState → TapState → Option (Nat × Nat)
  | .reset, .reset => some (0x1F, 5) | .reset, .idle => some (0x00, 1) | .reset, .drShift => some (0x02, 4)
  | .reset, .drPause => some (0x0A, 5) | .reset, .irShift => some (0x06, 5) | .reset, .irPause => some (0x16, 6)
  | .idle, .reset => some (0x07, 3) | .idle, .idle => some (0x00, 0) | .idle, .drShift => some (0x01, 3)
  | .idle, .drPause => some (0x05, 4) | .idle, .irShift => some (0x03, 4) | .idle, .irPause => some (0x0B, 5)
  | .drShift, .reset => some (0x1F, 5) | .drShift, .idle => some (0x03, 3) | .drShift, .drShift => some (0x00, 0)
  | .drShift, .drPause => some (0x01, 2) | .drShift, .irShift => some (0x0F, 6) | .drShift, .irPause => some (0x2F, 7)
  | .drPause, .reset => some (0x1F, 5) | .drPause, .idle => some (0x03, 3) | .drPause, .drShift => some (0x01, 2)
  | .drPause, .drPause => some (0x00, 0) | .drPause, .irShift => some (0x0F, 6) | .drPause, .irPause => some (0x2F, 7)
  | .irShift, .reset => some (0x1F, 5) | .irShift, .idle => some (0x03, 3) | .irShift, .drShift => some (0x07, 5)
  | .irShift, .drPause => some (0x17, 6) | .irShift, .irShift => some (0x00, 0) | .irShift, .irPause => some (0x01, 2)
  | .irPause, .reset => some (0x1F, 5) | .irPause, .idle => some (0x03, 3) | .irPause, .drShift => some (0x07, 5)
  | .irPause, .drPause => some (0x17, 6) | .irPause, .irShift => some (0x01, 2) | .irPause, .irPause => some (0x00, 0)
  | _, _ => none

/-- R134, R136: `path(start, goal)` as the TMS bits, first bit first. -/
def path (start goal : TapState) : Option (List Bool) := (pathPair start goal).map fun p => pairBits p.1 p.2

/-- R168: the TMS level that leads from `cur` to `next`, TMS = 0 tried first; none if neither does. -/
def tmsTo (cur next : TapState) : Option Bool :=
  if tapNext cur false = next then some false
  else if tapNext cur true = next then some true
  else none

end Sys2Proof.Machine
end

