-- ==== Sys2Proof/Machine/Ops.lean ====
section
/-! DEFINITION. The named operations every meaning is written over: sparse stores, emitting events, the tracker update,
flushing, drawing captured bits, moves and bursts (JTAG), enqueue, growth and run (SWD), and the block's one way of taking
an error, `raise`, with the refusal of commands while `fatal` is set. -/

namespace Sys2Proof.Machine

open Sys2Proof (Byte Word TapState)

/-! ### Sparse stores -/

namespace Store

/-- The value at `k`, none where nothing was written. -/
def get {α : Type} (m : Store α) (k : Nat) : Option α :=
  match m with
  | [] => none
  | (j, v) :: r => if j = k then some v else get r k

/-- Writes `v` at `k`, keeping the keys strictly rising. -/
def put {α : Type} (m : Store α) (k : Nat) (v : α) : Store α :=
  match m with
  | [] => [(k, v)]
  | (j, u) :: r =>
    if k < j then (k, v) :: (j, u) :: r
    else if k = j then (k, v) :: r
    else (j, u) :: put r k v

/-- Every key of the store is above `k`. -/
def above {α : Type} (k : Nat) (m : Store α) : Bool := m.all fun p => decide (k < p.1)

/-- The canonical form: strictly rising keys. -/
def wf {α : Type} : Store α → Bool
  | [] => true
  | (k, _) :: r => above k r && wf r

end Store

/-- The bit at an offset of a scan capture buffer, none where nothing was delivered. -/
def bufBit (m : Store (Store Bool)) (buf off : Nat) : Option Bool :=
  match m.get buf with
  | some b => b.get off
  | none => none

/-- Delivers one bit. -/
def putBufBit (m : Store (Store Bool)) (buf off : Nat) (v : Bool) : Store (Store Bool) :=
  m.put buf (((m.get buf).getD []).put off v)

/-- Delivers bits at the offsets from `off` up (R71). -/
def putBufBits (m : Store (Store Bool)) (buf off : Nat) (bits : List Bool) : Store (Store Bool) :=
  match bits with
  | [] => m
  | b :: r => putBufBits (putBufBit m buf off b) buf (off + 1) r

/-- The canonical form of the capture buffers: both levels have strictly rising keys. -/
def capturedWf (m : Store (Store Bool)) : Bool := m.wf && m.all fun p => Store.wf p.2

/-! ### Events -/

/-- R12, R270: `emit E` for an event of the Transport: it joins the trace and the pending batch. -/
def emit (e : Event) (s : State) : State :=
  { s with trace := s.trace ++ [e], pending := s.pending ++ [e] }

/-- R275: `DELAY(us)` is no Transport call: it joins the trace alone. -/
def emitDelay (us : Nat) (s : State) : State := { s with trace := s.trace ++ [.delay us] }

/-- R276: a direction event also writes `swdio_dir`. -/
def emitDir (d : Dir) (s : State) : State :=
  let t := emit (.dir d) s
  { t with swdioDir := d }

/-- R273: `k` idle cycles, data line driven 0; no cycles are no event (R65). -/
def emitIdle (k : Nat) (s : State) : State :=
  if k = 0 then s else emit (.bits (swdWire s.params) (some (List.replicate k false)) k .none) s

/-- R132: the tracker update, on each bit of the list in order. -/
def track (bits : List Bool) (s : State) : State := { s with tapCur := tapWalk s.tapCur bits }

/-- A TMS event without capture and TDI = 0 (R271); no bits are no event (R65). -/
def emitTms (bits : List Bool) (s : State) : State :=
  if bits = [] then s else emit (.tms bits false .none) s

/-- A TMS event whose bits step the tracker (R132). -/
def clockTms (bits : List Bool) (s : State) : State := track bits (emitTms bits s)

/-! ### Captured bits and flushes -/

/-- R70: the next `n` captured bits: those the environment supplies, then free values. -/
def capBits (n : Nat) (s : State) : List Bool :=
  s.capIn.take n ++ (List.range (n - s.capIn.length)).map fun k => Config.freeCapture (s.freeCtr + k)

/-- The state after `n` captured bits are drawn. -/
def capDrawn (n : Nat) (s : State) : State :=
  { s with capIn := s.capIn.drop n, freeCtr := s.freeCtr + (n - s.capIn.length) }

/-- The number of bits a destination takes. -/
def CapDest.len : CapDest → Nat
  | .none => 0
  | .raw _ n => n
  | .buf _ _ n => n

/-- The destination of an event. -/
def Event.cap : Event → CapDest
  | .tms _ _ c => c
  | .bits _ _ _ c => c
  | .dir _ | .flush | .delay _ => .none

/-- Puts bits into a capture destination. -/
def storeCap (c : CapDest) (bits : List Bool) (s : State) : State :=
  match c with
  | .none => s
  | .raw i _ => { s with swdQ := s.swdQ.modify i fun e => { e with raw := overlay bits e.raw } }
  | .buf b off _ => { s with captured := putBufBits s.captured b off bits }

/-- R72: a successful flush delivers an event's captured bits. -/
def deliver (s : State) (e : Event) : State :=
  storeCap e.cap (capBits e.cap.len s) (capDrawn e.cap.len s)

/-- R277, U9: after a failed flush a capture destination holds unspecified bits. -/
def lose (s : State) (e : Event) : State :=
  storeCap e.cap ((List.range e.cap.len).map fun k => Config.freeLost (s.freeCtr + k))
    { s with freeCtr := s.freeCtr + e.cap.len }

/-- R277: the result of the next flush: the environment's, else a free value. -/
def flushOk (s : State) : Bool := s.flushIn.headD (Config.freeFlush s.freeCtr)

/-- The state in which a flush is emitted and its result taken: `FLUSH` closes the batch (R277). -/
def flushed (s : State) : State :=
  { s with trace := s.trace ++ [.flush], pending := [], flushIn := s.flushIn.tail
           freeCtr := s.freeCtr + (1 - s.flushIn.length) }

/-- R277: `FLUSH`: the pending batch is performed and its captures delivered, or its captures are lost. The result is
`flushOk` of the state before. -/
def flush (s : State) : State :=
  if flushOk s then s.pending.foldl deliver (flushed s) else s.pending.foldl lose (flushed s)

/-! ### Errors -/

/-- R310: `raise K(info)`, the block's one way of taking an error: the result port holds it, the fatal kinds set the
latch, the command ends, and whatever was written stays written. `opIndex` is the failing operation of an `execute`. -/
def raise (r : Result) (opIndex : Option Nat) (s : State) : State :=
  { s with lastResult := ⟨r, opIndex⟩, fatal := s.fatal || r.isFatal }

/-- A command in progress: its state and, once it has raised, its error. -/
abbrev Run := State × Result

/-- Goes on with `f` unless an error was raised (R307). -/
def Run.andThen (r : Run) (f : State → Run) : Run := if r.2 = .ok then f r.1 else r

/-- Ends a command: the result port holds OK, or the error is raised (R301, R310). -/
def finish (opIndex : Option Nat) (r : Run) : State :=
  if r.2 = .ok then { r.1 with lastResult := ⟨.ok, none⟩ } else raise r.2 opIndex r.1

/-- R311: a command, refused while `fatal` is set: no event and no state change, not even the result port, which keeps
the latched error. -/
def command (body : State → State) (s : State) : Host.Outcome State Fault Refusal :=
  .next (if s.fatal then s else body s)

/-! ### JTAG: moves and bursts -/

/-- R139: `move(goal)` to a stable state. -/
def move (goal : TapState) (s : State) : Run :=
  if goal.isStable then
    match path s.tapCur goal with
    | some bits => (clockTms bits s, .ok)
    | none => (s, .invalidTransition s.tapCur goal)
  else (s, .invalidTransition s.tapCur goal)

/-- R163, R172, R176: "if tap_cur != goal: move(goal)". -/
def moveUnlessThere (goal : TapState) (s : State) : Run := if s.tapCur = goal then (s, .ok) else move goal s

/-- R140: the shift state of a register. -/
def shiftState (isIr : Bool) : TapState := if isIr then .irShift else .drShift

/-- R140: `move_shift(is_ir)`. -/
def moveShift (isIr : Bool) (s : State) : Run :=
  if s.tapCur = shiftState isIr then (s, .ok)
  else
    match path s.tapCur (shiftState isIr) with
    | some bits => (clockTms bits s, .ok)
    | none => (s, .invalidTransition s.tapCur (shiftState isIr))

/-- R162: how `cycles` are cut into bursts of at most `m`, full ones first; `fuel` of `cycles` is enough. -/
def burstLens (m : Nat) : Nat → Nat → List Nat
  | 0, _ => []
  | fuel + 1, cycles => if cycles = 0 then [] else min cycles m :: burstLens m fuel (cycles - min cycles m)

/-- R162: `clock_bursts(level, cycles)`. -/
def clockBursts (level : Bool) (cycles : Nat) (s : State) : State :=
  (burstLens s.params.tmsBurstMax cycles cycles).foldl (fun t k => clockTms (List.replicate k level) t) s

/-- R169, U4: after a failed pathmove `tap_cur` and `tap_goal` are unspecified: free values. -/
def loseTap (s : State) : State :=
  { s with tapCur := Config.freeTapState s.freeCtr, tapGoal := Config.freeTapState (s.freeCtr + 1)
           freeCtr := s.freeCtr + 2 }

/-- R168, R169: the loop of `pathmove`, with the burst gathered so far. -/
def pathWalk : List TapState → List Bool → State → Run
  | [], burst, s => ({ emitTms burst s with tapGoal := s.tapCur }, .ok)
  | t :: ts, burst, s =>
    match tmsTo s.tapCur t with
    | none => (loseTap s, .invalidTransition s.tapCur t)
    | some b =>
      if (burst ++ [b]).length = s.params.tmsBurstMax then pathWalk ts [] (emitTms (burst ++ [b]) (track [b] s))
      else pathWalk ts (burst ++ [b]) (track [b] s)

/-! ### SWD: enqueue, run, growth -/

/-- R202: the contents of a new entry's `raw`: unspecified before the capture, but for the payload of a write (R105). -/
def freshRaw (wdata : Option Word) (s : State) : List Bool :=
  match wdata with
  | none => (List.range (readFrameLen s.params)).map fun k => Config.freeRaw (s.freeCtr + k)
  | some w => ((List.range (writeFrameLen s.params)).map fun k => Config.freeRaw (s.freeCtr + k)) ++ writePayload w

/-- R202: writes entry `swd_len`. -/
def placeEntry (e : Entry) (s : State) : State :=
  { s with swdQ := s.swdQ.take s.swdLen ++ e :: s.swdQ.drop (s.swdLen + 1), freeCtr := s.freeCtr + e.raw.length }

/-- R202 steps 1 to 4: the frame of a transaction on the wire, captured into entry `i`. A transaction with a data word is
a write. -/
def emitFrame (cmd : Byte) (wdata : Option Word) (i : Nat) (s : State) : State :=
  let mode := swdWire s.params
  let s := emitDir .float (emit (.bits mode (some (wireOf cmd)) 8 .none) s)
  match wdata with
  | none =>
    let n := readFrameLen s.params
    emitDir .drive (emit (.bits mode none n (.raw i n)) s)
  | some w =>
    let n := writeFrameLen s.params
    emit (.bits mode (some (writePayload w)) 33 .none) (emitDir .drive (emit (.bits mode none n (.raw i n)) s))

/-- R205: the Access Port delay. -/
def emitApDelay (apndp : Bool) (apDelay : Nat) (s : State) : State := if apndp then emitIdle apDelay s else s

/-- R202: the body of `enqueue` once there is room and no sticky error. -/
def enqueueEntry (apndp : Bool) (a : BitVec 2) (wdata : Option Word) (apDelay : Nat) (dst : Option Nat) (s : State) :
    State :=
  let cmd := encodeRequest apndp wdata.isNone a
  let e : Entry := { cmd, isRead := wdata.isNone, wdata, dst, raw := freshRaw wdata s, phase := .pending }
  let t := emitApDelay apndp apDelay (emitFrame cmd wdata s.swdLen (placeEntry e s))
  { t with swdLen := s.swdLen + 1 }

/-- R214, R215: decodes entries in order from index `index`, stopping at the first that fails; answers the entries with
their phases, the slots, and the run's result. -/
def decodeEntries (p : Params) (index : Nat) (es : List Entry) (slots : Store Word) :
    List Entry × Store Word × Result :=
  match es with
  | [] => ([], slots, .ok)
  | e :: r =>
    match judge p index e with
    | .fail err => ({ e with phase := .failed } :: r, slots, err)
    | .commit w =>
      let slots' := match w with
        | some (h, d) => slots.put h d
        | none => slots
      let rest := decodeEntries p (index + 1) r slots'
      ({ e with phase := .committed } :: rest.1, rest.2.1, rest.2.2)

/-- The entries in use, all Submitted (R210). -/
def submitted (s : State) : List Entry := (s.swdQ.take s.swdLen).map fun e => { e with phase := .submitted }

/-- R210: the decode of the whole queue after a successful flush; the entries beyond `swd_len` are not in use. DESIGN CHOICE
(log entry 18): an entry whose capture was lost in an earlier failed flush of `execute` or `sleep` is still in use and is
decoded like any other, on free bits; R210's loop takes every entry in use, while U9 says the block decodes no lost capture. -/
def decodeQueue (s : State) : State × Result :=
  let d := decodeEntries s.params 0 (submitted s) s.slots
  ({ s with swdQ := d.1 ++ s.swdQ.drop s.swdLen, slots := d.2.1 }, d.2.2)

/-- R106, log entry 1: the captured ack field of a queue entry in use holds a given value. -/
def forceAck (answer : Option (Nat × BitVec 3)) (s : State) : State :=
  match answer with
  | none => s
  | some (i, ack) =>
    if i < s.swdLen then { s with swdQ := s.swdQ.modify i fun e => { e with raw := withAck s.params ack e.raw } } else s

/-- R216: the end of every run: the queue is empty and the sticky error clear; the result is at the result port. -/
def endRun (r : Run) : Run :=
  ({ r.1 with swdLen := 0, swdSticky := .ok, lastResult := ⟨r.2, none⟩ }, r.2)

/-- R210 to R216: `swd_run`. `answer` names one entry's captured ack where the instruction fixes it. -/
def runQueue (answer : Option (Nat × BitVec 3)) (s : State) : Run :=
  endRun <|
    if s.swdSticky = .ok then
      let t := emitIdle s.params.swdRunIdle s
      if flushOk t then decodeQueue (forceAck answer (flush t)) else (flush t, .transportError)
    else (s, s.swdSticky)

/-- R206: `grow()`: the whole of `swd_run`, then the doubling. -/
def grow (s : State) : State :=
  let r := runQueue none s
  { r.1 with swdSticky := r.2, swdCap := 2 * s.swdCap }

/-- R202: `enqueue`: growth first, then the sticky test, then the entry. -/
def enqueue (apndp : Bool) (a : BitVec 2) (wdata : Option Word) (apDelay : Nat) (dst : Option Nat) (s : State) : State :=
  let t := if s.swdCap ≤ s.swdLen then grow s else s
  if t.swdSticky = .ok then enqueueEntry apndp a wdata apDelay dst t else t

/-- R207: `swd_read`: a fresh destination slot handle, the enqueue, result OK. -/
def readOp (apndp : Bool) (a : BitVec 2) (apDelay : Nat) (s : State) : State :=
  let h := s.nextSlot
  let t := enqueue apndp a none apDelay (some h) { s with nextSlot := h + 1, lastHandle := some h }
  { t with lastResult := ⟨.ok, none⟩ }

/-- R208: `swd_write`. -/
def writeOp (apndp : Bool) (a : BitVec 2) (data : Word) (apDelay : Nat) (s : State) : State :=
  let t := enqueue apndp a (some data) apDelay none s
  { t with lastResult := ⟨.ok, none⟩ }

/-- R253: `switch_sequence`: a lookup and one event, or a fatal ConfigError with nothing emitted. -/
def switchOp (id : BitVec 3) (s : State) : State :=
  match modePattern s.params.modeSeq id with
  | some p => { emit (.bits (swdWire s.params) (some p.bits) p.bits.length .none) s with lastResult := ⟨.ok, none⟩ }
  | none => raise (.unknownSequence id) none s

end Sys2Proof.Machine
end

