-- ==== Sys2Proof/Machine/Jtag.lean ====
section
/-! DEFINITION. The JTAG operations (R163 to R180) and the commands that realise them: tags 0 to 6 on their own, `execute`
(R160), and the unassigned tags (R113). -/

namespace Sys2Proof.Machine

open Sys2Proof (TapState ScanField ScanOut JtagOp)

/-! ### The operations -/

/-- R163: `runtest(cycles, end_state)`. -/
def runtestOp (cycles : Nat) (endState : TapState) (s : State) : Run :=
  (moveUnlessThere .idle s).andThen fun s =>
    let t := clockBursts false cycles s
    moveUnlessThere endState { t with tapGoal := endState }

/-- R165: `statemove(end_state)`; RESET is always re-asserted. -/
def statemoveOp (endState : TapState) (s : State) : Run :=
  let t := { s with tapGoal := endState }
  if t.tapCur ≠ endState ∨ endState = .reset then move endState t else (t, .ok)

/-- R168: `pathmove(states)`. -/
def pathmoveOp (states : List TapState) (s : State) : Run := pathWalk states [] s

/-- R170: `tms(count, bits)`: one event of the first `count` bits, stepping the tracker when `TMS_OP_TRACKS`. -/
def tmsOp (count : Nat) (bits : List Bool) (s : State) : Run :=
  (if s.params.tmsOpTracks then clockTms (bits.take count) s else emitTms (bits.take count) s, .ok)

/-- R172: the fields without the trailing zero-length ones. -/
def liveFields (fields : List ScanField) : List ScanField :=
  (fields.reverse.dropWhile fun f => f.len == 0).reverse

/-- R174: where `n` bits of a field from offset `off` are captured. -/
def fieldCap (f : ScanField) (buf off n : Nat) : CapDest := if f.capture then .buf buf off n else .none

/-- R174: the first `n` output bits of a field, none where it has no output. -/
def fieldOut (f : ScanField) (n : Nat) : Option (List Bool) :=
  match f.out with
  | .bits b => some (b.take n)
  | .silent _ => none

/-- R172: the TDI level of a field's last bit. -/
def fieldLast (f : ScanField) : Bool :=
  match f.out with
  | .bits b => b.getLastD false
  | .silent _ => false

/-- R172: the data event of the first `n` bits of a field; no bits are no event. -/
def emitField (f : ScanField) (buf n : Nat) (s : State) : State :=
  if n = 0 then s else emit (.bits (jtagWire s.params) (fieldOut f n) n (fieldCap f buf 0 n)) s

/-- R172: every field but the last, whole, in order. -/
def emitFields (fields : List ScanField) (buf : Nat) (s : State) : State :=
  match fields with
  | [] => s
  | f :: r => emitFields r (buf + 1) (emitField f buf f.len s)

/-- R172, R173: the last field, its final bit together with the TMS that leaves the shift state. -/
def emitLastField (f : ScanField) (buf : Nat) (s : State) : State :=
  let t := emitField f buf (f.len - 1) s
  track [true] (emit (.tms [true] (fieldLast f) (fieldCap f buf (f.len - 1) 1)) t)

/-- R172, R176: from EXIT1 to IDLE through UPDATE, or to the PAUSE state and on to `end_state`. -/
def leaveExit1 (endState : TapState) (s : State) : Run :=
  moveUnlessThere endState (clockTms (if endState = .idle then [true, false] else [false]) s)

/-- R172: `scan(is_ir, fields, end_state)`. A scan of zero bits in all does nothing (R161). -/
def scanOp (isIr : Bool) (fields : List ScanField) (endState : TapState) (s : State) : Run :=
  match (liveFields fields).getLast? with
  | none => (s, .ok)
  | some last =>
    (moveShift isIr s).andThen fun s =>
      let buf := s.nextBuf
      let n := (liveFields fields).length
      let t := emitFields (liveFields fields).dropLast buf { s with tapGoal := endState, nextBuf := buf + n }
      leaveExit1 endState (emitLastField last (buf + n - 1) t)

/-- R178: `sleep(us)`: the flush first; the delay only after a successful one. -/
def sleepOp (us : Nat) (s : State) : Run :=
  (if flushOk s then emitDelay us (flush s) else flush s, if flushOk s then .ok else .transportError)

/-- R180: the cycles of `stableclocks`, with TMS 1 in RESET and 0 elsewhere. -/
def stableclocksOp (cycles : Nat) (s : State) : Run := (clockBursts (s.tapCur == .reset) cycles s, .ok)

/-- R160: realises operation `index` of an `execute` list. A `stableclocks` outside a stable state has no meaning. -/
def realise (op : JtagOp) (index : Nat) (s : State) : Except Refusal Run :=
  match op with
  | .runtest c e => .ok (runtestOp c e s)
  | .statemove e => .ok (statemoveOp e s)
  | .pathmove l => .ok (pathmoveOp l s)
  | .scan ir f e => .ok (scanOp ir f e s)
  | .tms c b => .ok (tmsOp c b s)
  | .sleep us => .ok (sleepOp us s)
  | .stableclocks c =>
    if s.tapCur.isStable then .ok (stableclocksOp c s) else .error (.stableclocksUnstable s.tapCur)
  | .other _ => .ok (s, .unknownCommand index)

/-- R160: realises the operations in list order from index `index`, stopping at the first error; answers the index where
it stopped. -/
def realiseAll (ops : List JtagOp) (index : Nat) (s : State) : Except Refusal (Run × Nat) :=
  match ops with
  | [] => .ok ((s, .ok), index)
  | op :: rest =>
    match realise op index s with
    | .error r => .error r
    | .ok run => if run.2 = .ok then realiseAll rest (index + 1) run.1 else .ok (run, index)

/-- R160: the closing flush of `execute`. -/
def closeExecute (s : State) : State := finish none (flush s, if flushOk s then .ok else .transportError)

/-! ### The commands -/

/-- Tag 0 (R163). -/
def execRuntest (cycles : Nat) (endState : TapState) (s : State) : Host.Outcome State Fault Refusal :=
  command (fun s => finish none (runtestOp cycles endState s)) s

/-- Tag 1 (R165). -/
def execStatemove (endState : TapState) (s : State) : Host.Outcome State Fault Refusal :=
  command (fun s => finish none (statemoveOp endState s)) s

/-- Tag 2 (R168). -/
def execPathmove (states : List TapState) (s : State) : Host.Outcome State Fault Refusal :=
  command (fun s => finish none (pathmoveOp states s)) s

/-- Tag 3 (R172). -/
def execScan (isIr : Bool) (fields : List ScanField) (endState : TapState) (s : State) :
    Host.Outcome State Fault Refusal :=
  command (fun s => finish none (scanOp isIr fields endState s)) s

/-- Tag 4 (R170). -/
def execTms (count : Nat) (bits : List Bool) (s : State) : Host.Outcome State Fault Refusal :=
  command (fun s => finish none (tmsOp count bits s)) s

/-- Tag 5 (R178). -/
def execSleep (us : Nat) (s : State) : Host.Outcome State Fault Refusal :=
  command (fun s => finish none (sleepOp us s)) s

/-- Tag 6 (R180): no meaning outside a stable state; R311's refusal comes first (R307). -/
def execStableclocks (cycles : Nat) (s : State) : Host.Outcome State Fault Refusal :=
  if s.fatal = false ∧ s.tapCur.isStable = false then .refused (.stableclocksUnstable s.tapCur)
  else command (fun s => finish none (stableclocksOp cycles s)) s

/-- Tag 12 (R160): the operations in order, then the closing flush; an error ends it at once, with no closing flush. -/
def execExecute (ops : List JtagOp) (s : State) : Host.Outcome State Fault Refusal :=
  if s.fatal then .next s
  else
    match realiseAll ops 0 s with
    | .error r => .refused r
    | .ok (run, index) => .next (if run.2 = .ok then closeExecute run.1 else finish (some index) run)

/-- R113: an unassigned tag at the command port is a fatal ConfigError. -/
def unknownTag (tag : Nat) (s : State) : State := raise (.unknownCommand tag) none s

def execUnassignedTag7 (s : State) : Host.Outcome State Fault Refusal := command (unknownTag 7) s
def execUnassignedTag13 (s : State) : Host.Outcome State Fault Refusal := command (unknownTag 13) s
def execUnassignedTag14 (s : State) : Host.Outcome State Fault Refusal := command (unknownTag 14) s
def execUnassignedTag15 (s : State) : Host.Outcome State Fault Refusal := command (unknownTag 15) s

end Sys2Proof.Machine
end

