-- ==== Sys2Proof/Machine/ModeSwitch.lean ====
section
/-! DEFINITION. The mode-switch command (R253) and the opcode table's sequence-id rows (R110, R115). -/

namespace Sys2Proof.Machine

/-- Tag 11 (R253). -/
def execSwitchSequence (id : BitVec 3) (s : State) : Host.Outcome State Fault Refusal := command (switchOp id) s

/-- R253: MODE_SEQ[0]. -/
def execSwitchJtagToSwd (s : State) : Host.Outcome State Fault Refusal := command (switchOp 0#3) s

/-- R253: MODE_SEQ[1]. -/
def execSwitchSwdToJtag (s : State) : Host.Outcome State Fault Refusal := command (switchOp 1#3) s

/-- R253: MODE_SEQ[2]. -/
def execSwitchJtagToDormant (s : State) : Host.Outcome State Fault Refusal := command (switchOp 2#3) s

/-- R253: MODE_SEQ[3]. -/
def execSwitchDormantToJtag (s : State) : Host.Outcome State Fault Refusal := command (switchOp 3#3) s

/-- R253: MODE_SEQ[4]. -/
def execSwitchSwdToDormant (s : State) : Host.Outcome State Fault Refusal := command (switchOp 4#3) s

/-- R253: MODE_SEQ[5]. -/
def execSwitchDormantToSwd (s : State) : Host.Outcome State Fault Refusal := command (switchOp 5#3) s

/-- R115: an unrecognised id is a fatal ConfigError. -/
def execSwitchUnrecognised6 (s : State) : Host.Outcome State Fault Refusal := command (switchOp 6#3) s

/-- R115: an unrecognised id is a fatal ConfigError. -/
def execSwitchUnrecognised7 (s : State) : Host.Outcome State Fault Refusal := command (switchOp 7#3) s

end Sys2Proof.Machine
end

