-- ==== Sys2Proof/Machine/Swd.lean ====
section
/-! DEFINITION. The SWD commands (R207, R208, R210), and the opcode table's request-byte rows and ack rows, each the use of
that value its row's rule describes: a request byte is the transaction that sends it, an ack value is a run in which one
queue entry is answered so (log entry 1). -/

namespace Sys2Proof.Machine

open Sys2Proof (Word)

/-- Tag 8 (R207). -/
def execSwdRead (apndp : Bool) (addr : BitVec 2) (apDelay : Nat) (s : State) : Host.Outcome State Fault Refusal :=
  command (readOp apndp addr apDelay) s

/-- Tag 9 (R208). -/
def execSwdWrite (apndp : Bool) (addr : BitVec 2) (data : Word) (apDelay : Nat) (s : State) :
    Host.Outcome State Fault Refusal :=
  command (writeOp apndp addr data apDelay) s

/-- Tag 10 (R210). -/
def execSwdRun (s : State) : Host.Outcome State Fault Refusal := command (fun s => (runQueue none s).1) s

/-! ### Request bytes (R103) -/

def execSwdReqDpWriteA0 (data : Word) (apDelay : Nat) (s : State) : Host.Outcome State Fault Refusal :=
  command (writeOp false 0#2 data apDelay) s

def execSwdReqDpWriteA1 (data : Word) (apDelay : Nat) (s : State) : Host.Outcome State Fault Refusal :=
  command (writeOp false 1#2 data apDelay) s

def execSwdReqDpWriteA2 (data : Word) (apDelay : Nat) (s : State) : Host.Outcome State Fault Refusal :=
  command (writeOp false 2#2 data apDelay) s

def execSwdReqDpWriteA3 (data : Word) (apDelay : Nat) (s : State) : Host.Outcome State Fault Refusal :=
  command (writeOp false 3#2 data apDelay) s

def execSwdReqDpReadA0 (apDelay : Nat) (s : State) : Host.Outcome State Fault Refusal :=
  command (readOp false 0#2 apDelay) s

def execSwdReqDpReadA1 (apDelay : Nat) (s : State) : Host.Outcome State Fault Refusal :=
  command (readOp false 1#2 apDelay) s

def execSwdReqDpReadA2 (apDelay : Nat) (s : State) : Host.Outcome State Fault Refusal :=
  command (readOp false 2#2 apDelay) s

def execSwdReqDpReadA3 (apDelay : Nat) (s : State) : Host.Outcome State Fault Refusal :=
  command (readOp false 3#2 apDelay) s

def execSwdReqApWriteA0 (data : Word) (apDelay : Nat) (s : State) : Host.Outcome State Fault Refusal :=
  command (writeOp true 0#2 data apDelay) s

def execSwdReqApWriteA1 (data : Word) (apDelay : Nat) (s : State) : Host.Outcome State Fault Refusal :=
  command (writeOp true 1#2 data apDelay) s

def execSwdReqApWriteA2 (data : Word) (apDelay : Nat) (s : State) : Host.Outcome State Fault Refusal :=
  command (writeOp true 2#2 data apDelay) s

def execSwdReqApWriteA3 (data : Word) (apDelay : Nat) (s : State) : Host.Outcome State Fault Refusal :=
  command (writeOp true 3#2 data apDelay) s

def execSwdReqApReadA0 (apDelay : Nat) (s : State) : Host.Outcome State Fault Refusal :=
  command (readOp true 0#2 apDelay) s

def execSwdReqApReadA1 (apDelay : Nat) (s : State) : Host.Outcome State Fault Refusal :=
  command (readOp true 1#2 apDelay) s

def execSwdReqApReadA2 (apDelay : Nat) (s : State) : Host.Outcome State Fault Refusal :=
  command (readOp true 2#2 apDelay) s

def execSwdReqApReadA3 (apDelay : Nat) (s : State) : Host.Outcome State Fault Refusal :=
  command (readOp true 3#2 apDelay) s

/-- R201: any request: RnW selects the read or the write. -/
def execSwdReqGeneric (apndp rnw : Bool) (addr : BitVec 2) (data : Word) (apDelay : Nat) (s : State) :
    Host.Outcome State Fault Refusal :=
  command (if rnw then readOp apndp addr apDelay else writeOp apndp addr data apDelay) s

/-! ### Ack values (R106, R117) -/

/-- R215: the entry is answered OK. -/
def execSwdAckOk (entry : Nat) (s : State) : Host.Outcome State Fault Refusal :=
  command (fun s => (runQueue (some (entry, 0b001#3)) s).1) s

/-- R217: the entry is answered WAIT. -/
def execSwdAckWait (entry : Nat) (s : State) : Host.Outcome State Fault Refusal :=
  command (fun s => (runQueue (some (entry, 0b010#3)) s).1) s

/-- R217: the entry is answered FAULT. -/
def execSwdAckFault (entry : Nat) (s : State) : Host.Outcome State Fault Refusal :=
  command (fun s => (runQueue (some (entry, 0b100#3)) s).1) s

/-- R218: the entry is answered with an ack value D0 does not name. -/
def execSwdAckOther000 (entry : Nat) (s : State) : Host.Outcome State Fault Refusal :=
  command (fun s => (runQueue (some (entry, 0b000#3)) s).1) s

/-- R218: the entry is answered with an ack value D0 does not name. -/
def execSwdAckOther011 (entry : Nat) (s : State) : Host.Outcome State Fault Refusal :=
  command (fun s => (runQueue (some (entry, 0b011#3)) s).1) s

/-- R218: the entry is answered with an ack value D0 does not name. -/
def execSwdAckOther101 (entry : Nat) (s : State) : Host.Outcome State Fault Refusal :=
  command (fun s => (runQueue (some (entry, 0b101#3)) s).1) s

/-- R218: the entry is answered with an ack value D0 does not name. -/
def execSwdAckOther110 (entry : Nat) (s : State) : Host.Outcome State Fault Refusal :=
  command (fun s => (runQueue (some (entry, 0b110#3)) s).1) s

/-- R218: the entry is answered with an ack value D0 does not name. -/
def execSwdAckOther111 (entry : Nat) (s : State) : Host.Outcome State Fault Refusal :=
  command (fun s => (runQueue (some (entry, 0b111#3)) s).1) s

end Sys2Proof.Machine
end

