-- ==== Sys2Proof/Machine/TapCodes.lean ====
section
/-! DEFINITION. The opcode table's TAP state codes (R91): each as the operand it is, a requested next state (R96), reached
by the one transition of R131 that leads there, or failing as R169 says (log entry 1). -/

namespace Sys2Proof.Machine

open Sys2Proof (TapState)

/-- R131, R168: one transition to `t`. -/
def stepTo (t : TapState) (s : State) : State := finish none (pathWalk [t] [] s)

def execTapStateReset (s : State) : Host.Outcome State Fault Refusal := command (stepTo .reset) s
def execTapStateIdle (s : State) : Host.Outcome State Fault Refusal := command (stepTo .idle) s
def execTapStateDrSelect (s : State) : Host.Outcome State Fault Refusal := command (stepTo .drSelect) s
def execTapStateDrCapture (s : State) : Host.Outcome State Fault Refusal := command (stepTo .drCapture) s
def execTapStateDrShift (s : State) : Host.Outcome State Fault Refusal := command (stepTo .drShift) s
def execTapStateDrExit1 (s : State) : Host.Outcome State Fault Refusal := command (stepTo .drExit1) s
def execTapStateDrPause (s : State) : Host.Outcome State Fault Refusal := command (stepTo .drPause) s
def execTapStateDrExit2 (s : State) : Host.Outcome State Fault Refusal := command (stepTo .drExit2) s
def execTapStateDrUpdate (s : State) : Host.Outcome State Fault Refusal := command (stepTo .drUpdate) s
def execTapStateIrSelect (s : State) : Host.Outcome State Fault Refusal := command (stepTo .irSelect) s
def execTapStateIrCapture (s : State) : Host.Outcome State Fault Refusal := command (stepTo .irCapture) s
def execTapStateIrShift (s : State) : Host.Outcome State Fault Refusal := command (stepTo .irShift) s
def execTapStateIrExit1 (s : State) : Host.Outcome State Fault Refusal := command (stepTo .irExit1) s
def execTapStateIrPause (s : State) : Host.Outcome State Fault Refusal := command (stepTo .irPause) s
def execTapStateIrExit2 (s : State) : Host.Outcome State Fault Refusal := command (stepTo .irExit2) s
def execTapStateIrUpdate (s : State) : Host.Outcome State Fault Refusal := command (stepTo .irUpdate) s

end Sys2Proof.Machine
end

