-- ==== Sys2Proof/Machine/Dispatch.lean ====
section
/-! DEFINITION. One arm per instruction. -/

namespace Sys2Proof.Machine

open Sys2Proof (Instr)

def exec (i : Instr) (s : State) : Host.Outcome State Fault Refusal :=
  match i with
  | .runtest c e => Sys2Proof.Machine.execRuntest c e s
  | .statemove e => Sys2Proof.Machine.execStatemove e s
  | .pathmove l => Sys2Proof.Machine.execPathmove l s
  | .scan ir f e => Sys2Proof.Machine.execScan ir f e s
  | .tms c b => Sys2Proof.Machine.execTms c b s
  | .sleep us => Sys2Proof.Machine.execSleep us s
  | .stableclocks c => Sys2Proof.Machine.execStableclocks c s
  | .swdRead ap a d => Sys2Proof.Machine.execSwdRead ap a d s
  | .swdWrite ap a w d => Sys2Proof.Machine.execSwdWrite ap a w d s
  | .swdRun => Sys2Proof.Machine.execSwdRun s
  | .switchSequence id => Sys2Proof.Machine.execSwitchSequence id s
  | .execute ops => Sys2Proof.Machine.execExecute ops s
  | .unassignedTag7 => Sys2Proof.Machine.execUnassignedTag7 s
  | .unassignedTag13 => Sys2Proof.Machine.execUnassignedTag13 s
  | .unassignedTag14 => Sys2Proof.Machine.execUnassignedTag14 s
  | .unassignedTag15 => Sys2Proof.Machine.execUnassignedTag15 s
  | .swdReqDpWriteA0 w d => Sys2Proof.Machine.execSwdReqDpWriteA0 w d s
  | .swdReqDpWriteA1 w d => Sys2Proof.Machine.execSwdReqDpWriteA1 w d s
  | .swdReqDpWriteA2 w d => Sys2Proof.Machine.execSwdReqDpWriteA2 w d s
  | .swdReqDpWriteA3 w d => Sys2Proof.Machine.execSwdReqDpWriteA3 w d s
  | .swdReqDpReadA0 d => Sys2Proof.Machine.execSwdReqDpReadA0 d s
  | .swdReqDpReadA1 d => Sys2Proof.Machine.execSwdReqDpReadA1 d s
  | .swdReqDpReadA2 d => Sys2Proof.Machine.execSwdReqDpReadA2 d s
  | .swdReqDpReadA3 d => Sys2Proof.Machine.execSwdReqDpReadA3 d s
  | .swdReqApWriteA0 w d => Sys2Proof.Machine.execSwdReqApWriteA0 w d s
  | .swdReqApWriteA1 w d => Sys2Proof.Machine.execSwdReqApWriteA1 w d s
  | .swdReqApWriteA2 w d => Sys2Proof.Machine.execSwdReqApWriteA2 w d s
  | .swdReqApWriteA3 w d => Sys2Proof.Machine.execSwdReqApWriteA3 w d s
  | .swdReqApReadA0 d => Sys2Proof.Machine.execSwdReqApReadA0 d s
  | .swdReqApReadA1 d => Sys2Proof.Machine.execSwdReqApReadA1 d s
  | .swdReqApReadA2 d => Sys2Proof.Machine.execSwdReqApReadA2 d s
  | .swdReqApReadA3 d => Sys2Proof.Machine.execSwdReqApReadA3 d s
  | .swdReqGeneric ap rnw a w d => Sys2Proof.Machine.execSwdReqGeneric ap rnw a w d s
  | .swdAckOk e => Sys2Proof.Machine.execSwdAckOk e s
  | .swdAckWait e => Sys2Proof.Machine.execSwdAckWait e s
  | .swdAckFault e => Sys2Proof.Machine.execSwdAckFault e s
  | .swdAckOther000 e => Sys2Proof.Machine.execSwdAckOther000 e s
  | .swdAckOther011 e => Sys2Proof.Machine.execSwdAckOther011 e s
  | .swdAckOther101 e => Sys2Proof.Machine.execSwdAckOther101 e s
  | .swdAckOther110 e => Sys2Proof.Machine.execSwdAckOther110 e s
  | .swdAckOther111 e => Sys2Proof.Machine.execSwdAckOther111 e s
  | .switchJtagToSwd => Sys2Proof.Machine.execSwitchJtagToSwd s
  | .switchSwdToJtag => Sys2Proof.Machine.execSwitchSwdToJtag s
  | .switchJtagToDormant => Sys2Proof.Machine.execSwitchJtagToDormant s
  | .switchDormantToJtag => Sys2Proof.Machine.execSwitchDormantToJtag s
  | .switchSwdToDormant => Sys2Proof.Machine.execSwitchSwdToDormant s
  | .switchDormantToSwd => Sys2Proof.Machine.execSwitchDormantToSwd s
  | .switchUnrecognised6 => Sys2Proof.Machine.execSwitchUnrecognised6 s
  | .switchUnrecognised7 => Sys2Proof.Machine.execSwitchUnrecognised7 s
  | .tapStateReset => Sys2Proof.Machine.execTapStateReset s
  | .tapStateIdle => Sys2Proof.Machine.execTapStateIdle s
  | .tapStateDrSelect => Sys2Proof.Machine.execTapStateDrSelect s
  | .tapStateDrCapture => Sys2Proof.Machine.execTapStateDrCapture s
  | .tapStateDrShift => Sys2Proof.Machine.execTapStateDrShift s
  | .tapStateDrExit1 => Sys2Proof.Machine.execTapStateDrExit1 s
  | .tapStateDrPause => Sys2Proof.Machine.execTapStateDrPause s
  | .tapStateDrExit2 => Sys2Proof.Machine.execTapStateDrExit2 s
  | .tapStateDrUpdate => Sys2Proof.Machine.execTapStateDrUpdate s
  | .tapStateIrSelect => Sys2Proof.Machine.execTapStateIrSelect s
  | .tapStateIrCapture => Sys2Proof.Machine.execTapStateIrCapture s
  | .tapStateIrShift => Sys2Proof.Machine.execTapStateIrShift s
  | .tapStateIrExit1 => Sys2Proof.Machine.execTapStateIrExit1 s
  | .tapStateIrPause => Sys2Proof.Machine.execTapStateIrPause s
  | .tapStateIrExit2 => Sys2Proof.Machine.execTapStateIrExit2 s
  | .tapStateIrUpdate => Sys2Proof.Machine.execTapStateIrUpdate s

end Sys2Proof.Machine
end

