-- ==== Sys2Proof/Machine/Step.lean ====
section
/-! DEFINITION. One step: the block takes one command record from the command port and realises it (R17). -/

namespace Sys2Proof.Machine

/-- R17, R52: with no command waiting the block waits; else the record at the front of the port is taken and run. -/
def step (s : State) : Host.Outcome State Fault Refusal :=
  match s.cmdPort with
  | [] => .next s
  | b :: bs =>
    match Sys2Proof.decode (b :: bs) with
    | .error e => .fault (.badRecord e)
    | .ok (i, rest) => exec i { s with cmdPort := rest }

/-- The state whose next step takes the given opcode-table word: the word's bytes stand at the command port. -/
def State.withFetchWord (s : State) (nbits w : Nat) : State := { s with cmdPort := Sys2Proof.tableBytes nbits w }

end Sys2Proof.Machine
end

