-- ==== Sys2Proof/Machine/Signals.lean ====
section
/-! DEFINITION. The Signal Registry as D0 gives it (R280 to R288): a neighbour of the block, out of its scope (R5), which
the spec transcribes "so that a model can stub it". No instruction reaches it, and none of it is in State: the block's own
part of it is `swdioDir` (R41, R46). Here are its four calls as functions of a registry and its shadow words. -/

namespace Sys2Proof.Machine

open Sys2Proof (Byte)

/-- R280: a signal's record. The masks select lines of a 16-line GPIO port. -/
structure Signal where
  name : String
  dataMask : BitVec 16
  inputMask : BitVec 16
  oeMask : BitVec 16
  invertData : Bool
  invertInput : Bool
  invertOe : Bool
  deriving DecidableEq, Repr

/-- R280, R286: the registry, in order of definition, and the shadow words. -/
structure Registry where
  signals : List Signal
  gpioOut : BitVec 16
  gpioDir : BitVec 16
  deriving DecidableEq, Repr

/-- R284: the level asked of a signal. -/
inductive Level where
  | low | high | tristate
  deriving DecidableEq, Repr

/-- R300: the two errors the registry raises. -/
inductive SignalError where
  | configError
  | unsupportedSignal
  deriving DecidableEq, Repr

/-- R278: a write of one byte group of the GPIO port. -/
inductive GpioWrite where
  | low (value direction : Byte)
  | high (value direction : Byte)
  deriving DecidableEq, Repr

/-- R278: the two reads of the GPIO port. -/
inductive GpioRead where
  | low | high
  deriving DecidableEq, Repr

/-- The low and the high byte group of a 16-line word (R278, R280). -/
def lowByte (w : BitVec 16) : Byte := w.extractLsb' 0 8
def highByte (w : BitVec 16) : Byte := w.extractLsb' 8 8

/-- R278: `read_gpio_low()` and `read_gpio_high()`: a byte group as sampled; `lines` is the level of each line when its group
is sampled, an input. -/
def readGpio (lines : BitVec 16) : GpioRead → Byte
  | .low => lowByte lines
  | .high => highByte lines

/-- R285: the reads a mask requires: a byte group in which it selects a line. The order, low before high, is the model's
choice (log entry 13). -/
def gpioReads (mask : BitVec 16) : List GpioRead :=
  (if lowByte mask = 0 then [] else [.low]) ++ (if highByte mask = 0 then [] else [.high])

/-- R285: the word the reads make; a group that was not read counts as 0, which no masked word shows. -/
def gpioSample (reads : List GpioRead) (lines : BitVec 16) : BitVec 16 :=
  (if reads.contains .high then readGpio lines .high else 0) ++ (if reads.contains .low then readGpio lines .low else 0)

/-- Free value (R284, U15): the shadow words D0 does not say how to compute. -/
opaque shadowValue : Signal → Level → BitVec 16 → BitVec 16 → BitVec 16 × BitVec 16

namespace Registry

/-- The signal of a name; names are case-sensitive. -/
def find (r : Registry) (name : String) : Option Signal := r.signals.find? fun s => s.name == name

/-- R282: `define` "creates or overwrites a signal"; overwriting keeps the name's place. -/
def define (sig : Signal) (r : Registry) : Registry :=
  if (r.find sig.name).isSome then { r with signals := r.signals.map fun s => if s.name = sig.name then sig else s }
  else { r with signals := r.signals ++ [sig] }

/-- R283: `define` with an alias source: its masks, its data and input inversions XORed with the call's, the call's OE
inversion. -/
def defineAlias (name source : String) (invertData invertInput invertOe : Bool) (r : Registry) :
    Except SignalError Registry :=
  match r.find source with
  | none => .error .configError
  | some s =>
    .ok (r.define
      { s with name := name, invertData := s.invertData ^^ invertData
               invertInput := s.invertInput ^^ invertInput, invertOe := invertOe })

/-- R284: the new shadow words: free inside `data_mask | oe_mask`, unchanged outside it. -/
def shadowUpdate (sig : Signal) (level : Level) (r : Registry) : BitVec 16 × BitVec 16 :=
  let m := sig.dataMask ||| sig.oeMask
  let v := shadowValue sig level r.gpioOut r.gpioDir
  ((r.gpioOut &&& ~~~m) ||| (v.1 &&& m), (r.gpioDir &&& ~~~m) ||| (v.2 &&& m))

/-- R284: a GPIO call for each byte group whose output or direction byte changed. DESIGN CHOICE (log entry 13): R284 gives
the condition of each call and no order of the two; here `set_gpio_low` comes before `set_gpio_high`. -/
def gpioWrites (old new : BitVec 16 × BitVec 16) : List GpioWrite :=
  let lo (p : BitVec 16 × BitVec 16) : Byte × Byte := (lowByte p.1, lowByte p.2)
  let hi (p : BitVec 16 × BitVec 16) : Byte × Byte := (highByte p.1, highByte p.2)
  (if lo old = lo new then [] else [.low (lo new).1 (lo new).2])
    ++ (if hi old = hi new then [] else [.high (hi new).1 (hi new).2])

/-- R281, R284: `set(name, level)`. -/
def set (name : String) (level : Level) (r : Registry) : Except SignalError (Registry × List GpioWrite) :=
  match r.find name with
  | none => .error .configError
  | some sig =>
    if level = .high ∧ sig.dataMask = 0 then .error .unsupportedSignal
    else if level = .tristate ∧ sig.oeMask = 0 then .error .unsupportedSignal
    else
      let p := r.shadowUpdate sig level
      .ok ({ r with gpioOut := p.1, gpioDir := p.2 }, gpioWrites (r.gpioOut, r.gpioDir) p)

/-- R281, R285: `get(name)`, with the reads it issues: those its input mask requires, then the input inversion, then the
mask. The value is the masked word (U23, log entry 13). -/
def get (name : String) (lines : BitVec 16) (r : Registry) : Except SignalError (BitVec 16 × List GpioRead) :=
  match r.find name with
  | none => .error .configError
  | some sig =>
    if sig.inputMask = 0 then .error .unsupportedSignal
    else
      let reads := gpioReads sig.inputMask
      let sample := gpioSample reads lines
      .ok ((if sig.invertInput then ~~~sample else sample) &&& sig.inputMask, reads)

end Registry

end Sys2Proof.Machine
end

