-- ==== Sys2Proof/Safety.lean ====
section
/-! DEFINITION. What claims speak in: the invariants of the machine, the batch a trace leaves pending, the TMS cycles on
the wire, and which instructions belong to which side of the block. -/

namespace Sys2Proof.Machine

open Sys2Proof (Byte Word TapState Instr JtagOp Params)

/-! ### Invariants -/

/-- R103: the sixteen request bytes. -/
def requestBytes : List Byte :=
  [0x81#8, 0xA9#8, 0xB1#8, 0x99#8, 0xA5#8, 0x8D#8, 0x95#8, 0xBD#8,
   0xA3#8, 0x8B#8, 0x93#8, 0xBB#8, 0x87#8, 0xAF#8, 0xB7#8, 0x9F#8]

/-- R37: an entry's fields agree: its request byte is one the block builds (R116), `is_read` is its RnW bit, a read has a
slot and no data word, a write the reverse, and `raw` has the length of R104 and R105, 38 with `TRN_CYCLES` = 1. -/
def Entry.wf (p : Params) (e : Entry) : Bool :=
  requestBytes.contains e.cmd && e.isRead == Request.rnw e.cmd && e.dst.isSome == e.isRead
    && e.wdata.isNone == e.isRead && e.raw.length == readFrameLen p

/-- R36, R38, R40: the shape of the SWD queue between commands: `swd_len <= swd_cap`, `swd_cap >= 1`, every entry in use is
there, well formed and still Pending, and a sticky error means an empty queue. -/
structure QueueInv (s : State) : Prop where
  len_le_cap : s.swdLen ≤ s.swdCap
  cap_pos : 1 ≤ s.swdCap
  array_le_cap : s.swdQ.length ≤ s.swdCap
  in_array : s.swdLen ≤ s.swdQ.length
  entries : ∀ e ∈ s.swdQ, e.wf s.params = true
  in_use_pending : ∀ e ∈ s.swdQ.take s.swdLen, e.phase = .pending
  sticky_empty : s.swdSticky ≠ .ok → s.swdLen = 0
  caps_in_use : ∀ e ∈ s.pending, ∀ i n, e.cap = .raw i n → i < s.swdLen ∧ n ≤ readFrameLen s.params

/-- The canonical form of what the block writes outside itself: destination slots and scan capture buffers. -/
def Memory.wf (s : State) : Bool := s.slots.wf && capturedWf s.captured

/-- R303, R310, R311: the `fatal` latch is set exactly while the result port holds an error of the fatal set; the sticky
error is never of that set. -/
def LatchInv (s : State) : Prop := s.fatal = s.lastResult.result.isFatal ∧ s.swdSticky.isFatal = false

/-- Whether an event is a delay. -/
def Event.isDelay : Event → Bool
  | .delay _ => true
  | .tms _ _ _ => false
  | .bits _ _ _ _ => false
  | .dir _ | .flush => false

/-- R277: the events of a trace after its last `FLUSH`; a `DELAY` is no Transport event (R270). -/
def batchOf (trace : List Event) : List Event :=
  ((trace.reverse.takeWhile fun e => e != .flush).reverse).filter fun e => !e.isDelay

/-- R45, R277: the pending batch is what was emitted since the last flush. -/
def BatchInv (s : State) : Prop := s.pending = batchOf s.trace

/-! ### The wire -/

/-- R271, R272: the TMS levels an event clocks into a target that listens to JTAG: its bits, or 0 during scan data. -/
def Event.tmsLevels : Event → List Bool
  | .tms levels _ _ => levels
  | .bits (.jtag _) _ n _ => List.replicate n false
  | .bits (.swd _) _ _ _ => []
  | .dir _ | .flush | .delay _ => []

/-- The TMS levels of events, in order. -/
def tmsWire (es : List Event) : List Bool := es.flatMap Event.tmsLevels

/-! ### What a command emits, in closed form -/

/-- The state after emitting a list of Transport events. -/
def emitAll (es : List Event) (s : State) : State := { s with trace := s.trace ++ es, pending := s.pending ++ es }

/-- The TMS event of some bits, TDI 0 and no capture; none for no bits (R65, R271). -/
def tmsEvents (bits : List Bool) : List Event := if bits = [] then [] else [.tms bits false .none]

/-- R162: `cycles` cycles at one level: full bursts of `m`, then the rest, if there is one. -/
def burstEvents (m : Nat) (level : Bool) (cycles : Nat) : List Event :=
  List.replicate (cycles / m) (.tms (List.replicate m level) false .none)
    ++ (if cycles % m = 0 then [] else [.tms (List.replicate (cycles % m) level) false .none])

/-- R273: the event of `k` idle cycles; none for no cycles. -/
def idleEvents (p : Params) (k : Nat) : List Event :=
  if k = 0 then [] else [.bits (swdWire p) (some (List.replicate k false)) k .none]

/-- R212: the `SWD_RUN_IDLE` idle cycles of a run, 8 by the spec's value. -/
def runIdleEvents (p : Params) : List Event := idleEvents p p.swdRunIdle

/-- The states passed on a walk of TMS bits, the start left out. -/
def walkStates : TapState → List Bool → List TapState
  | _, [] => []
  | t, b :: r => tapNext t b :: walkStates (tapNext t b) r

/-- R168: bits cut into bursts of `m`, all full but the last, none empty. -/
structure Bursts (m : Nat) (bits : List Bool) (bursts : List (List Bool)) : Prop where
  joined : bursts.flatten = bits
  full : ∀ b ∈ bursts.dropLast, b.length = m
  last : ∀ b ∈ bursts, b ≠ [] ∧ b.length ≤ m

/-- The TMS events of bursts. -/
def burstsToEvents (bursts : List (List Bool)) : List Event := bursts.map fun b => .tms b false .none

/-- R172: the data event of the first `n` bits of a field that captures to buffer `buf`; none for no bits. -/
def dataEvents (p : Params) (f : ScanField) (buf n : Nat) : List Event :=
  if n = 0 then []
  else
    [.bits (jtagWire p) (match f.out with | .bits b => some (b.take n) | .silent _ => none) n
      (if f.capture then .buf buf 0 n else .none)]

/-- R172: the data events of whole fields, their buffers numbered from `buf` up. -/
def fieldsEvents (p : Params) : List ScanField → Nat → List Event
  | [], _ => []
  | f :: r, buf => dataEvents p f buf f.len ++ fieldsEvents p r (buf + 1)

/-- R172, R173: the events of the last field: its bits but one, then that one together with TMS = 1. -/
def lastFieldEvents (p : Params) (f : ScanField) (buf : Nat) : List Event :=
  dataEvents p f buf (f.len - 1) ++
    [.tms [true] (match f.out with | .bits b => b.getLastD false | .silent _ => false)
      (if f.capture then .buf buf (f.len - 1) 1 else .none)]

/-- R176: the pause state of a register. -/
def pauseState (isIr : Bool) : TapState := if isIr then .irPause else .drPause

/-- R173: the cycles of a walk spent in state `q`: those clocked while the TAP is in it. -/
def dwell (q : TapState) : TapState → List Bool → Nat
  | _, [] => 0
  | t, b :: r => (if t = q then 1 else 0) + dwell q (tapNext t b) r

/-- The bits of a list of fields in all. -/
def totalBits (fields : List ScanField) : Nat := (fields.map ScanField.len).sum

/-- R160: the operations, each as a command on its own, complete one after another and lead from `s` to `t`. -/
def OkChain : List JtagOp → State → State → Prop
  | [], s, t => t = s
  | op :: ops, s, t =>
    ∃ i u, Instr.ofOp op = some i ∧ exec i s = .next u ∧ u.lastResult.result = .ok ∧ OkChain ops u t

/-- An operation that completes from a stable state and leaves the TAP in one, whatever its other operands. -/
def opReady : JtagOp → Bool
  | .runtest _ e => e.isStable
  | .statemove e => e.isStable
  | .scan _ _ e => e.isStable
  | .sleep _ => true
  | .stableclocks _ => true
  | .pathmove _ => false
  | .tms _ _ => false
  | .other _ => false

/-- Whether an operation is a sleep: the only one that flushes (R74). -/
def opIsSleep : JtagOp → Bool
  | .sleep _ => true
  | .runtest _ _ | .statemove _ | .pathmove _ | .scan _ _ _ | .tms _ _ | .stableclocks _ | .other _ => false

/-! ### SWD transactions, in closed form -/

/-- R202: an enqueue may go on at once: the latch and the sticky error are clear and the queue has room. -/
structure Room (s : State) : Prop where
  not_fatal : s.fatal = false
  not_sticky : s.swdSticky = .ok
  room : s.swdLen < s.swdCap

/-- R203: the state after a read of request byte `cmd` is enqueued, `idle` cycles after it; `raw` is what the new entry's
buffer holds before the capture. -/
def enqueuedRead (cmd : Byte) (idle : Nat) (raw : List Bool) (s : State) : State :=
  let mode := swdWire s.params
  let n := readFrameLen s.params
  { emitAll ([.bits mode (some (wireOf cmd)) 8 .none, .dir .float, .bits mode none n (.raw s.swdLen n), .dir .drive]
      ++ idleEvents s.params idle) s with
    swdQ := s.swdQ.take s.swdLen
      ++ { cmd, isRead := true, wdata := none, dst := some s.nextSlot, raw, phase := .pending }
      :: s.swdQ.drop (s.swdLen + 1)
    swdLen := s.swdLen + 1
    swdioDir := .drive
    nextSlot := s.nextSlot + 1
    lastHandle := some s.nextSlot
    freeCtr := s.freeCtr + readFrameLen s.params
    lastResult := ⟨.ok, none⟩ }

/-- R204: the state after a write is enqueued. -/
def enqueuedWrite (cmd : Byte) (data : Word) (idle : Nat) (raw : List Bool) (s : State) : State :=
  let mode := swdWire s.params
  let n := writeFrameLen s.params
  { emitAll ([.bits mode (some (wireOf cmd)) 8 .none, .dir .float, .bits mode none n (.raw s.swdLen n), .dir .drive,
      .bits mode (some (wireOf data ++ [parity data])) 33 .none] ++ idleEvents s.params idle) s with
    swdQ := s.swdQ.take s.swdLen
      ++ { cmd, isRead := false, wdata := some data, dst := none, raw, phase := .pending }
      :: s.swdQ.drop (s.swdLen + 1)
    swdLen := s.swdLen + 1
    swdioDir := .drive
    freeCtr := s.freeCtr + readFrameLen s.params
    lastResult := ⟨.ok, none⟩ }

/-- R105: the `raw` buffer of a new write holds its payload above the captured frame, from offset 5 with `TRN_CYCLES` = 1. -/
def IsWriteRaw (p : Params) (data : Word) (raw : List Bool) : Prop :=
  raw.length = readFrameLen p ∧ raw.drop (writeFrameLen p) = wireOf data ++ [parity data]

/-- An instruction that enqueues a read: its APnDP bit, address and AP delay. -/
def asRead : Instr → Option (Bool × BitVec 2 × Nat)
  | .swdRead ap a d => some (ap, a, d)
  | .swdReqDpReadA0 d => some (false, 0, d)
  | .swdReqDpReadA1 d => some (false, 1, d)
  | .swdReqDpReadA2 d => some (false, 2, d)
  | .swdReqDpReadA3 d => some (false, 3, d)
  | .swdReqApReadA0 d => some (true, 0, d)
  | .swdReqApReadA1 d => some (true, 1, d)
  | .swdReqApReadA2 d => some (true, 2, d)
  | .swdReqApReadA3 d => some (true, 3, d)
  | .swdReqGeneric ap true a _ d => some (ap, a, d)
  | _ => none

/-- An instruction that enqueues a write: its APnDP bit, address, data word and AP delay. -/
def asWrite : Instr → Option (Bool × BitVec 2 × Word × Nat)
  | .swdWrite ap a w d => some (ap, a, w, d)
  | .swdReqDpWriteA0 w d => some (false, 0, w, d)
  | .swdReqDpWriteA1 w d => some (false, 1, w, d)
  | .swdReqDpWriteA2 w d => some (false, 2, w, d)
  | .swdReqDpWriteA3 w d => some (false, 3, w, d)
  | .swdReqApWriteA0 w d => some (true, 0, w, d)
  | .swdReqApWriteA1 w d => some (true, 1, w, d)
  | .swdReqApWriteA2 w d => some (true, 2, w, d)
  | .swdReqApWriteA3 w d => some (true, 3, w, d)
  | .swdReqGeneric ap false a w d => some (ap, a, w, d)
  | _ => none

/-- An ack row of the opcode table: its entry and its ack value. -/
def asAck : Instr → Option (Nat × BitVec 3)
  | .swdAckOther000 e => some (e, 0b000)
  | .swdAckOk e => some (e, 0b001)
  | .swdAckWait e => some (e, 0b010)
  | .swdAckOther011 e => some (e, 0b011)
  | .swdAckFault e => some (e, 0b100)
  | .swdAckOther101 e => some (e, 0b101)
  | .swdAckOther110 e => some (e, 0b110)
  | .swdAckOther111 e => some (e, 0b111)
  | _ => none

/-- The TAP state row of a state (R91). -/
def tapRow : TapState → Instr
  | .reset => .tapStateReset
  | .idle => .tapStateIdle
  | .drSelect => .tapStateDrSelect
  | .drCapture => .tapStateDrCapture
  | .drShift => .tapStateDrShift
  | .drExit1 => .tapStateDrExit1
  | .drPause => .tapStateDrPause
  | .drExit2 => .tapStateDrExit2
  | .drUpdate => .tapStateDrUpdate
  | .irSelect => .tapStateIrSelect
  | .irCapture => .tapStateIrCapture
  | .irShift => .tapStateIrShift
  | .irExit1 => .tapStateIrExit1
  | .irPause => .tapStateIrPause
  | .irExit2 => .tapStateIrExit2
  | .irUpdate => .tapStateIrUpdate

/-- R210: an entry passes its checks: its ack is OK and, of a read, its parity is right; or its ack is ignored. -/
def Passes (p : Params) (e : Entry) : Prop :=
  (rawAck p e.raw = 0b001#3 ∧ (e.isRead = true → rawParity p e.raw = parity (rawData p e.raw)))
    ∨ (rawAck p e.raw ≠ 0b001#3 ∧ ackIgnored p e.cmd = true)

/-- R217, R218, R220: the error of entry `k` where it does not pass. -/
def entryError (p : Params) (k : Nat) (e : Entry) : Result :=
  if rawAck p e.raw = 0b001#3 then .dataIntegrity k
  else if rawAck p e.raw = 0b010#3 then .ackWait k
  else .ackFault k (rawAck p e.raw)

/-- R215: the destination slots after entries are committed in order: each OK read writes its data word to its slot. -/
def commits (p : Params) (es : List Entry) (slots : Store Word) : Store Word :=
  es.foldl
    (fun m e =>
      if e.isRead = true ∧ rawAck p e.raw = 0b001#3 then
        match e.dst with
        | some h => m.put h (rawData p e.raw)
        | none => m
      else m)
    slots

/-- R37: what a queue entry holds beside its `raw` buffer. -/
def Entry.request (e : Entry) : Byte × Bool × Option Word × Option Nat × Phase := (e.cmd, e.isRead, e.wdata, e.dst, e.phase)

/-- Entries in a given phase. -/
def withPhase (ph : Phase) (es : List Entry) : List Entry := es.map fun e => { e with phase := ph }

/-- R212: the state in which a run decodes: the idle cycles emitted, then the flush. -/
def afterRunFlush (s : State) : State := flush (emitAll (runIdleEvents s.params) s)

/-- R210, R216: the state after a run that decoded entries `q` up to `k` and reports `r`; the entries above `k` are
discarded undecoded, and those beyond the queue's length are as they were. -/
def runStopped (q : List Entry) (k : Nat) (r : Result) (u : State) : State :=
  { u with
    swdQ := withPhase .committed (q.take k) ++ withPhase .failed ((q.drop k).take 1)
      ++ withPhase .submitted (q.drop (k + 1)) ++ u.swdQ.drop u.swdLen
    slots := commits u.params (q.take k) u.slots
    swdLen := 0
    swdSticky := .ok
    lastResult := ⟨r, none⟩ }

/-! ### The sides of the block -/

/-- R181: the commands of the JTAG side: tags 0 to 6, `execute`, and the TAP state rows. -/
def isJtag : Instr → Bool
  | .runtest _ _ | .statemove _ | .pathmove _ | .scan _ _ _ | .tms _ _ | .sleep _ | .stableclocks _ => true
  | .execute _ => true
  | .tapStateReset | .tapStateIdle | .tapStateDrSelect | .tapStateDrCapture => true
  | .tapStateDrShift | .tapStateDrExit1 | .tapStateDrPause | .tapStateDrExit2 => true
  | .tapStateDrUpdate | .tapStateIrSelect | .tapStateIrCapture | .tapStateIrShift => true
  | .tapStateIrExit1 | .tapStateIrPause | .tapStateIrExit2 | .tapStateIrUpdate => true
  | .swdRead _ _ _ | .swdWrite _ _ _ _ | .swdRun | .switchSequence _ => false
  | .unassignedTag7 | .unassignedTag13 | .unassignedTag14 | .unassignedTag15 => false
  | .swdReqDpWriteA0 _ _ | .swdReqDpWriteA1 _ _ | .swdReqDpWriteA2 _ _ | .swdReqDpWriteA3 _ _ => false
  | .swdReqDpReadA0 _ | .swdReqDpReadA1 _ | .swdReqDpReadA2 _ | .swdReqDpReadA3 _ => false
  | .swdReqApWriteA0 _ _ | .swdReqApWriteA1 _ _ | .swdReqApWriteA2 _ _ | .swdReqApWriteA3 _ _ => false
  | .swdReqApReadA0 _ | .swdReqApReadA1 _ | .swdReqApReadA2 _ | .swdReqApReadA3 _ => false
  | .swdReqGeneric _ _ _ _ _ => false
  | .swdAckOk _ | .swdAckWait _ | .swdAckFault _ | .swdAckOther000 _ => false
  | .swdAckOther011 _ | .swdAckOther101 _ | .swdAckOther110 _ | .swdAckOther111 _ => false
  | .switchJtagToSwd | .switchSwdToJtag | .switchJtagToDormant | .switchDormantToJtag => false
  | .switchSwdToDormant | .switchDormantToSwd | .switchUnrecognised6 | .switchUnrecognised7 => false

end Sys2Proof.Machine
end

