-- ==== Sys2Proof/Certificates/Slice0/Obligations.lean ====
section
/-! DEFINITION. The statements for the provers. Unless a docstring says otherwise a state `s` is any state, reached by a run
or not; a command is taken with the `fatal` latch clear, since `RefusedWhileFatal` says what happens with it set. Equations
between whole states are frames: every field they do not name is unchanged, the memory of slots and capture buffers, the
parameters and the inputs among them. Where they name `freeCtr`, that is the model's own counter of free values (log entries
5, 6). -/

open Sys2Proof Sys2Proof.Machine

/-! ### The TAP tracker -/

/-- R131: the state reached from each of the sixteen states, in code order, with TMS 0 and with TMS 1. -/
def Obligations.TransitionTable : Prop :=
  TapState.all.map (fun t => (tapNext t false, tapNext t true)) =
    [(.idle, .reset), (.idle, .drSelect), (.drCapture, .irSelect), (.drShift, .drExit1), (.drShift, .drExit1),
     (.drPause, .drUpdate), (.drPause, .drExit2), (.drShift, .drUpdate), (.idle, .drSelect), (.irCapture, .reset),
     (.irShift, .irExit1), (.irShift, .irExit1), (.irPause, .irUpdate), (.irPause, .irExit2), (.irShift, .irUpdate),
     (.idle, .drSelect)]

/-- R133 (a), (b), (c): the self-loops; at most one TMS level reaches a next state; five or more cycles with TMS = 1 end in
RESET, and four are not enough. -/
def Obligations.TransitionFacts : Prop :=
  (∀ t b, tapNext t b = t ↔
    (t, b) ∈ [(TapState.reset, true), (.idle, false), (.drShift, false), (.drPause, false), (.irShift, false),
      (.irPause, false)])
    ∧ (∀ t, tapNext t false ≠ tapNext t true)
    ∧ (∀ t n, 5 ≤ n → tapWalk t (List.replicate n true) = .reset)
    ∧ tapWalk .drShift (List.replicate 4 true) ≠ .reset

/-- R134, R138 (a), (b): `path` answers exactly between path states; its bits, at most `PATH_MAX` whatever value of 7 or more
that has, lead to the goal and pass through RESET only where that is the goal. -/
def Obligations.PathReachesGoal : Prop :=
  ∀ (p : Params) (a b : TapState),
    ((path a b).isSome = true ↔ a.isPath = true ∧ b.isPath = true)
      ∧ ∀ l, path a b = some l →
        tapWalk a l = b ∧ l.length ≤ p.pathMax ∧ (TapState.reset ∈ walkStates a l → b = .reset)

/-- R136, R137: between two different path states `path` is the one shortest TMS sequence there is; from RESET to RESET it
is five ones and from any other path state to itself empty. -/
def Obligations.PathIsShortest : Prop :=
  (∀ (a b : TapState) (l : List Bool), path a b = some l → a ≠ b →
    ∀ m : List Bool, tapWalk a m = b → l.length ≤ m.length ∧ (m.length = l.length → m = l))
    ∧ path .reset .reset = some [true, true, true, true, true]
    ∧ ∀ a : TapState, a.isPath = true → a ≠ .reset → path a a = some []

/-! ### JTAG commands. Tags 0 to 6 presented on their own realise their operation and report OK (log entry 3) -/

/-- R163, R94, R135, R307: `runtest` moves to IDLE, clocks its cycles in bursts and moves to `end_state`; from a state that
is no path state it fails before any event; with an `end_state` that is not stable it fails after its cycles, in IDLE. -/
def Obligations.Runtest : Prop :=
  ∀ (c : Nat) (e : TapState) (s : State), s.fatal = false →
    (∀ p q, path s.tapCur .idle = some p → e.isStable = true → path .idle e = some q →
      exec (.runtest c e) s = .next
        { emitAll (tmsEvents p ++ burstEvents s.params.tmsBurstMax false c ++ tmsEvents q) s with
          tapCur := e, tapGoal := e, lastResult := ⟨.ok, none⟩ })
    ∧ (s.tapCur.isPath = false →
      exec (.runtest c e) s = .next { s with lastResult := ⟨.invalidTransition s.tapCur .idle, none⟩, fatal := true })
    ∧ ∀ p, path s.tapCur .idle = some p → e.isStable = false →
      exec (.runtest c e) s = .next
        { emitAll (tmsEvents p ++ burstEvents s.params.tmsBurstMax false c) s with
          tapCur := .idle, tapGoal := e, lastResult := ⟨.invalidTransition .idle e, none⟩, fatal := true }

/-- R165, R139: `statemove` is one move, and nothing where the TAP is there already, be that state stable or not; RESET is
always re-asserted. Elsewhere than to a stable state, or from a state that is no path state, it fails before any event,
with the goal written. -/
def Obligations.Statemove : Prop :=
  ∀ (e : TapState) (s : State), s.fatal = false →
    (∀ p, s.tapCur ≠ e ∨ e = .reset → e.isStable = true → path s.tapCur e = some p →
      exec (.statemove e) s = .next
        { emitAll (tmsEvents p) s with tapCur := e, tapGoal := e, lastResult := ⟨.ok, none⟩ })
    ∧ (s.tapCur = e → e ≠ .reset →
      exec (.statemove e) s = .next { s with tapGoal := e, lastResult := ⟨.ok, none⟩ })
    ∧ (s.tapCur ≠ e → e.isStable = false ∨ s.tapCur.isPath = false →
      exec (.statemove e) s = .next
        { s with tapGoal := e, lastResult := ⟨.invalidTransition s.tapCur e, none⟩, fatal := true })

/-- R346, R137: `statemove RESET` with the tracker in RESET clocks five ones, and these bring a TAP to RESET from any
state it is in. -/
def Obligations.TapResetResynchronises : Prop :=
  ∀ (s : State), s.fatal = false → s.tapCur = .reset →
    ∃ levels : List Bool,
      exec (.statemove .reset) s = .next
        { emitAll [.tms levels false .none] s with tapGoal := .reset, lastResult := ⟨.ok, none⟩ }
      ∧ levels = List.replicate 5 true ∧ ∀ target : TapState, tapWalk target levels = .reset

/-- R168: `pathmove` along any walk of the TMS levels `l` clocks exactly these, in bursts of `TMS_BURST_MAX`, and ends
where iterated `step` ends. -/
def Obligations.PathmoveCompletes : Prop :=
  ∀ (l : List Bool) (s : State), s.fatal = false →
    ∃ bursts : List (List Bool), Bursts s.params.tmsBurstMax l bursts
      ∧ exec (.pathmove (walkStates s.tapCur l)) s = .next
        { emitAll (burstsToEvents bursts) s with
          tapCur := tapWalk s.tapCur l, tapGoal := tapWalk s.tapCur l, lastResult := ⟨.ok, none⟩ }

/-- R168, R169: at an element that neither TMS level reaches `pathmove` fails: the full bursts before it were emitted, the
partial one was not, and `tap_cur` and `tap_goal` hold values nothing is said of. -/
def Obligations.PathmoveFails : Prop :=
  ∀ (l : List Bool) (t : TapState) (rest : List TapState) (s : State), s.fatal = false →
    (∀ b, tapNext (tapWalk s.tapCur l) b ≠ t) →
    ∃ (full : List (List Bool)) (tail : List Bool) (c g : TapState),
      l = full.flatten ++ tail ∧ (∀ b ∈ full, b.length = s.params.tmsBurstMax) ∧ tail.length < s.params.tmsBurstMax
      ∧ exec (.pathmove (walkStates s.tapCur l ++ t :: rest)) s = .next
        { emitAll (burstsToEvents full) s with
          tapCur := c, tapGoal := g, freeCtr := s.freeCtr + 2, fatal := true
          lastResult := ⟨.invalidTransition (tapWalk s.tapCur l) t, none⟩ }

/-- R170: `tms` clocks its bits as one event, whatever they are, and steps the tracker when `TMS_OP_TRACKS`. -/
def Obligations.TmsCompletes : Prop :=
  ∀ (bits : List Bool) (s : State), s.fatal = false →
    exec (.tms bits.length bits) s = .next
      { emitAll (tmsEvents bits) s with
        tapCur := if s.params.tmsOpTracks = true then tapWalk s.tapCur bits else s.tapCur
        lastResult := ⟨.ok, none⟩ }

/-- R172, R173, R174, R176: a `scan` of at least one bit to a stable state: the move to the shift state, the fields in
order, the last bit with TMS = 1, then IDLE through UPDATE, or the PAUSE state and from there the way to `end_state`.
Trailing empty fields change nothing. That the buffers are numbered from `nextBuf` is the model's (log entry 9). -/
def Obligations.ScanCompletes : Prop :=
  ∀ (ir : Bool) (pre : List ScanField) (f : ScanField) (post : List ScanField) (e : TapState) (s : State)
    (p q : List Bool),
    s.fatal = false → path s.tapCur (shiftState ir) = some p → 0 < f.len → (∀ g ∈ post, g.len = 0) →
    e.isStable = true → path (pauseState ir) e = some q →
    exec (.scan ir (pre ++ f :: post) e) s = .next
      { emitAll (tmsEvents p ++ fieldsEvents s.params pre s.nextBuf ++ lastFieldEvents s.params f (s.nextBuf + pre.length)
          ++ (if e = .idle then [.tms [true, false] false .none] else .tms [false] false .none :: tmsEvents q)) s with
        tapCur := e, tapGoal := e, nextBuf := s.nextBuf + pre.length + 1, lastResult := ⟨.ok, none⟩ }

/-- R172, R114, R307: a `scan` of at least one bit from a state that is no path state fails before any event; one whose
`end_state` is not stable shifts all its data, ends in the PAUSE state and then fails. Trailing empty fields change nothing.
That the buffers are numbered from `nextBuf`, which counts the fields up to the last one of some length, is the model's (log
entry 9). -/
def Obligations.ScanFails : Prop :=
  ∀ (ir : Bool) (pre : List ScanField) (f : ScanField) (post : List ScanField) (e : TapState) (s : State),
    s.fatal = false → 0 < f.len → (∀ g ∈ post, g.len = 0) →
    (s.tapCur.isPath = false →
      exec (.scan ir (pre ++ f :: post) e) s = .next
        { s with lastResult := ⟨.invalidTransition s.tapCur (shiftState ir), none⟩, fatal := true })
    ∧ ∀ p, path s.tapCur (shiftState ir) = some p → e.isStable = false →
      exec (.scan ir (pre ++ f :: post) e) s = .next
        { emitAll (tmsEvents p ++ fieldsEvents s.params pre s.nextBuf ++ lastFieldEvents s.params f (s.nextBuf + pre.length)
            ++ [.tms [false] false .none]) s with
          tapCur := pauseState ir, tapGoal := e, nextBuf := s.nextBuf + pre.length + 1, fatal := true
          lastResult := ⟨.invalidTransition (pauseState ir) e, none⟩ }

/-- R161, D41: a `scan` of zero bits emits nothing and changes no state, in any state and with any `end_state`. -/
def Obligations.ScanOfZeroBits : Prop :=
  ∀ (ir : Bool) (fields : List ScanField) (e : TapState) (s : State),
    s.fatal = false → totalBits fields = 0 →
    exec (.scan ir fields e) s = .next { s with lastResult := ⟨.ok, none⟩ }

/-- R173: a scan that completes clocks as many cycles in its shift state as its fields have bits, and no more. -/
def Obligations.ScanShiftsEachBitOnce : Prop :=
  ∀ (ir : Bool) (fields : List ScanField) (e : TapState) (s t : State),
    s.fatal = false → exec (.scan ir fields e) s = .next t → t.fatal = false →
    ∃ evs, t.trace = s.trace ++ evs ∧ dwell (shiftState ir) s.tapCur (tmsWire evs) = totalBits fields

/-- R178: `sleep` flushes first; the delay follows a successful flush, and after a failed one there is none. -/
def Obligations.SleepCompletes : Prop :=
  ∀ (us : Nat) (s : State), s.fatal = false →
    (flushOk s = true →
      exec (.sleep us) s = .next
        { flush s with trace := s.trace ++ [.flush, .delay us], lastResult := ⟨.ok, none⟩ })
    ∧ (flushOk s = false →
      exec (.sleep us) s = .next
        { flush s with trace := s.trace ++ [.flush], lastResult := ⟨.transportError, none⟩ })

/-- R180, U5: in a stable state `stableclocks` clocks its cycles in bursts, TMS 1 in RESET and 0 elsewhere, and changes no
other state; outside one the spec gives it no meaning, and the model refuses it, on its own and inside `execute`. -/
def Obligations.Stableclocks : Prop :=
  ∀ (c : Nat) (s : State), s.fatal = false →
    (s.tapCur.isStable = true →
      exec (.stableclocks c) s = .next
        { emitAll (burstEvents s.params.tmsBurstMax (decide (s.tapCur = .reset)) c) s with lastResult := ⟨.ok, none⟩ })
    ∧ (s.tapCur.isStable = false →
      exec (.stableclocks c) s = .refused (.stableclocksUnstable s.tapCur)
        ∧ ∀ rest, exec (.execute (.stableclocks c :: rest)) s = .refused (.stableclocksUnstable s.tapCur))

/-- R160: `execute` realises its operations in order, each as it is realised on its own, then flushes; the flush's result
is the command's. -/
def Obligations.ExecuteRealisesInOrder : Prop :=
  ∀ (ops : List JtagOp) (s t : State), s.fatal = false → OkChain ops s t →
    exec (.execute ops) s = .next
      { flush t with lastResult := ⟨if flushOk t then .ok else .transportError, none⟩ }

/-- R160, R310, R302: the first operation that fails ends `execute`: its error is reported with its index, nothing after
it is realised, and there is no closing flush. -/
def Obligations.ExecuteStopsAtFirstError : Prop :=
  ∀ (ops : List JtagOp) (op : JtagOp) (rest : List JtagOp) (i : Instr) (s t u : State),
    s.fatal = false → OkChain ops s t → Instr.ofOp op = some i → exec i t = .next u → u.lastResult.result ≠ .ok →
    exec (.execute (ops ++ op :: rest)) s = .next { u with lastResult := ⟨u.lastResult.result, some ops.length⟩ }

/-- R160, R113: a tag outside 0 to 6 is found when `execute` reaches it: the operations before it stand, and the fatal
ConfigError carries its index. -/
def Obligations.ExecuteUnknownTag : Prop :=
  ∀ (ops : List JtagOp) (tag : BitVec 4) (rest : List JtagOp) (s t : State),
    s.fatal = false → OkChain ops s t →
    exec (.execute (ops ++ .other tag :: rest)) s = .next
      { t with lastResult := ⟨.unknownCommand ops.length, some ops.length⟩, fatal := true }

/-- R160: from a stable state, a list of operations whose end states are stable completes when every flush it makes
succeeds: its sleeps' and the closing one. -/
def Obligations.ExecuteReadyList : Prop :=
  ∀ (ops : List JtagOp) (s : State) (r : List Bool),
    s.fatal = false → s.tapCur.isStable = true → (∀ op ∈ ops, opReady op = true) →
    s.flushIn = List.replicate ((ops.filter opIsSleep).length + 1) true ++ r →
    ∃ t, exec (.execute ops) s = .next t ∧ t.lastResult = ⟨.ok, none⟩ ∧ t.fatal = false ∧ t.tapCur.isStable = true
      ∧ t.pending = [] ∧ t.flushIn = r ∧ ∃ evs, t.trace = s.trace ++ evs ++ [.flush]

/-- R71, T4: a scan looped back, every captured bit being the bit driven in its cycle, fills its capture buffer with
exactly the bits it drove, whatever their number; no other buffer changes. That the buffer is number `nextBuf` is the
model's (log entry 9). -/
def Obligations.LoopedBackScan : Prop :=
  ∀ (ir : Bool) (bits : List Bool) (s : State) (r r' : List Bool),
    s.fatal = false → s.tapCur.isPath = true → bits ≠ [] → s.pending = [] → s.capIn = bits ++ r →
    s.flushIn = true :: r' →
    ∃ t, exec (.execute [.scan ir [⟨.bits bits, true⟩] .idle]) s = .next t
      ∧ t.lastResult = ⟨.ok, none⟩ ∧ t.tapCur = .idle ∧ t.tapGoal = .idle ∧ t.capIn = r
      ∧ (∀ k, k < bits.length → bufBit t.captured s.nextBuf k = bits[k]?)
      ∧ (∀ b k, b ≠ s.nextBuf ∨ bits.length ≤ k → bufBit t.captured b k = bufBit s.captured b k)

/-! ### SWD -/

/-- R100, R101: the request byte, bit by bit; R103: the sixteen request bytes, DP writes, DP reads, AP writes and AP reads,
each at addresses 0 to 3. -/
def Obligations.RequestByte : Prop :=
  (∀ (ap rnw : Bool) (a : BitVec 2),
    wireOf (encodeRequest ap rnw a) =
      [true, ap, rnw, a.getLsbD 0, a.getLsbD 1, ((ap ^^ rnw) ^^ a.getLsbD 0) ^^ a.getLsbD 1, false, true])
    ∧ ([(false, false), (false, true), (true, false), (true, true)].flatMap fun p =>
        [0#2, 1#2, 2#2, 3#2].map fun a => encodeRequest p.1 p.2 a) =
      [0x81#8, 0xA9#8, 0xB1#8, 0x99#8, 0xA5#8, 0x8D#8, 0x95#8, 0xBD#8,
       0xA3#8, 0x8B#8, 0x93#8, 0xBB#8, 0x87#8, 0xAF#8, 0xB7#8, 0x9F#8]

/-- R107: the data parity makes the number of ones among the 33 bits of a word and its parity even. -/
def Obligations.DataParityIsEven : Prop :=
  ∀ w : Word, (writePayload w).length = 33 ∧ (writePayload w).count true % 2 = 0

/-- R202, R203, R205, R207: `swd_read` with room: the request, the captured frame (38 cycles with `TRN_CYCLES` = 1) between
the two direction events, the AP delay of an AP read, and the new entry. The slot's number and what `raw` holds before the
capture are the model's (log entries 6, 9). -/
def Obligations.SwdReadEnqueues : Prop :=
  ∀ (ap : Bool) (a : BitVec 2) (d : Nat) (s : State), Room s →
    ∃ raw, raw.length = readFrameLen s.params
      ∧ exec (.swdRead ap a d) s = .next (enqueuedRead (encodeRequest ap true a) (if ap then d else 0) raw s)

/-- R202, R204, R205, R208: `swd_write` with room: the request, the captured frame (5 cycles with `TRN_CYCLES` = 1), the
payload of the word and its parity, the AP delay of an AP write, and the new entry. What `raw` holds before the capture is the
model's (log entry 6). -/
def Obligations.SwdWriteEnqueues : Prop :=
  ∀ (ap : Bool) (a : BitVec 2) (w : Word) (d : Nat) (s : State), Room s →
    ∃ raw, IsWriteRaw s.params w raw
      ∧ exec (.swdWrite ap a w d) s = .next (enqueuedWrite (encodeRequest ap false a) w (if ap then d else 0) raw s)

/-- R103, R203: the read rows of the table, each sending its own request byte; only an AP read is followed by idle cycles.
That a request row stands for its whole transaction is the model's (log entry 1), and so are the slot's number `nextSlot`,
counted up (log entry 9), and what `raw` holds before the capture (log entry 6). -/
def Obligations.ReadRequestRows : Prop :=
  ∀ (d : Nat) (s : State), Room s →
    (∃ raw, raw.length = readFrameLen s.params ∧ exec (.swdReqDpReadA0 d) s = .next (enqueuedRead 0xA5 0 raw s))
    ∧ (∃ raw, raw.length = readFrameLen s.params ∧ exec (.swdReqDpReadA1 d) s = .next (enqueuedRead 0x8D 0 raw s))
    ∧ (∃ raw, raw.length = readFrameLen s.params ∧ exec (.swdReqDpReadA2 d) s = .next (enqueuedRead 0x95 0 raw s))
    ∧ (∃ raw, raw.length = readFrameLen s.params ∧ exec (.swdReqDpReadA3 d) s = .next (enqueuedRead 0xBD 0 raw s))
    ∧ (∃ raw, raw.length = readFrameLen s.params ∧ exec (.swdReqApReadA0 d) s = .next (enqueuedRead 0x87 d raw s))
    ∧ (∃ raw, raw.length = readFrameLen s.params ∧ exec (.swdReqApReadA1 d) s = .next (enqueuedRead 0xAF d raw s))
    ∧ (∃ raw, raw.length = readFrameLen s.params ∧ exec (.swdReqApReadA2 d) s = .next (enqueuedRead 0xB7 d raw s))
    ∧ (∃ raw, raw.length = readFrameLen s.params ∧ exec (.swdReqApReadA3 d) s = .next (enqueuedRead 0x9F d raw s))

/-- R103, R204: the write rows of the table, each sending its own request byte. That a request row stands for its whole
transaction is the model's (log entry 1), and so is what `raw` holds before the capture (log entry 6). -/
def Obligations.WriteRequestRows : Prop :=
  ∀ (w : Word) (d : Nat) (s : State), Room s →
    (∃ raw, IsWriteRaw s.params w raw ∧ exec (.swdReqDpWriteA0 w d) s = .next (enqueuedWrite 0x81 w 0 raw s))
    ∧ (∃ raw, IsWriteRaw s.params w raw ∧ exec (.swdReqDpWriteA1 w d) s = .next (enqueuedWrite 0xA9 w 0 raw s))
    ∧ (∃ raw, IsWriteRaw s.params w raw ∧ exec (.swdReqDpWriteA2 w d) s = .next (enqueuedWrite 0xB1 w 0 raw s))
    ∧ (∃ raw, IsWriteRaw s.params w raw ∧ exec (.swdReqDpWriteA3 w d) s = .next (enqueuedWrite 0x99 w 0 raw s))
    ∧ (∃ raw, IsWriteRaw s.params w raw ∧ exec (.swdReqApWriteA0 w d) s = .next (enqueuedWrite 0xA3 w d raw s))
    ∧ (∃ raw, IsWriteRaw s.params w raw ∧ exec (.swdReqApWriteA1 w d) s = .next (enqueuedWrite 0x8B w d raw s))
    ∧ (∃ raw, IsWriteRaw s.params w raw ∧ exec (.swdReqApWriteA2 w d) s = .next (enqueuedWrite 0x93 w d raw s))
    ∧ (∃ raw, IsWriteRaw s.params w raw ∧ exec (.swdReqApWriteA3 w d) s = .next (enqueuedWrite 0xBB w d raw s))

/-- R201: the generic request row: RnW chooses the read or the write, and the byte sent is the one built from its fields.
That the row stands for the whole transaction is the model's (log entry 1), and so are the read's slot number `nextSlot`,
counted up (log entry 9), and what `raw` holds before the capture (log entry 6). -/
def Obligations.GenericRequestRow : Prop :=
  ∀ (ap : Bool) (a : BitVec 2) (w : Word) (d : Nat) (s : State), Room s →
    (∃ raw, raw.length = readFrameLen s.params ∧ exec (.swdReqGeneric ap true a w d) s =
      .next (enqueuedRead (encodeRequest ap true a) (if ap then d else 0) raw s))
    ∧ (∃ raw, IsWriteRaw s.params w raw ∧ exec (.swdReqGeneric ap false a w d) s =
      .next (enqueuedWrite (encodeRequest ap false a) w (if ap then d else 0) raw s))

/-- R202, R207, R314: while the sticky error is set an enqueue emits nothing and adds no entry. That a read still counts the
handle up and returns one is the model's (log entry 9), and so is that the request rows taken through `asRead` and `asWrite`
enqueue their transactions (log entry 1). -/
def Obligations.EnqueueWhileSticky : Prop :=
  ∀ (i : Instr) (s : State), s.fatal = false → s.swdSticky ≠ .ok → s.swdLen < s.swdCap →
    (∀ x, asRead i = some x →
      exec i s = .next
        { s with nextSlot := s.nextSlot + 1, lastHandle := some s.nextSlot, lastResult := ⟨.ok, none⟩ })
    ∧ (∀ x, asWrite i = some x → exec i s = .next { s with lastResult := ⟨.ok, none⟩ })

/-- R206, R354: an enqueue that finds the queue full first does all that `swd_run` does, and the capacity doubles. If that
run is OK the transaction becomes an entry of the then empty queue; if it fails its error is kept in `swd_sticky`, and the
enqueue that caused it does nothing more and reports OK. That a read which does nothing more still counts `nextSlot` up and
returns a handle is the model's (log entry 9). -/
def Obligations.Growth : Prop :=
  ∀ (ap : Bool) (a : BitVec 2) (w : Word) (d : Nat) (s t : State),
    s.fatal = false → 1 ≤ s.swdCap → s.swdCap ≤ s.swdLen → exec .swdRun s = .next t →
    (t.lastResult.result = .ok →
      exec (.swdRead ap a d) s = exec (.swdRead ap a d) { t with swdCap := 2 * s.swdCap }
        ∧ exec (.swdWrite ap a w d) s = exec (.swdWrite ap a w d) { t with swdCap := 2 * s.swdCap }
        ∧ Room { t with swdCap := 2 * s.swdCap } ∧ t.swdLen = 0)
    ∧ (t.lastResult.result ≠ .ok →
      exec (.swdRead ap a d) s = .next
          { t with swdCap := 2 * s.swdCap, swdSticky := t.lastResult.result, lastResult := ⟨.ok, none⟩
                   nextSlot := s.nextSlot + 1, lastHandle := some s.nextSlot }
        ∧ exec (.swdWrite ap a w d) s = .next
          { t with swdCap := 2 * s.swdCap, swdSticky := t.lastResult.result, lastResult := ⟨.ok, none⟩ })

/-- R210, R212, R215: a run in which every entry passes: the `SWD_RUN_IDLE` idle cycles, the flush, every entry Committed,
each OK read's word in its slot, result OK, the queue empty. That an entry whose capture an earlier failed flush lost is decoded
like the others is the model's choice (log entry 18). -/
def Obligations.RunCommitsAll : Prop :=
  ∀ (s u : State), s.fatal = false → s.swdSticky = .ok → u = afterRunFlush s →
    flushOk s = true → (∀ e ∈ u.swdQ.take u.swdLen, Passes u.params e) →
    exec .swdRun s = .next (runStopped (u.swdQ.take u.swdLen) (u.swdQ.take u.swdLen).length .ok u)

/-- R210, R214, R217, R218, R220, R308: a run whose first entry that does not pass is entry `k`: the entries before it are
Committed, it is Failed and its error is the result, and no later entry is decoded nor its slot written. That an entry whose
capture an earlier failed flush lost is decoded like the others is the model's choice (log entry 18). -/
def Obligations.RunStopsAtFirstFailure : Prop :=
  ∀ (s u : State) (k : Nat) (e : Entry), s.fatal = false → s.swdSticky = .ok → u = afterRunFlush s →
    flushOk s = true → (u.swdQ.take u.swdLen)[k]? = some e → ¬ Passes u.params e →
    (∀ x ∈ (u.swdQ.take u.swdLen).take k, Passes u.params x) →
    exec .swdRun s = .next (runStopped (u.swdQ.take u.swdLen) k (entryError u.params k e) u)

/-- R213: a run whose flush fails reports TransportError; nothing is decoded, no slot is written, and the queue and the
sticky error are cleared as always. -/
def Obligations.RunFlushFails : Prop :=
  ∀ (s : State), s.fatal = false → s.swdSticky = .ok → flushOk s = false →
    exec .swdRun s = .next
        { afterRunFlush s with swdLen := 0, swdSticky := .ok, lastResult := ⟨.transportError, none⟩ }
      ∧ (afterRunFlush s).slots = s.slots
      ∧ (afterRunFlush s).trace = s.trace ++ runIdleEvents s.params ++ [.flush]

/-- R211: a run that finds the sticky error set emits nothing and decodes nothing; it returns that error and clears it. -/
def Obligations.RunWhileSticky : Prop :=
  ∀ (s : State), s.fatal = false → s.swdSticky ≠ .ok →
    exec .swdRun s = .next { s with swdLen := 0, swdSticky := .ok, lastResult := ⟨s.swdSticky, none⟩ }

/-- R216: every run ends with the queue empty and the sticky error clear, whatever it returns, and the next enqueue, a read
or a write, is accepted as the queue's entry 0. -/
def Obligations.RunEmptiesQueue : Prop :=
  ∀ (s : State), s.fatal = false → 1 ≤ s.swdCap →
    ∃ t, exec .swdRun s = .next t ∧ t.swdLen = 0 ∧ t.swdSticky = .ok
      ∧ ∀ (ap : Bool) (a : BitVec 2) (w : Word) (d : Nat),
        (∃ u, exec (.swdRead ap a d) t = .next u ∧ u.swdLen = 1 ∧ (u.swdQ.take 1).map Entry.phase = [.pending])
          ∧ ∃ u, exec (.swdWrite ap a w d) t = .next u ∧ u.swdLen = 1 ∧ (u.swdQ.take 1).map Entry.phase = [.pending]

/-- R106, R217, R218: the ack rows: a run in which entry `k`, the entries before it passing, is answered with a given ack.
WAIT reports ProtocolAck(WAIT), every other value but OK ProtocolAck(FAULT) with the raw value, and entry `k` stops the
decode; OK lets the run go on past it. That a row stands for such a run is the model's (log entry 1), and so is that entries
whose capture an earlier failed flush lost are decoded like the others (log entry 18). -/
def Obligations.AckRows : Prop :=
  ∀ (i : Instr) (k : Nat) (ack : BitVec 3) (s u : State) (q : List Entry) (e : Entry),
    asAck i = some (k, ack) → s.fatal = false → s.swdSticky = .ok → u = afterRunFlush s → flushOk s = true →
    (u.swdQ.take u.swdLen)[k]? = some e →
    q = (u.swdQ.take u.swdLen).set k { e with raw := withAck u.params ack e.raw } →
    (∀ x ∈ q.take k, Passes u.params x) →
    (ack ≠ 0b001#3 → ackIgnored u.params e.cmd = false → u.params.trnCycles + 3 ≤ e.raw.length →
      exec i s = .next
        (runStopped q k (if ack = 0b010#3 then .ackWait k else .ackFault k ack) u))
    ∧ ((∀ x ∈ q, Passes u.params x) → exec i s = .next (runStopped q q.length .ok u))

/-- R219: with the default `ACK_IGNORED` exactly the request byte 0x99, the DP write to address 3, is ignored; for any
value of the parameter only writes are. -/
def Obligations.IgnoredAcks : Prop :=
  (∀ cmd ∈ requestBytes, ackIgnored Config.params cmd = true ↔
      cmd.getLsbD 1 = false ∧ cmd.getLsbD 2 = false ∧ cmd.extractLsb' 3 2 = 0b11#2)
    ∧ (∀ (p : Params) (cmd : Byte), ackIgnored p cmd = true → cmd.getLsbD 2 = false)

/-- R222 (b), R210, R215: a write of `w`, a read and a run, the target answering OK to both and returning `w` with its
parity, whatever is sampled in the turnarounds, delivers `w` to the read's slot. That the slot is number `nextSlot` is the
model's (log entry 9). -/
def Obligations.WriteThenReadBack : Prop :=
  ∀ (ap : Bool) (a : BitVec 2) (w : Word) (d : Nat) (z₀ z₁ z₂ z₃ : List Bool) (s : State) (r r' : List Bool),
    Room s → 2 ≤ s.swdCap → s.swdLen = 0 → s.pending = [] → (∀ z ∈ [z₀, z₁, z₂, z₃], z.length = s.params.trnCycles) →
    s.capIn = (z₀ ++ [true, false, false] ++ z₁) ++ (z₂ ++ [true, false, false] ++ wireOf w ++ [parity w] ++ z₃) ++ r →
    s.flushIn = true :: r' →
    ∃ t₁ t₂ t₃, exec (.swdWrite ap a w d) s = .next t₁ ∧ exec (.swdRead ap a d) t₁ = .next t₂
      ∧ exec .swdRun t₂ = .next t₃ ∧ t₃.lastResult = ⟨.ok, none⟩ ∧ t₂.lastHandle = some s.nextSlot
      ∧ Store.get t₃.slots s.nextSlot = some w
      ∧ ∀ h, h ≠ s.nextSlot → Store.get t₃.slots h = Store.get s.slots h

/-! ### Mode switches -/

/-- R253, R115: `switch_sequence` of ids 0 to 5: one event, the pattern of `MODE_SEQ`, and nothing else written, not the
tracker, the queue, the sticky error or the line's direction; ids 6 and 7 emit nothing and are a fatal ConfigError. -/
def Obligations.SwitchSequence : Prop :=
  ∀ (s : State), s.fatal = false →
    (∀ x ∈ [(0#3, s.params.modeSeq.jtagToSwd), (1#3, s.params.modeSeq.swdToJtag), (2#3, s.params.modeSeq.jtagToDormant),
        (3#3, s.params.modeSeq.dormantToJtag), (4#3, s.params.modeSeq.swdToDormant), (5#3, s.params.modeSeq.dormantToSwd)],
      exec (.switchSequence x.1) s = .next
        { emitAll [.bits (swdWire s.params) (some x.2.bits) x.2.bits.length .none] s with lastResult := ⟨.ok, none⟩ })
    ∧ ∀ id ∈ [6#3, 7#3],
      exec (.switchSequence id) s = .next { s with lastResult := ⟨.unknownSequence id, none⟩, fatal := true }

/-- R110, R253, R115: the id rows of the table. That a row stands for `switch_sequence` of its id is the model's (log
entry 1). -/
def Obligations.SwitchRows : Prop :=
  ∀ (s : State), s.fatal = false →
    (∀ x ∈ [(Instr.switchJtagToSwd, s.params.modeSeq.jtagToSwd), (.switchSwdToJtag, s.params.modeSeq.swdToJtag),
        (.switchJtagToDormant, s.params.modeSeq.jtagToDormant), (.switchDormantToJtag, s.params.modeSeq.dormantToJtag),
        (.switchSwdToDormant, s.params.modeSeq.swdToDormant), (.switchDormantToSwd, s.params.modeSeq.dormantToSwd)],
      exec x.1 s = .next
        { emitAll [.bits (swdWire s.params) (some x.2.bits) x.2.bits.length .none] s with lastResult := ⟨.ok, none⟩ })
    ∧ ∀ x ∈ [(Instr.switchUnrecognised6, 6#3), (.switchUnrecognised7, 7#3)],
      exec x.1 s = .next { s with lastResult := ⟨.unknownSequence x.2, none⟩, fatal := true }

/-! ### The TAP state rows -/

/-- R131, R168, R169: the row of a TAP state that one transition reaches clocks that one bit and ends there; the row of a
state that neither TMS level reaches emits nothing and fails, and `tap_cur` and `tap_goal` hold values nothing is said of.
That a state row stands for this walk is the model's (log entry 1). -/
def Obligations.TapStateRows : Prop :=
  ∀ (s : State), s.fatal = false →
    (∀ b : Bool, exec (tapRow (tapNext s.tapCur b)) s = .next
      { emitAll [.tms [b] false .none] s with
        tapCur := tapNext s.tapCur b, tapGoal := tapNext s.tapCur b, lastResult := ⟨.ok, none⟩ })
    ∧ ∀ t : TapState, (∀ b, tapNext s.tapCur b ≠ t) →
      ∃ c g, exec (tapRow t) s = .next
        { s with tapCur := c, tapGoal := g, freeCtr := s.freeCtr + 2, fatal := true
                 lastResult := ⟨.invalidTransition s.tapCur t, none⟩ }

/-! ### Errors and the latch -/

/-- R113: an unassigned tag at the command port emits nothing and is a fatal ConfigError. The information it carries is
the model's choice (log entry 8), so nothing is said of it. -/
def Obligations.UnassignedTagsAreFatal : Prop :=
  ∀ (s : State), s.fatal = false →
    ∀ i ∈ [Instr.unassignedTag7, .unassignedTag13, .unassignedTag14, .unassignedTag15],
      ∃ n, exec i s = .next { s with lastResult := ⟨.unknownCommand n, none⟩, fatal := true }

/-- R311: while `fatal` is set every command does nothing, and no step clears the latch. -/
def Obligations.RefusedWhileFatal : Prop :=
  (∀ (i : Instr) (s : State), s.fatal = true → exec i s = .next s)
    ∧ ∀ s t : State, s.fatal = true → step s = .next t → t = { s with cmdPort := t.cmdPort }

/-- R301: the 3-bit codes, and R303: the kinds that set the latch are those of codes 1 and 3. -/
def Obligations.ErrorCodes : Prop :=
  Result.code .ok = 0 ∧ (∀ n, Result.code (.unknownCommand n) = 1) ∧ (∀ n, Result.code (.unknownSequence n) = 1)
    ∧ Result.code .unsupportedSignal = 2 ∧ (∀ a b, Result.code (.invalidTransition a b) = 3)
    ∧ Result.code .transportError = 4 ∧ (∀ k, Result.code (.ackWait k) = 5) ∧ (∀ k a, Result.code (.ackFault k a) = 6)
    ∧ (∀ k, Result.code (.dataIntegrity k) = 7)
    ∧ ∀ r : Result, r.isFatal = true ↔ r.code = 1 ∨ r.code = 3

/-- R303, R310: every step leaves the latch set exactly while the result port holds an error of the fatal set, and the
sticky error never of that set. -/
def Obligations.LatchFollowsResult : Prop := ∀ s t : State, LatchInv s → step s = .next t → LatchInv t

/-! ### Reset -/

/-- R341: the reset values. -/
def Obligations.ResetValues : Prop :=
  State.reset.tapCur = .reset ∧ State.reset.tapGoal = .reset ∧ State.reset.swdLen = 0
    ∧ State.reset.swdCap = State.reset.params.swdQueueInitCap ∧ State.reset.swdSticky = .ok ∧ State.reset.swdioDir = .drive
    ∧ State.reset.fatal = false ∧ State.reset.trace = [] ∧ State.reset.lastResult = ⟨.ok, none⟩

/-- The invariants below hold at reset. That the pending batch, the destination slots and the capture buffers are empty then,
which `BatchInv` and the canonical form rest on, is the model's choice (log entries 4, 15), not R341's. -/
def Obligations.ResetMeetsInvariants : Prop :=
  QueueInv State.reset ∧ LatchInv State.reset ∧ BatchInv State.reset ∧ Memory.wf State.reset = true
    ∧ State.reset.swdioDir = .drive

/-! ### Invariants of every step -/

/-- R36, R37, R38, R40: the shape of the SWD queue. -/
def Obligations.QueueInvKept : Prop := ∀ s t : State, QueueInv s → step s = .next t → QueueInv t

/-- R45, R277: the pending batch stays what was emitted since the last flush. -/
def Obligations.BatchInvKept : Prop := ∀ s t : State, BatchInv s → step s = .next t → BatchInv t

/-- Slots (R39) and capture buffers (R47) keep their canonical form. That form, rising keys and nothing listed but what the
block delivered, is the model's choice (log entry 15) and in no rule. -/
def Obligations.MemoryStaysCanonical : Prop :=
  ∀ s t : State, Memory.wf s = true → step s = .next t → Memory.wf t = true

/-- R223, R255: between commands the block drives the SWD data line. -/
def Obligations.LineDrivenBetweenCommands : Prop :=
  ∀ s t : State, s.swdioDir = .drive → step s = .next t → t.swdioDir = .drive

/-- R132, R170: while no fatal error is raised, the tracker moves with exactly the TMS levels the step clocked. -/
def Obligations.TrackerInLockstep : Prop :=
  ∀ s t : State, s.params.tmsOpTracks = true → step s = .next t → t.fatal = false →
    ∃ evs, t.trace = s.trace ++ evs ∧ t.tapCur = tapWalk s.tapCur (tmsWire evs)

/-- R43, R75: a step only adds to the trace; no emitted event is withdrawn. R7: no step writes a parameter; R36: the
capacity only doubles, at most once a step. -/
def Obligations.TraceGrowsParamsFixed : Prop :=
  ∀ s t : State, step s = .next t →
    (∃ evs, t.trace = s.trace ++ evs) ∧ t.params = s.params ∧ (t.swdCap = s.swdCap ∨ t.swdCap = 2 * s.swdCap)

/-! ### The two sides -/

/-- R181: no JTAG command touches the SWD queue (its length, its capacity, and every entry but for the `raw` buffers, to
which a flush of `execute` or `sleep` delivers what was captured, R72), the sticky error, the line's direction, a slot or a
handle. That the TAP state rows are JTAG commands is the model's (log entry 1). R254, R32: no SWD command, mode switch or
unassigned tag touches the tracker or the numbering of the buffers. -/
def Obligations.SidesApart : Prop :=
  ∀ (i : Instr) (s t : State), exec i s = .next t →
    (isJtag i = true →
      t.swdLen = s.swdLen ∧ t.swdCap = s.swdCap ∧ t.swdSticky = s.swdSticky ∧ t.swdioDir = s.swdioDir
        ∧ t.swdQ.map Entry.request = s.swdQ.map Entry.request
        ∧ t.slots = s.slots ∧ t.nextSlot = s.nextSlot ∧ t.lastHandle = s.lastHandle)
    ∧ (isJtag i = false → t.tapCur = s.tapCur ∧ t.tapGoal = s.tapGoal ∧ t.nextBuf = s.nextBuf)

/-! ### Decoding and the step -/

/-- R17: a step takes the record at the front of the command port, by the bytes the model gives records (log entry 2), and
runs its instruction with the record gone from the port. That it waits with nothing there is the model's choice (log entry
4), and so is that bytes which are no record stop it (log entry 12). -/
def Obligations.StepRunsDecoded : Prop :=
  (∀ (s : State) (i : Instr) (rest : List Byte),
    decode s.cmdPort = .ok (i, rest) → step s = exec i { s with cmdPort := rest })
    ∧ (∀ s : State, s.cmdPort = [] → step s = .next s)
    ∧ ∀ (s : State) (e : DecodeError), s.cmdPort ≠ [] → decode s.cmdPort = .error e → step s = .fault (.badRecord e)

/-- R92, R103: records written out by hand, a few of each family, with what they stand for. The bytes around the spec's
own numbers are the model's (log entry 2). -/
def Obligations.DecodeSamples : Prop :=
  decode [0x00, 0x0A, 0x00, 0x00, 0x00, 0x01] = .ok (.runtest 10 .idle, [])
    ∧ decode [0x02, 0x02, 0x00, 0x00, 0x00, 0x02, 0x03] = .ok (.pathmove [.drSelect, .drCapture], [])
    ∧ decode [0x03, 0x00, 0x01, 0x00, 0x00, 0x00, 0x03, 0x08, 0x00, 0x00, 0x00, 0xCD, 0x01] =
      .ok (.scan false [⟨.bits [true, false, true, true, false, false, true, true], true⟩] .idle, [])
    ∧ decode [0x04, 0x05, 0x00, 0x00, 0x00, 0x1F] = .ok (.tms 5 [true, true, true, true, true], [])
    ∧ decode [0x09, 0x01, 0x01, 0xEF, 0xBE, 0xAD, 0xDE, 0x08, 0x00, 0x00, 0x00] =
      .ok (.swdWrite true 1 0xDEADBEEF 8, [])
    ∧ decode [0x0B, 0x05] = .ok (.switchSequence 5, [])
    ∧ decode [0x0C, 0x01, 0x00, 0x00, 0x00, 0x01, 0x0D] = .ok (.execute [.statemove .irPause], [])
    ∧ decode [0xA5, 0x00, 0x00, 0x00, 0x00] = .ok (.swdReqDpReadA0 0, [])
    ∧ decode [0x80] = .error (.unknownHeader 0x80)

/-- Decoding what the encoder wrote gives the instruction back, for every well-formed instruction, with every operand. R92
names the tags and operands and R118 says they form no bit format, so the bytes are the model's choice (log entry 2). -/
def Obligations.EncodeThenDecode : Prop :=
  ∀ (i : Instr) (rest : List Byte), i.wellFormed = true → decode (encode i ++ rest) = .ok (i, rest)

/-- Each record has one spelling: what decodes is well formed, and encoding it gives the bytes read. This is a property of the
model's byte layout (log entry 2); R92 and R118 give the records' tags and operands and no bytes. -/
def Obligations.DecodeThenEncode : Prop :=
  ∀ (bytes rest : List Byte) (i : Instr), decode bytes = .ok (i, rest) →
    i.wellFormed = true ∧ encode i ++ rest = bytes

/-! ### The Signal Registry stub -/

/-- R288, R284: with D0's signal `R`, `set` to 1 succeeds and to tri-state fails; `set` changes no shadow bit outside the
signal's data and OE masks. R288's "expected output bits" are not stated: the shadow words inside the masks are free values
(log entry 13). R285: `get` fails with a zero input mask, and otherwise reads the byte groups in which the mask selects a
line and answers each masked line with the input inversion applied; that the value is the masked word, and the low group is
read first, is the model's (log entry 13). -/
def Obligations.SignalRegistry : Prop :=
  (∀ r : Registry,
    let sig : Signal := { name := "R", dataMask := 0x08, inputMask := 0, oeMask := 0, invertData := false
                          invertInput := false, invertOe := false }
    (∃ x, (r.define sig).set "R" .high = .ok x) ∧ (r.define sig).set "R" .tristate = .error .unsupportedSignal)
    ∧ (∀ (r r' : Registry) (name : String) (level : Level) (sig : Signal) (ws : List GpioWrite),
      r.find name = some sig → r.set name level = .ok (r', ws) →
      (r'.gpioOut ^^^ r.gpioOut) &&& ~~~(sig.dataMask ||| sig.oeMask) = 0
        ∧ (r'.gpioDir ^^^ r.gpioDir) &&& ~~~(sig.dataMask ||| sig.oeMask) = 0)
    ∧ ∀ (r : Registry) (name : String) (sig : Signal) (lines : BitVec 16), r.find name = some sig →
      (sig.inputMask = 0 → r.get name lines = .error .unsupportedSignal)
        ∧ (sig.inputMask ≠ 0 → ∃ w reads, r.get name lines = .ok (w, reads)
          ∧ (GpioRead.low ∈ reads ↔ ∃ k, k < 8 ∧ sig.inputMask.getLsbD k = true)
          ∧ (GpioRead.high ∈ reads ↔ ∃ k, 8 ≤ k ∧ k < 16 ∧ sig.inputMask.getLsbD k = true)
          ∧ ∀ k, w.getLsbD k = (sig.inputMask.getLsbD k && (lines.getLsbD k ^^ sig.invertInput)))

/-! ### The parameters -/

/-- R7, R210, R104, R105: the values the spec gives the parameters, and the frames of 38 and 5 cycles that follow from one
cycle of turnaround. -/
def Obligations.ParameterValues : Prop :=
  State.reset.params.tmsBurstMax = 7 ∧ State.reset.params.pathMax = 8 ∧ State.reset.params.swdRunIdle = 8
    ∧ State.reset.params.trnCycles = 1 ∧ State.reset.params.tmsOpTracks = true
    ∧ 1 ≤ State.reset.params.swdQueueInitCap
    ∧ readFrameLen State.reset.params = 38 ∧ writeFrameLen State.reset.params = 5
end

