-- ==== Sys2Proof/Laws/Decode.lean ====
section
/-! SUPPORT. Item by item, the decoder reads back what the encoder wrote. -/

namespace Sys2Proof

theorem takeU32_u32Bytes {n : Nat} (h : fits32 n = true) (r : List Byte) :
    takeU32 (u32Bytes n ++ r) = .ok (n, r) := by
  simp only [fits32, decide_eq_true_eq] at h
  simp only [u32Bytes, List.cons_append, List.nil_append, takeU32, BitVec.toNat_ofNat]
  congr 2
  omega

theorem takeSmall_cons {bound : Nat} {b : Byte} (h : b.toNat < bound) (r : List Byte) :
    takeSmall bound (b :: r) = .ok (b.toNat, r) := by
  simp [takeSmall, takeByte, h]

theorem takeState_stateByte (t : TapState) (r : List Byte) : takeState (stateByte t :: r) = .ok (t, r) := by
  cases t <;> rfl

theorem takeMany_flatMap {α : Type} {one : Reader α} {enc : α → List Byte} (xs : List α)
    (h : ∀ x ∈ xs, ∀ r, one (enc x ++ r) = .ok (x, r)) (r : List Byte) :
    takeMany one xs.length (xs.flatMap enc ++ r) = .ok (xs, r) := by
  induction xs with
  | nil => rfl
  | cons x xs ih =>
    simp only [List.flatMap_cons, List.length_cons, takeMany, List.append_assoc]
    rw [h x (by simp)]
    simp only
    rw [ih (fun y hy => h y (by simp [hy]))]

theorem takeList_flatMap {α : Type} {one : Reader α} {enc : α → List Byte} {xs : List α}
    (hn : fits32 xs.length = true) (h : ∀ x ∈ xs, ∀ r, one (enc x ++ r) = .ok (x, r)) (r : List Byte) :
    takeList one (u32Bytes xs.length ++ (xs.flatMap enc ++ r)) = .ok (xs, r) := by
  simp only [takeList]
  rw [takeU32_u32Bytes hn]
  exact takeMany_flatMap xs h r

/-- R10: bit `k` of a buffer's value is the bit at offset `k`. -/
theorem bitsVal_testBit (l : List Bool) (k : Nat) : (bitsVal l).testBit k = l.getD k false := by
  induction l generalizing k with
  | nil => simp [bitsVal]
  | cons b r ih =>
    cases k with
    | zero => cases b <;> simp [bitsVal, Nat.testBit_zero]
    | succ k =>
      rw [Nat.testBit_succ, List.getD_cons_succ, ← ih k]
      congr 1
      cases b <;> simp [bitsVal]
      omega

/-- A byte that packs up to eight bits has these bits, and 0 above them. -/
theorem byteBits_bitsVal {l : List Bool} (h : l.length ≤ 8) :
    byteBits (BitVec.ofNat 8 (bitsVal l)) = l ++ List.replicate (8 - l.length) false := by
  apply List.ext_getElem
  · simp [byteBits]; omega
  · intro k h1 h2
    simp only [byteBits, List.length_map, List.length_range] at h1
    simp only [byteBits, List.getElem_map, List.getElem_range, BitVec.getLsbD_ofNat, h1, decide_true, Bool.true_and,
      bitsVal_testBit]
    by_cases hk : k < l.length
    · rw [List.getElem_append_left hk, List.getD_eq_getElem _ _ hk]
    · rw [List.getElem_append_right (by omega), List.getElem_replicate, List.getD_eq_default _ _ (by omega)]

@[simp] theorem packBytes_length (k : Nat) (l : List Bool) : (packBytes k l).length = k := by
  induction k generalizing l with
  | zero => rfl
  | succ k ih => simp [packBytes, ih]

/-- Unpacking `k` bytes gives the buffer back, padded with 0. -/
theorem flatMap_byteBits_packBytes (k : Nat) (l : List Bool) (h : l.length ≤ 8 * k) :
    (packBytes k l).flatMap byteBits = l ++ List.replicate (8 * k - l.length) false := by
  induction k generalizing l with
  | zero =>
    obtain rfl : l = [] := List.length_eq_zero_iff.mp (by omega)
    rfl
  | succ k ih =>
    rw [packBytes, List.flatMap_cons, byteBits_bitsVal (by simp), ih _ (by simp; omega)]
    by_cases hl : 8 ≤ l.length
    · have h8 : (l.take 8).length = 8 := by simp; omega
      rw [h8, Nat.sub_self, List.replicate_zero, List.append_nil, ← List.append_assoc, List.take_append_drop,
        List.length_drop]
      congr 2
      omega
    · rw [List.take_of_length_le (by omega), List.drop_of_length_le (by omega), List.nil_append, List.append_assoc,
        List.replicate_append_replicate, List.length_nil]
      congr 2
      omega

theorem takeBits_packBits (l : List Bool) (r : List Byte) : takeBits l.length (packBits l ++ r) = .ok (l, r) := by
  have hk : l.length ≤ 8 * ((l.length + 7) / 8) := by omega
  have hlen : (packBits l).length = (l.length + 7) / 8 := packBytes_length _ _
  have hflat : (packBits l).flatMap byteBits =
      l ++ List.replicate (8 * ((l.length + 7) / 8) - l.length) false := flatMap_byteBits_packBytes _ _ hk
  simp only [takeBits]
  rw [if_neg (by simp [hlen]), ← hlen, List.take_left, List.drop_left, hflat, List.drop_left, List.take_left]
  simp

theorem takeField_encodeField {f : ScanField} (h : f.wellFormed = true) (r : List Byte) :
    takeField (encodeField f ++ r) = .ok (f, r) := by
  obtain ⟨out, capture⟩ := f
  cases out with
  | bits b =>
    have hb : fits32 b.length = true := h
    simp only [encodeField, List.cons_append, List.append_assoc, takeField]
    rw [takeSmall_cons (by cases capture <;> decide)]
    simp only [takeU32_u32Bytes hb, takeBits_packBits]
    cases capture <;> rfl
  | silent n =>
    have hb : fits32 n = true := h
    simp only [encodeField, List.cons_append, takeField]
    rw [takeSmall_cons (by cases capture <;> decide)]
    simp only [takeU32_u32Bytes hb]
    cases capture <;> rfl

theorem takeList_states {l : List TapState} (h : fits32 l.length = true) (r : List Byte) :
    takeList takeState (u32Bytes l.length ++ (l.map stateByte ++ r)) = .ok (l, r) := by
  have := takeList_flatMap (one := takeState) (enc := fun t => [stateByte t]) h
    (fun t _ r => takeState_stateByte t r) r
  rwa [show l.flatMap (fun t => [stateByte t]) = l.map stateByte from List.map_eq_flatMap.symm] at this

/-- Inside `execute`, an operation is read back. -/
theorem takeOp_encodeOp {op : JtagOp} (h : op.wellFormed = true) (r : List Byte) :
    takeOp (encodeOp op ++ r) = .ok (op, r) := by
  cases op with
  | runtest c e =>
    have hc : fits32 c = true := h
    simp [takeOp, encodeOp, takeByte, takeOpOf, takeU32_u32Bytes hc, takeState_stateByte]
  | statemove e => simp [takeOp, encodeOp, takeByte, takeOpOf, takeState_stateByte]
  | pathmove l =>
    have hl : fits32 l.length = true := h
    simp [takeOp, encodeOp, takeByte, takeOpOf, takeList_states hl]
  | scan ir f e =>
    simp only [JtagOp.wellFormed, Bool.and_eq_true, List.all_eq_true] at h
    simp only [takeOp, encodeOp, takeByte, takeOpOf, List.cons_append, List.append_assoc]
    have hir : (flagByte ir).toNat < 2 := by cases ir <;> decide
    simp only [BitVec.toNat_ofNat, Nat.reducePow, Nat.reduceMod]
    rw [takeSmall_cons hir]
    simp only [List.nil_append, takeList_flatMap h.1 (fun x hx r => takeField_encodeField (h.2 x hx) r),
      takeState_stateByte]
    cases ir <;> rfl
  | tms c b =>
    simp only [JtagOp.wellFormed, Bool.and_eq_true, beq_iff_eq] at h
    obtain ⟨hc, rfl⟩ := h
    simp [takeOp, encodeOp, takeByte, takeOpOf, takeU32_u32Bytes hc, takeBits_packBits]
  | sleep us =>
    have hc : fits32 us = true := h
    simp [takeOp, encodeOp, takeByte, takeOpOf, takeU32_u32Bytes hc]
  | stableclocks c =>
    have hc : fits32 c = true := h
    simp [takeOp, encodeOp, takeByte, takeOpOf, takeU32_u32Bytes hc]
  | other t =>
    have ht : 7 ≤ t.toNat := by simpa [JtagOp.wellFormed] using h
    have all : ∀ t : BitVec 4, 7 ≤ t.toNat → ∀ r, takeOp (encodeOp (.other t) ++ r) = .ok (.other t, r) := by
      intro t ht r
      have hcases : t = 7#4 ∨ t = 8#4 ∨ t = 9#4 ∨ t = 10#4 ∨ t = 11#4 ∨ t = 12#4 ∨ t = 13#4 ∨ t = 14#4 ∨ t = 15#4 := by
        revert t; decide
      rcases hcases with h | h | h | h | h | h | h | h | h <;> subst h <;> rfl
    exact all t ht r

end Sys2Proof
end

