-- ==== Sys2Proof/Laws/State.lean ====
section
/-! SUPPORT. One lemma per field per update of State: what each named update writes, and that it writes nothing else. -/

namespace Sys2Proof.Machine

open Sys2Proof (TapState)

variable (s : State)

/-! ### emit -/

@[simp] theorem emit_tapCur (e : Event) : (emit e s).tapCur = s.tapCur := rfl
@[simp] theorem emit_tapGoal (e : Event) : (emit e s).tapGoal = s.tapGoal := rfl
@[simp] theorem emit_swdQ (e : Event) : (emit e s).swdQ = s.swdQ := rfl
@[simp] theorem emit_swdLen (e : Event) : (emit e s).swdLen = s.swdLen := rfl
@[simp] theorem emit_swdCap (e : Event) : (emit e s).swdCap = s.swdCap := rfl
@[simp] theorem emit_swdSticky (e : Event) : (emit e s).swdSticky = s.swdSticky := rfl
@[simp] theorem emit_swdioDir (e : Event) : (emit e s).swdioDir = s.swdioDir := rfl
@[simp] theorem emit_fatal (e : Event) : (emit e s).fatal = s.fatal := rfl
@[simp] theorem emit_trace (e : Event) : (emit e s).trace = s.trace ++ [e] := rfl
@[simp] theorem emit_lastResult (e : Event) : (emit e s).lastResult = s.lastResult := rfl
@[simp] theorem emit_slots (e : Event) : (emit e s).slots = s.slots := rfl
@[simp] theorem emit_nextSlot (e : Event) : (emit e s).nextSlot = s.nextSlot := rfl
@[simp] theorem emit_lastHandle (e : Event) : (emit e s).lastHandle = s.lastHandle := rfl
@[simp] theorem emit_captured (e : Event) : (emit e s).captured = s.captured := rfl
@[simp] theorem emit_nextBuf (e : Event) : (emit e s).nextBuf = s.nextBuf := rfl
@[simp] theorem emit_pending (e : Event) : (emit e s).pending = s.pending ++ [e] := rfl
@[simp] theorem emit_cmdPort (e : Event) : (emit e s).cmdPort = s.cmdPort := rfl
@[simp] theorem emit_capIn (e : Event) : (emit e s).capIn = s.capIn := rfl
@[simp] theorem emit_flushIn (e : Event) : (emit e s).flushIn = s.flushIn := rfl
@[simp] theorem emit_freeCtr (e : Event) : (emit e s).freeCtr = s.freeCtr := rfl
@[simp] theorem emit_params (e : Event) : (emit e s).params = s.params := rfl

/-! ### emitDelay -/

@[simp] theorem emitDelay_tapCur (us : Nat) : (emitDelay us s).tapCur = s.tapCur := rfl
@[simp] theorem emitDelay_tapGoal (us : Nat) : (emitDelay us s).tapGoal = s.tapGoal := rfl
@[simp] theorem emitDelay_swdQ (us : Nat) : (emitDelay us s).swdQ = s.swdQ := rfl
@[simp] theorem emitDelay_swdLen (us : Nat) : (emitDelay us s).swdLen = s.swdLen := rfl
@[simp] theorem emitDelay_swdCap (us : Nat) : (emitDelay us s).swdCap = s.swdCap := rfl
@[simp] theorem emitDelay_swdSticky (us : Nat) : (emitDelay us s).swdSticky = s.swdSticky := rfl
@[simp] theorem emitDelay_swdioDir (us : Nat) : (emitDelay us s).swdioDir = s.swdioDir := rfl
@[simp] theorem emitDelay_fatal (us : Nat) : (emitDelay us s).fatal = s.fatal := rfl
@[simp] theorem emitDelay_trace (us : Nat) : (emitDelay us s).trace = s.trace ++ [.delay us] := rfl
@[simp] theorem emitDelay_lastResult (us : Nat) : (emitDelay us s).lastResult = s.lastResult := rfl
@[simp] theorem emitDelay_slots (us : Nat) : (emitDelay us s).slots = s.slots := rfl
@[simp] theorem emitDelay_nextSlot (us : Nat) : (emitDelay us s).nextSlot = s.nextSlot := rfl
@[simp] theorem emitDelay_lastHandle (us : Nat) : (emitDelay us s).lastHandle = s.lastHandle := rfl
@[simp] theorem emitDelay_captured (us : Nat) : (emitDelay us s).captured = s.captured := rfl
@[simp] theorem emitDelay_nextBuf (us : Nat) : (emitDelay us s).nextBuf = s.nextBuf := rfl
@[simp] theorem emitDelay_pending (us : Nat) : (emitDelay us s).pending = s.pending := rfl
@[simp] theorem emitDelay_cmdPort (us : Nat) : (emitDelay us s).cmdPort = s.cmdPort := rfl
@[simp] theorem emitDelay_capIn (us : Nat) : (emitDelay us s).capIn = s.capIn := rfl
@[simp] theorem emitDelay_flushIn (us : Nat) : (emitDelay us s).flushIn = s.flushIn := rfl
@[simp] theorem emitDelay_freeCtr (us : Nat) : (emitDelay us s).freeCtr = s.freeCtr := rfl
@[simp] theorem emitDelay_params (us : Nat) : (emitDelay us s).params = s.params := rfl

/-! ### emitDir -/

@[simp] theorem emitDir_tapCur (d : Dir) : (emitDir d s).tapCur = s.tapCur := rfl
@[simp] theorem emitDir_tapGoal (d : Dir) : (emitDir d s).tapGoal = s.tapGoal := rfl
@[simp] theorem emitDir_swdQ (d : Dir) : (emitDir d s).swdQ = s.swdQ := rfl
@[simp] theorem emitDir_swdLen (d : Dir) : (emitDir d s).swdLen = s.swdLen := rfl
@[simp] theorem emitDir_swdCap (d : Dir) : (emitDir d s).swdCap = s.swdCap := rfl
@[simp] theorem emitDir_swdSticky (d : Dir) : (emitDir d s).swdSticky = s.swdSticky := rfl
@[simp] theorem emitDir_swdioDir (d : Dir) : (emitDir d s).swdioDir = d := rfl
@[simp] theorem emitDir_fatal (d : Dir) : (emitDir d s).fatal = s.fatal := rfl
@[simp] theorem emitDir_trace (d : Dir) : (emitDir d s).trace = s.trace ++ [.dir d] := rfl
@[simp] theorem emitDir_lastResult (d : Dir) : (emitDir d s).lastResult = s.lastResult := rfl
@[simp] theorem emitDir_slots (d : Dir) : (emitDir d s).slots = s.slots := rfl
@[simp] theorem emitDir_nextSlot (d : Dir) : (emitDir d s).nextSlot = s.nextSlot := rfl
@[simp] theorem emitDir_lastHandle (d : Dir) : (emitDir d s).lastHandle = s.lastHandle := rfl
@[simp] theorem emitDir_captured (d : Dir) : (emitDir d s).captured = s.captured := rfl
@[simp] theorem emitDir_nextBuf (d : Dir) : (emitDir d s).nextBuf = s.nextBuf := rfl
@[simp] theorem emitDir_pending (d : Dir) : (emitDir d s).pending = s.pending ++ [.dir d] := rfl
@[simp] theorem emitDir_cmdPort (d : Dir) : (emitDir d s).cmdPort = s.cmdPort := rfl
@[simp] theorem emitDir_capIn (d : Dir) : (emitDir d s).capIn = s.capIn := rfl
@[simp] theorem emitDir_flushIn (d : Dir) : (emitDir d s).flushIn = s.flushIn := rfl
@[simp] theorem emitDir_freeCtr (d : Dir) : (emitDir d s).freeCtr = s.freeCtr := rfl
@[simp] theorem emitDir_params (d : Dir) : (emitDir d s).params = s.params := rfl

/-! ### track -/

@[simp] theorem track_tapCur (bits : List Bool) : (track bits s).tapCur = tapWalk s.tapCur bits := rfl
@[simp] theorem track_tapGoal (bits : List Bool) : (track bits s).tapGoal = s.tapGoal := rfl
@[simp] theorem track_swdQ (bits : List Bool) : (track bits s).swdQ = s.swdQ := rfl
@[simp] theorem track_swdLen (bits : List Bool) : (track bits s).swdLen = s.swdLen := rfl
@[simp] theorem track_swdCap (bits : List Bool) : (track bits s).swdCap = s.swdCap := rfl
@[simp] theorem track_swdSticky (bits : List Bool) : (track bits s).swdSticky = s.swdSticky := rfl
@[simp] theorem track_swdioDir (bits : List Bool) : (track bits s).swdioDir = s.swdioDir := rfl
@[simp] theorem track_fatal (bits : List Bool) : (track bits s).fatal = s.fatal := rfl
@[simp] theorem track_trace (bits : List Bool) : (track bits s).trace = s.trace := rfl
@[simp] theorem track_lastResult (bits : List Bool) : (track bits s).lastResult = s.lastResult := rfl
@[simp] theorem track_slots (bits : List Bool) : (track bits s).slots = s.slots := rfl
@[simp] theorem track_nextSlot (bits : List Bool) : (track bits s).nextSlot = s.nextSlot := rfl
@[simp] theorem track_lastHandle (bits : List Bool) : (track bits s).lastHandle = s.lastHandle := rfl
@[simp] theorem track_captured (bits : List Bool) : (track bits s).captured = s.captured := rfl
@[simp] theorem track_nextBuf (bits : List Bool) : (track bits s).nextBuf = s.nextBuf := rfl
@[simp] theorem track_pending (bits : List Bool) : (track bits s).pending = s.pending := rfl
@[simp] theorem track_cmdPort (bits : List Bool) : (track bits s).cmdPort = s.cmdPort := rfl
@[simp] theorem track_capIn (bits : List Bool) : (track bits s).capIn = s.capIn := rfl
@[simp] theorem track_flushIn (bits : List Bool) : (track bits s).flushIn = s.flushIn := rfl
@[simp] theorem track_freeCtr (bits : List Bool) : (track bits s).freeCtr = s.freeCtr := rfl
@[simp] theorem track_params (bits : List Bool) : (track bits s).params = s.params := rfl

/-! ### capDrawn -/

@[simp] theorem capDrawn_tapCur (n : Nat) : (capDrawn n s).tapCur = s.tapCur := rfl
@[simp] theorem capDrawn_tapGoal (n : Nat) : (capDrawn n s).tapGoal = s.tapGoal := rfl
@[simp] theorem capDrawn_swdQ (n : Nat) : (capDrawn n s).swdQ = s.swdQ := rfl
@[simp] theorem capDrawn_swdLen (n : Nat) : (capDrawn n s).swdLen = s.swdLen := rfl
@[simp] theorem capDrawn_swdCap (n : Nat) : (capDrawn n s).swdCap = s.swdCap := rfl
@[simp] theorem capDrawn_swdSticky (n : Nat) : (capDrawn n s).swdSticky = s.swdSticky := rfl
@[simp] theorem capDrawn_swdioDir (n : Nat) : (capDrawn n s).swdioDir = s.swdioDir := rfl
@[simp] theorem capDrawn_fatal (n : Nat) : (capDrawn n s).fatal = s.fatal := rfl
@[simp] theorem capDrawn_trace (n : Nat) : (capDrawn n s).trace = s.trace := rfl
@[simp] theorem capDrawn_lastResult (n : Nat) : (capDrawn n s).lastResult = s.lastResult := rfl
@[simp] theorem capDrawn_slots (n : Nat) : (capDrawn n s).slots = s.slots := rfl
@[simp] theorem capDrawn_nextSlot (n : Nat) : (capDrawn n s).nextSlot = s.nextSlot := rfl
@[simp] theorem capDrawn_lastHandle (n : Nat) : (capDrawn n s).lastHandle = s.lastHandle := rfl
@[simp] theorem capDrawn_captured (n : Nat) : (capDrawn n s).captured = s.captured := rfl
@[simp] theorem capDrawn_nextBuf (n : Nat) : (capDrawn n s).nextBuf = s.nextBuf := rfl
@[simp] theorem capDrawn_pending (n : Nat) : (capDrawn n s).pending = s.pending := rfl
@[simp] theorem capDrawn_cmdPort (n : Nat) : (capDrawn n s).cmdPort = s.cmdPort := rfl
@[simp] theorem capDrawn_capIn (n : Nat) : (capDrawn n s).capIn = s.capIn.drop n := rfl
@[simp] theorem capDrawn_flushIn (n : Nat) : (capDrawn n s).flushIn = s.flushIn := rfl
@[simp] theorem capDrawn_freeCtr (n : Nat) : (capDrawn n s).freeCtr = s.freeCtr + (n - s.capIn.length) := rfl
@[simp] theorem capDrawn_params (n : Nat) : (capDrawn n s).params = s.params := rfl

/-! ### flushed -/

@[simp] theorem flushed_tapCur : (flushed s).tapCur = s.tapCur := rfl
@[simp] theorem flushed_tapGoal : (flushed s).tapGoal = s.tapGoal := rfl
@[simp] theorem flushed_swdQ : (flushed s).swdQ = s.swdQ := rfl
@[simp] theorem flushed_swdLen : (flushed s).swdLen = s.swdLen := rfl
@[simp] theorem flushed_swdCap : (flushed s).swdCap = s.swdCap := rfl
@[simp] theorem flushed_swdSticky : (flushed s).swdSticky = s.swdSticky := rfl
@[simp] theorem flushed_swdioDir : (flushed s).swdioDir = s.swdioDir := rfl
@[simp] theorem flushed_fatal : (flushed s).fatal = s.fatal := rfl
@[simp] theorem flushed_trace : (flushed s).trace = s.trace ++ [.flush] := rfl
@[simp] theorem flushed_lastResult : (flushed s).lastResult = s.lastResult := rfl
@[simp] theorem flushed_slots : (flushed s).slots = s.slots := rfl
@[simp] theorem flushed_nextSlot : (flushed s).nextSlot = s.nextSlot := rfl
@[simp] theorem flushed_lastHandle : (flushed s).lastHandle = s.lastHandle := rfl
@[simp] theorem flushed_captured : (flushed s).captured = s.captured := rfl
@[simp] theorem flushed_nextBuf : (flushed s).nextBuf = s.nextBuf := rfl
@[simp] theorem flushed_pending : (flushed s).pending = [] := rfl
@[simp] theorem flushed_cmdPort : (flushed s).cmdPort = s.cmdPort := rfl
@[simp] theorem flushed_capIn : (flushed s).capIn = s.capIn := rfl
@[simp] theorem flushed_flushIn : (flushed s).flushIn = s.flushIn.tail := rfl
@[simp] theorem flushed_freeCtr : (flushed s).freeCtr = s.freeCtr + (1 - s.flushIn.length) := rfl
@[simp] theorem flushed_params : (flushed s).params = s.params := rfl

/-! ### raise -/

@[simp] theorem raise_tapCur (r : Result) (k : Option Nat) : (raise r k s).tapCur = s.tapCur := rfl
@[simp] theorem raise_tapGoal (r : Result) (k : Option Nat) : (raise r k s).tapGoal = s.tapGoal := rfl
@[simp] theorem raise_swdQ (r : Result) (k : Option Nat) : (raise r k s).swdQ = s.swdQ := rfl
@[simp] theorem raise_swdLen (r : Result) (k : Option Nat) : (raise r k s).swdLen = s.swdLen := rfl
@[simp] theorem raise_swdCap (r : Result) (k : Option Nat) : (raise r k s).swdCap = s.swdCap := rfl
@[simp] theorem raise_swdSticky (r : Result) (k : Option Nat) : (raise r k s).swdSticky = s.swdSticky := rfl
@[simp] theorem raise_swdioDir (r : Result) (k : Option Nat) : (raise r k s).swdioDir = s.swdioDir := rfl
@[simp] theorem raise_fatal (r : Result) (k : Option Nat) : (raise r k s).fatal = (s.fatal || r.isFatal) := rfl
@[simp] theorem raise_trace (r : Result) (k : Option Nat) : (raise r k s).trace = s.trace := rfl
@[simp] theorem raise_lastResult (r : Result) (k : Option Nat) : (raise r k s).lastResult = ⟨r, k⟩ := rfl
@[simp] theorem raise_slots (r : Result) (k : Option Nat) : (raise r k s).slots = s.slots := rfl
@[simp] theorem raise_nextSlot (r : Result) (k : Option Nat) : (raise r k s).nextSlot = s.nextSlot := rfl
@[simp] theorem raise_lastHandle (r : Result) (k : Option Nat) : (raise r k s).lastHandle = s.lastHandle := rfl
@[simp] theorem raise_captured (r : Result) (k : Option Nat) : (raise r k s).captured = s.captured := rfl
@[simp] theorem raise_nextBuf (r : Result) (k : Option Nat) : (raise r k s).nextBuf = s.nextBuf := rfl
@[simp] theorem raise_pending (r : Result) (k : Option Nat) : (raise r k s).pending = s.pending := rfl
@[simp] theorem raise_cmdPort (r : Result) (k : Option Nat) : (raise r k s).cmdPort = s.cmdPort := rfl
@[simp] theorem raise_capIn (r : Result) (k : Option Nat) : (raise r k s).capIn = s.capIn := rfl
@[simp] theorem raise_flushIn (r : Result) (k : Option Nat) : (raise r k s).flushIn = s.flushIn := rfl
@[simp] theorem raise_freeCtr (r : Result) (k : Option Nat) : (raise r k s).freeCtr = s.freeCtr := rfl
@[simp] theorem raise_params (r : Result) (k : Option Nat) : (raise r k s).params = s.params := rfl

/-! ### loseTap -/

@[simp] theorem loseTap_tapCur : (loseTap s).tapCur = Config.freeTapState s.freeCtr := rfl
@[simp] theorem loseTap_tapGoal : (loseTap s).tapGoal = Config.freeTapState (s.freeCtr + 1) := rfl
@[simp] theorem loseTap_swdQ : (loseTap s).swdQ = s.swdQ := rfl
@[simp] theorem loseTap_swdLen : (loseTap s).swdLen = s.swdLen := rfl
@[simp] theorem loseTap_swdCap : (loseTap s).swdCap = s.swdCap := rfl
@[simp] theorem loseTap_swdSticky : (loseTap s).swdSticky = s.swdSticky := rfl
@[simp] theorem loseTap_swdioDir : (loseTap s).swdioDir = s.swdioDir := rfl
@[simp] theorem loseTap_fatal : (loseTap s).fatal = s.fatal := rfl
@[simp] theorem loseTap_trace : (loseTap s).trace = s.trace := rfl
@[simp] theorem loseTap_lastResult : (loseTap s).lastResult = s.lastResult := rfl
@[simp] theorem loseTap_slots : (loseTap s).slots = s.slots := rfl
@[simp] theorem loseTap_nextSlot : (loseTap s).nextSlot = s.nextSlot := rfl
@[simp] theorem loseTap_lastHandle : (loseTap s).lastHandle = s.lastHandle := rfl
@[simp] theorem loseTap_captured : (loseTap s).captured = s.captured := rfl
@[simp] theorem loseTap_nextBuf : (loseTap s).nextBuf = s.nextBuf := rfl
@[simp] theorem loseTap_pending : (loseTap s).pending = s.pending := rfl
@[simp] theorem loseTap_cmdPort : (loseTap s).cmdPort = s.cmdPort := rfl
@[simp] theorem loseTap_capIn : (loseTap s).capIn = s.capIn := rfl
@[simp] theorem loseTap_flushIn : (loseTap s).flushIn = s.flushIn := rfl
@[simp] theorem loseTap_freeCtr : (loseTap s).freeCtr = s.freeCtr + 2 := rfl
@[simp] theorem loseTap_params : (loseTap s).params = s.params := rfl

/-! ### placeEntry -/

@[simp] theorem placeEntry_tapCur (e : Entry) : (placeEntry e s).tapCur = s.tapCur := rfl
@[simp] theorem placeEntry_tapGoal (e : Entry) : (placeEntry e s).tapGoal = s.tapGoal := rfl
@[simp] theorem placeEntry_swdQ (e : Entry) : (placeEntry e s).swdQ = s.swdQ.take s.swdLen ++ e :: s.swdQ.drop (s.swdLen + 1) := rfl
@[simp] theorem placeEntry_swdLen (e : Entry) : (placeEntry e s).swdLen = s.swdLen := rfl
@[simp] theorem placeEntry_swdCap (e : Entry) : (placeEntry e s).swdCap = s.swdCap := rfl
@[simp] theorem placeEntry_swdSticky (e : Entry) : (placeEntry e s).swdSticky = s.swdSticky := rfl
@[simp] theorem placeEntry_swdioDir (e : Entry) : (placeEntry e s).swdioDir = s.swdioDir := rfl
@[simp] theorem placeEntry_fatal (e : Entry) : (placeEntry e s).fatal = s.fatal := rfl
@[simp] theorem placeEntry_trace (e : Entry) : (placeEntry e s).trace = s.trace := rfl
@[simp] theorem placeEntry_lastResult (e : Entry) : (placeEntry e s).lastResult = s.lastResult := rfl
@[simp] theorem placeEntry_slots (e : Entry) : (placeEntry e s).slots = s.slots := rfl
@[simp] theorem placeEntry_nextSlot (e : Entry) : (placeEntry e s).nextSlot = s.nextSlot := rfl
@[simp] theorem placeEntry_lastHandle (e : Entry) : (placeEntry e s).lastHandle = s.lastHandle := rfl
@[simp] theorem placeEntry_captured (e : Entry) : (placeEntry e s).captured = s.captured := rfl
@[simp] theorem placeEntry_nextBuf (e : Entry) : (placeEntry e s).nextBuf = s.nextBuf := rfl
@[simp] theorem placeEntry_pending (e : Entry) : (placeEntry e s).pending = s.pending := rfl
@[simp] theorem placeEntry_cmdPort (e : Entry) : (placeEntry e s).cmdPort = s.cmdPort := rfl
@[simp] theorem placeEntry_capIn (e : Entry) : (placeEntry e s).capIn = s.capIn := rfl
@[simp] theorem placeEntry_flushIn (e : Entry) : (placeEntry e s).flushIn = s.flushIn := rfl
@[simp] theorem placeEntry_freeCtr (e : Entry) : (placeEntry e s).freeCtr = s.freeCtr + e.raw.length := rfl
@[simp] theorem placeEntry_params (e : Entry) : (placeEntry e s).params = s.params := rfl

/-! ### storeCap: only a queue entry's `raw` or a capture buffer -/

@[simp] theorem storeCap_tapCur (c : CapDest) (bits : List Bool) : (storeCap c bits s).tapCur = s.tapCur := by cases c <;> rfl
@[simp] theorem storeCap_tapGoal (c : CapDest) (bits : List Bool) : (storeCap c bits s).tapGoal = s.tapGoal := by cases c <;> rfl
@[simp] theorem storeCap_swdLen (c : CapDest) (bits : List Bool) : (storeCap c bits s).swdLen = s.swdLen := by cases c <;> rfl
@[simp] theorem storeCap_swdCap (c : CapDest) (bits : List Bool) : (storeCap c bits s).swdCap = s.swdCap := by cases c <;> rfl
@[simp] theorem storeCap_swdSticky (c : CapDest) (bits : List Bool) : (storeCap c bits s).swdSticky = s.swdSticky := by cases c <;> rfl
@[simp] theorem storeCap_swdioDir (c : CapDest) (bits : List Bool) : (storeCap c bits s).swdioDir = s.swdioDir := by cases c <;> rfl
@[simp] theorem storeCap_fatal (c : CapDest) (bits : List Bool) : (storeCap c bits s).fatal = s.fatal := by cases c <;> rfl
@[simp] theorem storeCap_trace (c : CapDest) (bits : List Bool) : (storeCap c bits s).trace = s.trace := by cases c <;> rfl
@[simp] theorem storeCap_lastResult (c : CapDest) (bits : List Bool) : (storeCap c bits s).lastResult = s.lastResult := by cases c <;> rfl
@[simp] theorem storeCap_slots (c : CapDest) (bits : List Bool) : (storeCap c bits s).slots = s.slots := by cases c <;> rfl
@[simp] theorem storeCap_nextSlot (c : CapDest) (bits : List Bool) : (storeCap c bits s).nextSlot = s.nextSlot := by cases c <;> rfl
@[simp] theorem storeCap_lastHandle (c : CapDest) (bits : List Bool) : (storeCap c bits s).lastHandle = s.lastHandle := by cases c <;> rfl
@[simp] theorem storeCap_nextBuf (c : CapDest) (bits : List Bool) : (storeCap c bits s).nextBuf = s.nextBuf := by cases c <;> rfl
@[simp] theorem storeCap_pending (c : CapDest) (bits : List Bool) : (storeCap c bits s).pending = s.pending := by cases c <;> rfl
@[simp] theorem storeCap_cmdPort (c : CapDest) (bits : List Bool) : (storeCap c bits s).cmdPort = s.cmdPort := by cases c <;> rfl
@[simp] theorem storeCap_capIn (c : CapDest) (bits : List Bool) : (storeCap c bits s).capIn = s.capIn := by cases c <;> rfl
@[simp] theorem storeCap_flushIn (c : CapDest) (bits : List Bool) : (storeCap c bits s).flushIn = s.flushIn := by cases c <;> rfl
@[simp] theorem storeCap_freeCtr (c : CapDest) (bits : List Bool) : (storeCap c bits s).freeCtr = s.freeCtr := by cases c <;> rfl
@[simp] theorem storeCap_params (c : CapDest) (bits : List Bool) : (storeCap c bits s).params = s.params := by cases c <;> rfl

/-! ### deliver -/

@[simp] theorem deliver_tapCur (e : Event) : (deliver s e).tapCur = s.tapCur := by simp [deliver]
@[simp] theorem deliver_tapGoal (e : Event) : (deliver s e).tapGoal = s.tapGoal := by simp [deliver]
@[simp] theorem deliver_swdLen (e : Event) : (deliver s e).swdLen = s.swdLen := by simp [deliver]
@[simp] theorem deliver_swdCap (e : Event) : (deliver s e).swdCap = s.swdCap := by simp [deliver]
@[simp] theorem deliver_swdSticky (e : Event) : (deliver s e).swdSticky = s.swdSticky := by simp [deliver]
@[simp] theorem deliver_swdioDir (e : Event) : (deliver s e).swdioDir = s.swdioDir := by simp [deliver]
@[simp] theorem deliver_fatal (e : Event) : (deliver s e).fatal = s.fatal := by simp [deliver]
@[simp] theorem deliver_trace (e : Event) : (deliver s e).trace = s.trace := by simp [deliver]
@[simp] theorem deliver_lastResult (e : Event) : (deliver s e).lastResult = s.lastResult := by simp [deliver]
@[simp] theorem deliver_slots (e : Event) : (deliver s e).slots = s.slots := by simp [deliver]
@[simp] theorem deliver_nextSlot (e : Event) : (deliver s e).nextSlot = s.nextSlot := by simp [deliver]
@[simp] theorem deliver_lastHandle (e : Event) : (deliver s e).lastHandle = s.lastHandle := by simp [deliver]
@[simp] theorem deliver_nextBuf (e : Event) : (deliver s e).nextBuf = s.nextBuf := by simp [deliver]
@[simp] theorem deliver_pending (e : Event) : (deliver s e).pending = s.pending := by simp [deliver]
@[simp] theorem deliver_cmdPort (e : Event) : (deliver s e).cmdPort = s.cmdPort := by simp [deliver]
@[simp] theorem deliver_flushIn (e : Event) : (deliver s e).flushIn = s.flushIn := by simp [deliver]
@[simp] theorem deliver_params (e : Event) : (deliver s e).params = s.params := by simp [deliver]

/-! ### lose -/

@[simp] theorem lose_tapCur (e : Event) : (lose s e).tapCur = s.tapCur := by simp [lose]
@[simp] theorem lose_tapGoal (e : Event) : (lose s e).tapGoal = s.tapGoal := by simp [lose]
@[simp] theorem lose_swdLen (e : Event) : (lose s e).swdLen = s.swdLen := by simp [lose]
@[simp] theorem lose_swdCap (e : Event) : (lose s e).swdCap = s.swdCap := by simp [lose]
@[simp] theorem lose_swdSticky (e : Event) : (lose s e).swdSticky = s.swdSticky := by simp [lose]
@[simp] theorem lose_swdioDir (e : Event) : (lose s e).swdioDir = s.swdioDir := by simp [lose]
@[simp] theorem lose_fatal (e : Event) : (lose s e).fatal = s.fatal := by simp [lose]
@[simp] theorem lose_trace (e : Event) : (lose s e).trace = s.trace := by simp [lose]
@[simp] theorem lose_lastResult (e : Event) : (lose s e).lastResult = s.lastResult := by simp [lose]
@[simp] theorem lose_slots (e : Event) : (lose s e).slots = s.slots := by simp [lose]
@[simp] theorem lose_nextSlot (e : Event) : (lose s e).nextSlot = s.nextSlot := by simp [lose]
@[simp] theorem lose_lastHandle (e : Event) : (lose s e).lastHandle = s.lastHandle := by simp [lose]
@[simp] theorem lose_nextBuf (e : Event) : (lose s e).nextBuf = s.nextBuf := by simp [lose]
@[simp] theorem lose_pending (e : Event) : (lose s e).pending = s.pending := by simp [lose]
@[simp] theorem lose_cmdPort (e : Event) : (lose s e).cmdPort = s.cmdPort := by simp [lose]
@[simp] theorem lose_capIn (e : Event) : (lose s e).capIn = s.capIn := by simp [lose]
@[simp] theorem lose_flushIn (e : Event) : (lose s e).flushIn = s.flushIn := by simp [lose]
@[simp] theorem lose_params (e : Event) : (lose s e).params = s.params := by simp [lose]

end Sys2Proof.Machine
end

