-- ==== Sys2Proof/Laws/Tracker.lean ====
section
/-! SUPPORT. Facts of the transition and path tables, each once, for the proofs to cite. -/

namespace Sys2Proof.Machine

open Sys2Proof (TapState)

@[simp] theorem tapWalk_nil (t : TapState) : tapWalk t [] = t := rfl

@[simp] theorem tapWalk_cons (t : TapState) (b : Bool) (l : List Bool) :
    tapWalk t (b :: l) = tapWalk (tapNext t b) l := rfl

theorem tapWalk_append (t : TapState) (l m : List Bool) : tapWalk t (l ++ m) = tapWalk (tapWalk t l) m :=
  List.foldl_append

/-- R133 (b): at most one TMS level leads to a given next state. -/
theorem tapNext_inj (t : TapState) {b c : Bool} (h : tapNext t b = tapNext t c) : b = c := by
  revert h; cases t <;> cases b <;> cases c <;> decide

/-- R168: `tmsTo` finds the level that leads there. -/
theorem tmsTo_next (t : TapState) (b : Bool) : tmsTo t (tapNext t b) = some b := by
  cases t <;> cases b <;> rfl

/-- R168: what `tmsTo` answers leads there. -/
theorem next_of_tmsTo {t u : TapState} {b : Bool} (h : tmsTo t u = some b) : tapNext t b = u := by
  unfold tmsTo at h
  split at h
  · next h0 => cases h; exact h0
  · split at h
    · next h1 => cases h; exact h1
    · cases h

/-- R133 (a): a self-loop of the TMS level 0, for as many cycles as one likes. -/
theorem tapWalk_replicate_loop {t : TapState} {b : Bool} (h : tapNext t b = t) (n : Nat) :
    tapWalk t (List.replicate n b) = t := by
  induction n with
  | zero => rfl
  | succ n ih => rw [List.replicate_succ, tapWalk_cons, h, ih]

/-- R134, R135: `path` answers exactly between path states. -/
theorem path_isSome (a b : TapState) : (path a b).isSome = (a.isPath && b.isPath) := by
  cases a <;> cases b <;> decide

/-- R138 (a): a path leads to its goal. -/
theorem tapWalk_path {a b : TapState} {l : List Bool} (h : path a b = some l) : tapWalk a l = b := by
  have all : ∀ a b : TapState, ∀ l ∈ path a b, tapWalk a l = b := by
    intro a b; cases a <;> cases b <;> decide
  exact all a b l h

/-- R137: the only path without bits is from a state other than RESET to itself. -/
theorem path_nil_iff {a b : TapState} {l : List Bool} (h : path a b = some l) : l = [] ↔ a = b ∧ a ≠ .reset := by
  have all : ∀ a b : TapState, ∀ l ∈ path a b, (l = [] ↔ a = b ∧ a ≠ .reset) := by
    intro a b; cases a <;> cases b <;> decide
  exact all a b l h

/-- R14: the stable states are path states. -/
theorem isPath_of_isStable {t : TapState} (h : t.isStable = true) : t.isPath = true := by simp [TapState.isPath, h]

end Sys2Proof.Machine
end

