-- ==== Sys2Proof/Laws/Ops.lean ====
section
/-! SUPPORT. One lemma per shared operation that says everything it does, as a record update over `emitAll`; later proofs
cite these and unfold nothing. -/

namespace Sys2Proof.Machine

open Sys2Proof (TapState)

@[simp] theorem emitAll_nil (s : State) : emitAll [] s = s := by simp [emitAll]

@[simp] theorem emitAll_emitAll (es fs : List Event) (s : State) :
    emitAll fs (emitAll es s) = emitAll (es ++ fs) s := by simp [emitAll]

theorem emit_eq (e : Event) (s : State) : emit e s = emitAll [e] s := rfl

theorem emitTms_eq (bits : List Bool) (s : State) : emitTms bits s = emitAll (tmsEvents bits) s := by
  unfold emitTms tmsEvents
  split <;> simp [emit_eq]

theorem clockTms_eq (bits : List Bool) (s : State) :
    clockTms bits s = { emitAll (tmsEvents bits) s with tapCur := tapWalk s.tapCur bits } := by
  unfold clockTms track
  rw [emitTms_eq]
  rfl

theorem emitIdle_eq (k : Nat) (s : State) :
    emitIdle k s = emitAll (if k = 0 then [] else [.bits (swdWire s.params) (some (List.replicate k false)) k .none]) s := by
  unfold emitIdle
  split <;> simp [emit_eq]

/-! ### Moves -/

/-- R139: between stable ends, `move` is one TMS event of the path and lands on its goal. -/
theorem move_ok {s : State} {goal : TapState} {bits : List Bool} (hg : goal.isStable = true)
    (hp : path s.tapCur goal = some bits) :
    move goal s = ({ emitAll (tmsEvents bits) s with tapCur := goal }, .ok) := by
  simp only [move, hg, if_true, hp, clockTms_eq, tapWalk_path hp]

/-- R135, R139: `move` fails before any event where the goal is not stable or the start is no path state. -/
theorem move_fail {s : State} {goal : TapState} (h : goal.isStable = false ∨ s.tapCur.isPath = false) :
    move goal s = (s, .invalidTransition s.tapCur goal) := by
  unfold move
  split
  · next hg =>
    have hn : path s.tapCur goal = none := by
      have := path_isSome s.tapCur goal
      rcases h with h | h
      · simp [h] at hg
      · simpa [h] using this
    simp [hn]
  · rfl

/-! ### Bursts -/

/-- R162: `cycles = q * m + r` is cut into `q` full bursts and, if `r > 0`, one of `r`. -/
theorem burstLens_eq {m : Nat} (hm : 0 < m) (fuel cycles : Nat) (hf : cycles ≤ fuel) :
    burstLens m fuel cycles =
      List.replicate (cycles / m) m ++ (if cycles % m = 0 then [] else [cycles % m]) := by
  induction fuel generalizing cycles with
  | zero =>
    obtain rfl : cycles = 0 := by omega
    simp [burstLens]
  | succ f ih =>
    rw [burstLens]
    split
    · next h0 => simp [h0]
    · next h0 =>
      by_cases h : m ≤ cycles
      · rw [Nat.min_eq_right h, ih (cycles - m) (by omega), Nat.div_eq_sub_div hm h, Nat.mod_eq_sub_mod h,
          List.replicate_succ]
        rfl
      · have h' : cycles < m := by omega
        rw [Nat.min_eq_left (by omega), ih _ (by omega)]
        simp [Nat.div_eq_of_lt h', Nat.mod_eq_of_lt h', h0]

/-- R162: in a state the level holds, `clock_bursts` emits its bursts and changes nothing else. -/
theorem clockBursts_eq {s : State} {level : Bool} (cycles : Nat) (h : tapNext s.tapCur level = s.tapCur) :
    clockBursts level cycles s = emitAll (burstEvents s.params.tmsBurstMax level cycles) s := by
  have hm : 0 < s.params.tmsBurstMax := Nat.succ_pos _
  have one : ∀ (k : Nat) (t : State), 0 < k → t.tapCur = s.tapCur →
      clockTms (List.replicate k level) t = emitAll [.tms (List.replicate k level) false .none] t := by
    intro k t hk ht
    have hne : List.replicate k level ≠ [] := by simp; omega
    rw [clockTms_eq, ht, tapWalk_replicate_loop h]
    simp only [tmsEvents, hne, if_false]
    cases t; simp only at ht; simp [emitAll, ht]
  have fold : ∀ (ks : List Nat) (t : State), (∀ k ∈ ks, 0 < k) → t.tapCur = s.tapCur →
      ks.foldl (fun t k => clockTms (List.replicate k level) t) t =
        emitAll (ks.map fun k => .tms (List.replicate k level) false .none) t := by
    intro ks
    induction ks with
    | nil => intro t _ _; simp
    | cons k r ih =>
      intro t hk ht
      rw [List.foldl_cons, one k t (hk k (by simp)) ht, ih _ (fun x hx => hk x (by simp [hx])) (by simpa [emitAll] using ht),
        emitAll_emitAll, List.map_cons]
      rfl
  unfold clockBursts
  rw [burstLens_eq hm _ _ (Nat.le_refl _), fold _ _ _ rfl]
  · congr 1
    simp only [burstEvents, List.map_append, List.map_replicate]
    split <;> simp
  · intro k hk
    rw [List.mem_append] at hk
    rcases hk with hk | hk
    · rw [List.eq_of_mem_replicate hk]; exact hm
    · split at hk
      · simp at hk
      · simp only [List.mem_singleton] at hk; omega

/-! ### Flushes: everything they leave alone -/

theorem foldl_deliver_fixed {β : Type} (f : State → β) (hf : ∀ s e, f (deliver s e) = f s) (es : List Event)
    (s : State) : f (es.foldl deliver s) = f s := by
  induction es generalizing s with
  | nil => rfl
  | cons e r ih => rw [List.foldl_cons, ih, hf]

theorem foldl_lose_fixed {β : Type} (f : State → β) (hf : ∀ s e, f (lose s e) = f s) (es : List Event)
    (s : State) : f (es.foldl lose s) = f s := by
  induction es generalizing s with
  | nil => rfl
  | cons e r ih => rw [List.foldl_cons, ih, hf]

/-- What the fold of a flush leaves alone, the flush leaves as `flushed` has it. -/
theorem flush_fixed {β : Type} (f : State → β) (hd : ∀ s e, f (deliver s e) = f s) (hl : ∀ s e, f (lose s e) = f s)
    (s : State) : f (flush s) = f (flushed s) := by
  unfold flush
  split
  · exact foldl_deliver_fixed f hd _ _
  · exact foldl_lose_fixed f hl _ _

@[simp] theorem flush_tapCur (s : State) : (flush s).tapCur = s.tapCur := flush_fixed (·.tapCur) (by simp) (by simp) s
@[simp] theorem flush_tapGoal (s : State) : (flush s).tapGoal = s.tapGoal := flush_fixed (·.tapGoal) (by simp) (by simp) s
@[simp] theorem flush_swdLen (s : State) : (flush s).swdLen = s.swdLen := flush_fixed (·.swdLen) (by simp) (by simp) s
@[simp] theorem flush_swdCap (s : State) : (flush s).swdCap = s.swdCap := flush_fixed (·.swdCap) (by simp) (by simp) s
@[simp] theorem flush_swdSticky (s : State) : (flush s).swdSticky = s.swdSticky :=
  flush_fixed (·.swdSticky) (by simp) (by simp) s
@[simp] theorem flush_swdioDir (s : State) : (flush s).swdioDir = s.swdioDir :=
  flush_fixed (·.swdioDir) (by simp) (by simp) s
@[simp] theorem flush_fatal (s : State) : (flush s).fatal = s.fatal := flush_fixed (·.fatal) (by simp) (by simp) s
@[simp] theorem flush_trace (s : State) : (flush s).trace = s.trace ++ [.flush] :=
  flush_fixed (·.trace) (by simp) (by simp) s
@[simp] theorem flush_lastResult (s : State) : (flush s).lastResult = s.lastResult :=
  flush_fixed (·.lastResult) (by simp) (by simp) s
@[simp] theorem flush_slots (s : State) : (flush s).slots = s.slots := flush_fixed (·.slots) (by simp) (by simp) s
@[simp] theorem flush_nextSlot (s : State) : (flush s).nextSlot = s.nextSlot :=
  flush_fixed (·.nextSlot) (by simp) (by simp) s
@[simp] theorem flush_lastHandle (s : State) : (flush s).lastHandle = s.lastHandle :=
  flush_fixed (·.lastHandle) (by simp) (by simp) s
@[simp] theorem flush_nextBuf (s : State) : (flush s).nextBuf = s.nextBuf := flush_fixed (·.nextBuf) (by simp) (by simp) s
@[simp] theorem flush_pending (s : State) : (flush s).pending = [] := flush_fixed (·.pending) (by simp) (by simp) s
@[simp] theorem flush_cmdPort (s : State) : (flush s).cmdPort = s.cmdPort := flush_fixed (·.cmdPort) (by simp) (by simp) s
@[simp] theorem flush_flushIn (s : State) : (flush s).flushIn = s.flushIn.tail :=
  flush_fixed (·.flushIn) (by simp) (by simp) s
@[simp] theorem flush_params (s : State) : (flush s).params = s.params := flush_fixed (·.params) (by simp) (by simp) s

/-- A flush changes nothing of a queue entry but its `raw` buffer. -/
@[simp] theorem flush_swdQ_request (s : State) : (flush s).swdQ.map Entry.request = s.swdQ.map Entry.request := by
  have h : ∀ (c : CapDest) (b : List Bool) (t : State),
      (storeCap c b t).swdQ.map Entry.request = t.swdQ.map Entry.request := by
    intro c b t
    cases c with
    | raw i n =>
      apply List.ext_getElem?
      intro j
      simp only [storeCap, List.getElem?_map, List.getElem?_modify, Option.map_eq_map, Option.map_map]
      by_cases hj : i = j
      · simp only [hj, if_true, Function.comp_def]
        rfl
      · simp only [hj, if_false, Function.comp_def]
    | none | buf => rfl
  exact flush_fixed (fun t => t.swdQ.map Entry.request) (fun t e => by simp [deliver, h]) (fun t e => by simp [lose, h]) s

/-- A flush fills `raw` buffers but adds and removes no queue entry. -/
@[simp] theorem flush_swdQ_length (s : State) : (flush s).swdQ.length = s.swdQ.length := by
  have h : ∀ (c : CapDest) (b : List Bool) (t : State), (storeCap c b t).swdQ.length = t.swdQ.length := by
    intro c b t; cases c <;> simp [storeCap]
  exact flush_fixed (fun t => t.swdQ.length) (fun t e => by simp [deliver, h]) (fun t e => by simp [lose, h]) s

/-- R277: a batch without capture destinations is flushed without a delivery. -/
theorem flush_of_no_caps {s : State} (h : ∀ e ∈ s.pending, e.cap = .none) : flush s = flushed s := by
  have hd : ∀ (t : State) (e : Event), e.cap = .none → deliver t e = t := by
    intro t e he; cases t; simp [deliver, he, storeCap, capDrawn, CapDest.len]
  have hl : ∀ (t : State) (e : Event), e.cap = .none → lose t e = t := by
    intro t e he; cases t; simp [lose, he, storeCap, CapDest.len]
  have fold : ∀ (f : State → Event → State), (∀ t e, e.cap = .none → f t e = t) →
      ∀ (es : List Event) (t : State), (∀ e ∈ es, e.cap = .none) → es.foldl f t = t := by
    intro f hf es
    induction es with
    | nil => intro t _; rfl
    | cons e r ih =>
      intro t he
      rw [List.foldl_cons, hf t e (he e (by simp)), ih t (fun x hx => he x (by simp [hx]))]
  unfold flush
  split
  · exact fold deliver hd _ _ h
  · exact fold lose hl _ _ h

/-! ### Captured bits -/

@[simp] theorem capBits_length (n : Nat) (s : State) : (capBits n s).length = n := by
  simp [capBits]; omega

/-- R70: where the environment supplies enough bits, these are the bits captured. -/
theorem capBits_eq_take {n : Nat} {s : State} (h : n ≤ s.capIn.length) : capBits n s = s.capIn.take n := by
  simp [capBits, Nat.sub_eq_zero_of_le h]

/-! ### The SWD run -/

/-- R210: a decode changes the queue's entries and the slots, and nothing else. -/
theorem decodeQueue_frame (s : State) :
    ∃ q sl, (decodeQueue s).1 = { s with swdQ := q, slots := sl } := ⟨_, _, rfl⟩

theorem decodeEntries_length (p : Params) (i : Nat) (es : List Entry) (m : Store Word) :
    (decodeEntries p i es m).1.length = es.length := by
  induction es generalizing i m with
  | nil => rfl
  | cons e r ih =>
    unfold decodeEntries
    split
    · rfl
    · simp [ih]

/-- R217, R218, R220: no result of a decode is of the fatal set. -/
theorem decodeEntries_not_fatal (p : Params) (i : Nat) (es : List Entry) (m : Store Word) :
    (decodeEntries p i es m).2.2.isFatal = false := by
  induction es generalizing i m with
  | nil => rfl
  | cons e r ih =>
    unfold decodeEntries
    split
    · next err he =>
      simp only [judge] at he
      split at he
      · cases he; unfold ackError; split <;> rfl
      · split at he
        · split at he <;> cases he
          rfl
        · cases he
    · exact ih _ _

/-- R216: after every run the queue is empty, the sticky error clear, and the result port holds the run's result. -/
theorem runQueue_end (answer : Option (Nat × BitVec 3)) (s : State) :
    (runQueue answer s).1.swdLen = 0 ∧ (runQueue answer s).1.swdSticky = .ok ∧
      (runQueue answer s).1.lastResult = ⟨(runQueue answer s).2, none⟩ := ⟨rfl, rfl, rfl⟩

/-- R211: a run that finds the sticky error set emits nothing and decodes nothing. -/
theorem runQueue_sticky {s : State} (answer : Option (Nat × BitVec 3)) (h : s.swdSticky ≠ .ok) :
    runQueue answer s =
      ({ s with swdLen := 0, swdSticky := .ok, lastResult := ⟨s.swdSticky, none⟩ }, s.swdSticky) := by
  simp [runQueue, h, endRun]

end Sys2Proof.Machine
end

