-- ==== Sys2Proof/Laws/Jtag.lean ====
section
/-! SUPPORT. What each part of a JTAG command does, in closed form, and that no operation reads the result port or writes the latch. -/

namespace Sys2Proof.Machine

open Sys2Proof (TapState ScanField JtagOp Instr)

/-- A command taken with the latch clear runs its body. -/
theorem command_ok {body : State → State} {s : State} (h : s.fatal = false) : command body s = .next (body s) := by
  simp [command, h]

/-- R311: with the latch set it does nothing. -/
theorem command_fatal {body : State → State} {s : State} (h : s.fatal = true) : command body s = .next s := by simp [command, h]

theorem finish_ok (idx : Option Nat) (s : State) : finish idx (s, .ok) = { s with lastResult := ⟨.ok, none⟩ } := rfl

theorem finish_invalid (idx : Option Nat) (s : State) (a b) : finish idx (s, .invalidTransition a b) = { s with lastResult := ⟨.invalidTransition a b, idx⟩, fatal := true } := by
  simp [finish, raise, Result.isFatal]

theorem finish_transport (idx : Option Nat) (s : State) : finish idx (s, .transportError) = { s with lastResult := ⟨.transportError, idx⟩ } := by
  simp [finish, raise, Result.isFatal]

/-- Ending a command writes the result port and the latch, and nothing else. -/
theorem finish_frame (idx r) : ∃ res f, finish idx r = { r.1 with lastResult := res, fatal := f } := by
  unfold finish; split
  · exact ⟨_, _, rfl⟩
  · exact ⟨_, _, rfl⟩

/-- The result port ends with the error of the command. -/
theorem finish_result (r : Run) : (finish none r).lastResult.result = r.2 := by
  unfold finish; split
  · simp [*]
  · rfl

theorem tapWalk_five_ones (t : TapState) (n) (h : 5 ≤ n) : tapWalk t (List.replicate n true) = .reset := by
  obtain ⟨m, rfl⟩ := Nat.exists_eq_add_of_le h
  rw [← List.replicate_append_replicate, tapWalk_append]
  have : tapWalk t (List.replicate 5 true) = .reset := by cases t <;> rfl
  rw [this]; exact tapWalk_replicate_loop rfl m

theorem tmsBurstMax_pos (s : State) : 0 < s.params.tmsBurstMax := Nat.succ_pos _

/-- R180: each stable state has a self-loop, at TMS 1 in RESET and at 0 elsewhere. -/
theorem tapNext_stable_loop {t : TapState} (h : t.isStable = true) : tapNext t (decide (t = .reset)) = t := by
  revert h; cases t <;> decide

/-- The guarded move of R163, R172 and R176, where it succeeds: it is the move, since a path to where the TAP is is empty. -/
theorem moveUnlessThere_ok {s : State} {g : TapState} {p} (hg : g.isStable = true) (hp : path s.tapCur g = some p) (hr : g ≠ .reset ∨ s.tapCur ≠ .reset) :
   moveUnlessThere g s = ({ emitAll (tmsEvents p) s with tapCur := g }, .ok) := by
  unfold moveUnlessThere
  split
  · next h =>
    have : p = [] := (path_nil_iff hp).2 ⟨h, by rcases hr with hr | hr; exact h ▸ hr; exact hr⟩
    subst this; cases s; simp at h; simp [tmsEvents, h]
  · exact move_ok hg hp

/-- The guarded move where it fails: before any event. -/
theorem moveUnlessThere_fail {s : State} {g : TapState} (h : s.tapCur ≠ g) (h2 : g.isStable = false ∨ s.tapCur.isPath = false) : moveUnlessThere g s = (s, .invalidTransition s.tapCur g) := by
  simp [moveUnlessThere, h, move_fail h2]

/-- R168: the loop of `pathmove` along a walk: the full bursts it emits, and the burst it holds at the end. -/
theorem pathWalk_walk (l : List Bool) : ∀ (rest : List TapState) (burst : List Bool) (s : State), burst.length < s.params.tmsBurstMax →
    ∃ (full : List (List Bool)) (tail : List Bool), burst ++ l = full.flatten ++ tail ∧ (∀ b ∈ full, b.length = s.params.tmsBurstMax)
     ∧ tail.length < s.params.tmsBurstMax ∧
     pathWalk (walkStates s.tapCur l ++ rest) burst s = pathWalk rest tail { emitAll (burstsToEvents full) s with tapCur := tapWalk s.tapCur l } := by
  induction l with
  | nil => intro rest burst s h; exact ⟨[], burst, by simp, by simp, h, by simp [burstsToEvents, walkStates]⟩
  | cons b r ih =>
    intro rest burst s h
    simp only [walkStates, List.cons_append, pathWalk, tmsTo_next]
    split
    · next hl =>
      have hne : burst ++ [b] ≠ [] := by simp
      obtain ⟨full, tail, h1, h2, h3, h4⟩ := ih rest [] (emitTms (burst ++ [b]) (track [b] s)) (by simpa [emitTms, track, emit, hne] using tmsBurstMax_pos s)
      refine ⟨(burst ++ [b]) :: full, tail, ?_, ?_, ?_, ?_⟩
      · simp only [List.nil_append] at h1; simp [h1]
      · intro x hx; rcases List.mem_cons.1 hx with rfl | hx
        · exact hl
        · simpa [emitTms, track, emit, hne] using h2 x hx
      · simpa [emitTms, track, emit, hne] using h3
      · simp [emitTms, track, emit, hne] at h4 ⊢
        rw [h4]
        simp [emitAll, burstsToEvents]
    · next hl =>
      have hlt : (burst ++ [b]).length < s.params.tmsBurstMax := by simp at hl ⊢; omega
      obtain ⟨full, tail, h1, h2, h3, h4⟩ := ih rest (burst ++ [b]) (track [b] s) hlt
      exact ⟨full, tail, by simpa using h1, h2, h3, by simpa [track, emitAll] using h4⟩

theorem emitField_eq (f : ScanField) (buf n : Nat) (s : State) : emitField f buf n s = emitAll (dataEvents s.params f buf n) s := by
  unfold emitField dataEvents
  split
  · simp
  · rfl

theorem emitFields_eq (l : List ScanField) (buf : Nat) (s : State) : emitFields l buf s = emitAll (fieldsEvents s.params l buf) s := by
  induction l generalizing buf s with
  | nil => simp [emitFields, fieldsEvents]
  | cons f r ih => rw [emitFields, ih, emitField_eq, emitAll_emitAll]; rfl

theorem emitLastField_eq (f : ScanField) (buf : Nat) (s : State) : emitLastField f buf s = { emitAll (lastFieldEvents s.params f buf) s with tapCur := tapNext s.tapCur true } := by
  unfold emitLastField
  simp only [emitField_eq, emit_eq, emitAll_emitAll, track, tapWalk_cons, tapWalk_nil]
  rfl

/-- R172: the last field of at least one bit ends the fields a scan drives. -/
theorem liveFields_last (pre : List ScanField) (f : ScanField) (post : List ScanField) (hf : 0 < f.len) (hp : ∀ g ∈ post, g.len = 0) :
   liveFields (pre ++ f :: post) = pre ++ [f] := by
  unfold liveFields
  simp only [List.reverse_append, List.reverse_cons, List.append_assoc]
  rw [List.dropWhile_append_of_pos (by intro a ha; simp at ha; simp [hp a ha])]
  simp; omega

theorem totalBits_zero_iff {l : List ScanField} : totalBits l = 0 ↔ ∀ f ∈ l, f.len = 0 := by
  induction l with
  | nil => simp [totalBits]
  | cons f r ih => simp [totalBits] at ih ⊢; rw [ih]; simp

theorem liveFields_zero {l : List ScanField} (h : totalBits l = 0) : liveFields l = [] := by
  unfold liveFields
  simp only [List.reverse_eq_nil_iff, List.dropWhile_eq_nil_iff]
  intro x hx
  simp at hx
  simp [totalBits_zero_iff.1 h x hx]

theorem totalBits_liveFields (l) : totalBits (liveFields l) = totalBits l := by
  have key : ∀ l : List ScanField, totalBits (l.dropWhile fun f => f.len == 0) = totalBits l := by
    intro l; induction l with
    | nil => rfl
    | cons f r ih =>
      by_cases h : f.len = 0
      · simp [h, ih]; simp [totalBits, h]
      · rw [List.dropWhile_cons_of_neg (by simpa using h)]
  have rev : ∀ l : List ScanField, totalBits l.reverse = totalBits l := by
    intro l; simp [totalBits]
  unfold liveFields; rw [rev, key, rev]

theorem exists_last_live (l : List ScanField) (h : totalBits l ≠ 0) : ∃ pre f post, l = pre ++ f :: post ∧ 0 < f.len ∧ ∀ g ∈ post, ScanField.len g = 0 := by
  induction l with
  | nil => simp [totalBits] at h
  | cons f r ih =>
    by_cases h2 : totalBits r = 0
    · refine ⟨[], f, r, rfl, ?_, ?_⟩
      · simp [totalBits] at h h2; omega
      · exact totalBits_zero_iff.1 h2
    · obtain ⟨pre, g, post, h3, h4, h5⟩ := ih h2
      exact ⟨f :: pre, g, post, by rw [h3]; rfl, h4, h5⟩

theorem moveShift_ok {ir : Bool} {s : State} {p} (hp : path s.tapCur (shiftState ir) = some p) :
    moveShift ir s = ({ emitAll (tmsEvents p) s with tapCur := shiftState ir }, .ok) := by
  unfold moveShift
  split
  · next h =>
    have hn : s.tapCur ≠ .reset := by rw [h]; cases ir <;> decide
    have : p = [] := (path_nil_iff hp).2 ⟨h, hn⟩
    subst this; cases s; simp at h; simp [tmsEvents, h]
  · rw [hp]; simp only [clockTms_eq, tapWalk_path hp]

theorem moveShift_fail {ir : Bool} {s : State} (h : s.tapCur.isPath = false) :
    moveShift ir s = (s, .invalidTransition s.tapCur (shiftState ir)) := by
  unfold moveShift
  rw [if_neg (by intro h'; rw [h'] at h; revert h; cases ir <;> decide)]
  have hn : path s.tapCur (shiftState ir) = none := by
    have := path_isSome s.tapCur (shiftState ir); simpa [h] using this
  rw [hn]

/-- R172: a scan up to EXIT1, in closed form. -/
theorem scanOp_eq {ir : Bool} {s : State} {p} (pre f post e) (hf : 0 < f.len) (hpost : ∀ g ∈ post, ScanField.len g = 0) (hp : path s.tapCur (shiftState ir) = some p) :
   scanOp ir (pre ++ f :: post) e s = leaveExit1 e { emitAll (tmsEvents p ++ fieldsEvents s.params pre s.nextBuf ++ lastFieldEvents s.params f (s.nextBuf + pre.length)) s with
     tapCur := tapNext (shiftState ir) true, tapGoal := e, nextBuf := s.nextBuf + pre.length + 1 } := by
  unfold scanOp
  rw [liveFields_last _ _ _ hf hpost]
  simp only [List.getLast?_append, List.getLast?_singleton, Option.some_or, moveShift_ok hp, Run.andThen, if_true, List.dropLast_concat, List.length_append, List.length_singleton, emitFields_eq, emitLastField_eq]
  simp [emitAll, Nat.add_assoc]

theorem tapWalk_exit1 (ir : Bool) : tapWalk (tapNext (shiftState ir) true) [false] = pauseState ir ∧ tapWalk (tapNext (shiftState ir) true) [true, false] = .idle := by
  cases ir <;> decide

/-- R172, R176: from EXIT1 to a stable end state. -/
theorem leaveExit1_ok {ir : Bool} {s : State} {e q} (hs : s.tapCur = tapNext (shiftState ir) true) (he : e.isStable = true) (hq : path (pauseState ir) e = some q) :
  leaveExit1 e s = ({ emitAll (if e = .idle then [.tms [true, false] false .none] else .tms [false] false .none :: tmsEvents q) s with tapCur := e }, .ok) := by
  unfold leaveExit1
  by_cases h : e = .idle
  · subst h
    simp only [if_true]
    rw [clockTms_eq, hs, (tapWalk_exit1 ir).2]
    rfl
  · simp only [h, if_false]
    rw [clockTms_eq, hs, (tapWalk_exit1 ir).1]
    rw [moveUnlessThere_ok he hq (.inr (by cases ir <;> simp [pauseState]))]
    simp [emitAll, tmsEvents]

/-- R114: an end state that is not stable fails in the PAUSE state. -/
theorem leaveExit1_fail {ir : Bool} {s : State} {e} (hs : s.tapCur = tapNext (shiftState ir) true) (he : e.isStable = false) :
  leaveExit1 e s = ({ emitAll [.tms [false] false .none] s with tapCur := pauseState ir }, .invalidTransition (pauseState ir) e) := by
  unfold leaveExit1
  have h : e ≠ .idle := by rintro rfl; revert he; decide
  simp only [h, if_false]
  rw [clockTms_eq, hs, (tapWalk_exit1 ir).1]
  rw [moveUnlessThere_fail (by simp; rintro rfl; revert he; cases ir <;> decide) (.inl he)]
  rfl

theorem dwell_append (q t l m) : dwell q t (l ++ m) = dwell q t l + dwell q (tapWalk t l) m := by
  induction l generalizing t with
  | nil => simp [dwell]
  | cons b r ih => simp [dwell, ih]; omega

theorem dwell_loop (q : TapState) (n) (h : tapNext q false = q) : dwell q q (List.replicate n false) = n := by
  induction n with
  | zero => rfl
  | succ n ih => rw [List.replicate_succ]; simp [dwell, h, ih]; omega

theorem tmsWire_append (a b : List Event) : tmsWire (a ++ b) = tmsWire a ++ tmsWire b := by simp [tmsWire]

theorem tmsWire_tmsEvents (l) : tmsWire (tmsEvents l) = l := by
  unfold tmsEvents; split <;> simp_all [tmsWire, Event.tmsLevels]

/-- R272: the TMS line is held 0 during scan data. -/
@[simp] theorem tmsLevels_jtagWire (p out n c) : (Event.bits (jtagWire p) out n c).tmsLevels = List.replicate n false := rfl

/-- SWD traffic clocks no TMS level in statements about the wire (log entry 17). -/
@[simp] theorem tmsLevels_swdWire (p out n c) : (Event.bits (swdWire p) out n c).tmsLevels = [] := rfl

theorem tmsWire_dataEvents (p f buf n) : tmsWire (dataEvents p f buf n) = List.replicate n false := by
  unfold dataEvents; split <;> simp_all [tmsWire]

theorem tmsWire_fieldsEvents (p l buf) : tmsWire (fieldsEvents p l buf) = List.replicate (totalBits l) false := by
  induction l generalizing buf with
  | nil => rfl
  | cons f r ih => rw [fieldsEvents, tmsWire_append, tmsWire_dataEvents, ih, List.replicate_append_replicate]; rfl

theorem tmsWire_lastFieldEvents (p f buf) : tmsWire (lastFieldEvents p f buf) = List.replicate (f.len - 1) false ++ [true] := by
  rw [lastFieldEvents, tmsWire_append, tmsWire_dataEvents]; rfl

/-- A state with another result at its port. -/
abbrev withReport (r : Report) (s : State) : State := { s with lastResult := r }

/-- The same for a command in progress. -/
abbrev withReportRun (r : Report) (x : Run) : Run := (withReport r x.1, x.2)

theorem withReport_emitTms (r b s) : emitTms b (withReport r s) = withReport r (emitTms b s) := by simp only [emitTms_eq]; rfl

theorem withReport_clockTms (r b s) : clockTms b (withReport r s) = withReport r (clockTms b s) := by simp only [clockTms_eq]; rfl

theorem withReport_move (r g s) : move g (withReport r s) = withReportRun r (move g s) := by
  unfold move
  simp only [withReport_clockTms]
  split
  · split <;> rfl
  · rfl

theorem withReport_moveUnlessThere (r g s) : moveUnlessThere g (withReport r s) = withReportRun r (moveUnlessThere g s) := by
  unfold moveUnlessThere; simp only [withReport_move]; split <;> rfl

theorem withReport_moveShift (r g s) : moveShift g (withReport r s) = withReportRun r (moveShift g s) := by
  unfold moveShift; simp only [withReport_clockTms]; split
  · rfl
  · split <;> rfl

theorem withReport_andThen (r : Report) (x : Run) (f : State → Run) (hf : ∀ s, f (withReport r s) = withReportRun r (f s)) : (withReportRun r x).andThen f = withReportRun r (x.andThen f) := by
  unfold Run.andThen; simp only; split
  · exact hf _
  · rfl

theorem withReport_clockBursts (r l c s) : clockBursts l c (withReport r s) = withReport r (clockBursts l c s) := by
  unfold clockBursts
  simp only
  generalize burstLens _ _ _ = ks
  induction ks generalizing s with
  | nil => rfl
  | cons k ks ih => rw [List.foldl_cons, withReport_clockTms, ih]; rfl

theorem withReport_runtest (r c e s) : runtestOp c e (withReport r s) = withReportRun r (runtestOp c e s) := by
  unfold runtestOp; rw [withReport_moveUnlessThere]
  exact withReport_andThen _ _ _ fun s => by
    simp only [withReport_clockBursts]; exact withReport_moveUnlessThere r e { clockBursts false c s with tapGoal := e }

theorem withReport_statemove (r e s) : statemoveOp e (withReport r s) = withReportRun r (statemoveOp e s) := by
  unfold statemoveOp; simp only
  split
  · exact withReport_move r e { s with tapGoal := e }
  · rfl

theorem withReport_pathWalk (r l b s) : pathWalk l b (withReport r s) = withReportRun r (pathWalk l b s) := by
  induction l generalizing b s with
  | nil => simp only [pathWalk, withReport_emitTms]
  | cons t ts ih =>
    simp only [pathWalk]
    cases tmsTo s.tapCur t with
    | none => rfl
    | some c =>
      simp only
      rw [show track [c] (withReport r s) = withReport r (track [c] s) from rfl, withReport_emitTms, ih, ih]
      split <;> rfl

theorem withReport_tms (r c b s) : tmsOp c b (withReport r s) = withReportRun r (tmsOp c b s) := by
  unfold tmsOp; simp only [withReport_clockTms, withReport_emitTms]; split <;> simp_all

theorem withReport_leaveExit1 (r e s) : leaveExit1 e (withReport r s) = withReportRun r (leaveExit1 e s) := by
  unfold leaveExit1; rw [withReport_clockTms, withReport_moveUnlessThere]

theorem withReport_scan (r ir f e s) : scanOp ir f e (withReport r s) = withReportRun r (scanOp ir f e s) := by
  unfold scanOp
  split
  · rfl
  · rw [withReport_moveShift]
    exact withReport_andThen _ _ _ fun s => by
      simp only [emitFields_eq, emitLastField_eq]
      exact withReport_leaveExit1 r e { emitAll (lastFieldEvents s.params _ _) (emitAll (fieldsEvents s.params (liveFields f).dropLast s.nextBuf) { s with tapGoal := e, nextBuf := s.nextBuf + (liveFields f).length }) with tapCur := tapNext s.tapCur true }

theorem withReport_storeCap (r c b s) : storeCap c b (withReport r s) = withReport r (storeCap c b s) := by cases c <;> rfl

theorem withReport_deliver (r e s) : deliver (withReport r s) e = withReport r (deliver s e) := withReport_storeCap r e.cap (capBits e.cap.len s) (capDrawn e.cap.len s)

theorem withReport_lose (r e s) : lose (withReport r s) e = withReport r (lose s e) := withReport_storeCap r e.cap _ { s with freeCtr := s.freeCtr + e.cap.len }

theorem withReport_flush (r s) : flush (withReport r s) = withReport r (flush s) := by
  have key : ∀ (f : State → Event → State), (∀ t e, f (withReport r t) e = withReport r (f t e)) → ∀ (es : List Event) t, es.foldl f (withReport r t) = withReport r (es.foldl f t) := by
    intro f hf es; induction es with
    | nil => intro t; rfl
    | cons e es ih => intro t; rw [List.foldl_cons, hf, ih]; rfl
  unfold flush
  rw [show flushOk (withReport r s) = flushOk s from rfl, show flushed (withReport r s) = withReport r (flushed s) from rfl, show (withReport r s).pending = s.pending from rfl]
  split
  · exact key _ (fun t e => withReport_deliver r e t) _ _
  · exact key _ (fun t e => withReport_lose r e t) _ _

theorem withReport_sleep (r u s) : sleepOp u (withReport r s) = withReportRun r (sleepOp u s) := by
  unfold sleepOp; simp only [show flushOk (withReport r s) = flushOk s from rfl, withReport_flush]
  split <;> rfl

/-- No operation reads the result port. -/
theorem withReport_realise (r op i s) : realise op i (withReport r s) = (realise op i s).map (withReportRun r) := by
  cases op <;> simp only [realise, withReport_runtest, withReport_statemove, pathmoveOp, withReport_pathWalk, withReport_scan, withReport_tms, withReport_sleep, Except.map]
  · simp only [stableclocksOp, withReport_clockBursts]; split <;> rfl

theorem withReport_realiseAll (r ops idx s) : realiseAll ops idx (withReport r s) = (realiseAll ops idx s).map fun x => (withReportRun r x.1, x.2) := by
  induction ops generalizing idx s with
  | nil => rfl
  | cons op ops ih =>
    simp only [realiseAll, withReport_realise]
    cases h : realise op idx s with
    | error e => rfl
    | ok run =>
      simp only [Except.map]
      split
      · rw [ih]; rfl
      · rfl

/-- R160: an operation on its own is the operation `execute` realises. -/
theorem exec_ofOp {op : JtagOp} {i : Instr} (h : Instr.ofOp op = some i) {s : State} (hf : s.fatal = false) (idx : Nat) :
   exec i s = match realise op idx s with
     | .ok run => .next (finish none run)
     | .error r => .refused r := by
  cases op <;> simp only [Instr.ofOp, Option.some.injEq] at h
  case other => cases h
  all_goals subst h
  · exact command_ok (body := fun s => finish none (runtestOp _ _ s)) hf
  · exact command_ok (body := fun s => finish none (statemoveOp _ s)) hf
  · exact command_ok (body := fun s => finish none (pathmoveOp _ s)) hf
  · exact command_ok (body := fun s => finish none (scanOp _ _ _ s)) hf
  · exact command_ok (body := fun s => finish none (tmsOp _ _ s)) hf
  · exact command_ok (body := fun s => finish none (sleepOp _ s)) hf
  · simp only [exec, execStableclocks, realise, hf]
    by_cases hs : s.tapCur.isStable = true
    · simp only [hs, if_true]; rw [if_neg (by simp), command_ok hf]
    · simp [hs]

theorem move_fatal (g s) : (move g s).1.fatal = s.fatal := by
  unfold move; split
  · split
    · rw [clockTms_eq]; rfl
    · rfl
  · rfl

theorem moveUnlessThere_fatal (g s) : (moveUnlessThere g s).1.fatal = s.fatal := by
  unfold moveUnlessThere; split
  · rfl
  · exact move_fatal g s

theorem clockTms_fatal (b s) : (clockTms b s).fatal = s.fatal := by rw [clockTms_eq]; rfl

theorem clockBursts_fatal (l c s) : (clockBursts l c s).fatal = s.fatal := by
  unfold clockBursts
  generalize burstLens _ _ _ = ks
  induction ks generalizing s with
  | nil => rfl
  | cons k ks ih => rw [List.foldl_cons, ih, clockTms_fatal]

theorem emitTms_fatal (b s) : (emitTms b s).fatal = s.fatal := by rw [emitTms_eq]; rfl

theorem pathWalk_fatal (l b s) : (pathWalk l b s).1.fatal = s.fatal := by
  induction l generalizing b s with
  | nil => simp [pathWalk, emitTms_fatal]
  | cons t ts ih =>
    simp only [pathWalk]; split
    · rfl
    · split
      · rw [ih, emitTms_fatal]; rfl
      · rw [ih]; rfl

theorem andThen_fatal (x : Run) (f : State → Run) (hf : ∀ s, (f s).1.fatal = s.fatal) : (x.andThen f).1.fatal = x.1.fatal := by
  unfold Run.andThen; split
  · exact hf _
  · rfl

/-- No operation writes the latch before its command ends. -/
theorem realise_fatal {op i s run} (h : realise op i s = .ok run) : run.1.fatal = s.fatal := by
  cases op <;> simp only [realise, Except.ok.injEq] at h
  · subst h; unfold runtestOp; rw [andThen_fatal, moveUnlessThere_fatal]; intro s; simp only [moveUnlessThere_fatal, clockBursts_fatal]
  · subst h; unfold statemoveOp; simp only; split
    · rw [move_fatal]
    · rfl
  · subst h; exact pathWalk_fatal _ _ _
  · subst h; unfold scanOp; split
    · rfl
    · rw [andThen_fatal]
      · unfold moveShift; split
        · rfl
        · split
          · exact clockTms_fatal _ _
          · rfl
      · intro s; simp only [leaveExit1, moveUnlessThere_fatal, clockTms_fatal, emitLastField_eq, emitFields_eq]; rfl
  · subst h; unfold tmsOp; simp only; split
    · exact clockTms_fatal _ _
    · exact emitTms_fatal _ _
  · subst h; unfold sleepOp; simp only; split
    · exact flush_fatal s
    · exact flush_fatal s
  · split at h
    · cases h; exact clockBursts_fatal _ _ _
    · cases h
  · subst h; rfl

theorem finish_fatal_ok {r : Run} (h : (finish none r).lastResult.result = .ok) : finish none r = withReport ⟨.ok, none⟩ r.1 := by
  rw [finish_result] at h; simp [finish, h]

/-- R160: a chain of operations that complete is the front of `realiseAll`. -/
theorem realiseAll_of_okChain {ops : List JtagOp} : ∀ {s t : State}, s.fatal = false → OkChain ops s t → ∀ (rest : List JtagOp) idx,
    t.fatal = false ∧ ∃ r, realiseAll (ops ++ rest) idx s = (realiseAll rest (idx + ops.length) (withReport r t)) := by
  induction ops with
  | nil => intro s t hf h rest idx; cases h; exact ⟨hf, s.lastResult, rfl⟩
  | cons op ops ih =>
    intro s t hf h rest idx
    obtain ⟨i, u, hi, hu, hr, hc⟩ := h
    rw [exec_ofOp hi hf idx] at hu
    cases hx : realise op idx s with
    | error r => rw [hx] at hu; cases hu
    | ok run =>
      rw [hx] at hu; simp only [Host.Outcome.next.injEq] at hu
      subst hu
      rw [finish_fatal_ok hr] at hc
      rw [finish_result] at hr
      have hf' : (withReport ⟨.ok, none⟩ run.1).fatal = false := by simp only; rw [realise_fatal hx]; exact hf
      obtain ⟨h1, r, h2⟩ := ih hf' hc rest (idx + 1)
      refine ⟨h1, run.1.lastResult, ?_⟩
      simp only [List.cons_append, realiseAll, hx, hr, if_true]
      have h3 := withReport_realiseAll run.1.lastResult (ops ++ rest) (idx + 1) (withReport ⟨.ok, none⟩ run.1)
      have h4 : withReport run.1.lastResult (withReport ⟨.ok, none⟩ run.1) = run.1 := rfl
      rw [h4] at h3
      rw [h3, h2, withReport_realiseAll r]
      simp [List.length_cons, Nat.add_assoc, Nat.add_comm 1]
      rw [withReport_realiseAll run.1.lastResult]
      cases realiseAll rest (idx + (ops.length + 1)) t <;> rfl

theorem path_of_isPath {a b : TapState} (ha : a.isPath = true) (hb : b.isPath = true) : ∃ p, path a b = some p := by
  have := path_isSome a b; rw [ha, hb] at this; exact Option.isSome_iff_exists.1 this

end Sys2Proof.Machine
end

