-- ==== Sys2Proof/Laws/Swd.lean ====
section
/-! SUPPORT. What an enqueue, a run and the decode of a queue do, in closed form, and the induction principles over them. -/

namespace Sys2Proof.Machine

open Sys2Proof (Byte Word Instr Params)

theorem foldl_xor (l : List Bool) (b : Bool) : (l.foldl xor b) = (b ^^ decide (l.count true % 2 = 1)) := by
  induction l generalizing b with
  | nil => simp
  | cons x r ih =>
    rw [List.foldl_cons, ih]
    cases x
    · simp
    · simp only [List.count_cons_self, Bool.xor_true]
      have : ((r.count true + 1) % 2 = 1) ↔ ¬ (r.count true % 2 = 1) := by omega
      simp only [this]; by_cases h : r.count true % 2 = 1 <;> cases b <;> simp [h]

/-- R104, R105: the captured frame of a write and its payload are as long as the captured frame of a read. -/
theorem writeFrameLen_add (p : Params) : writeFrameLen p + 33 = readFrameLen p := by
  unfold writeFrameLen readFrameLen; omega

theorem emitApDelay_eq (ap d s) : emitApDelay ap d s = emitAll (idleEvents s.params (if ap then d else 0)) s := by
  unfold emitApDelay; rw [emitIdle_eq]
  cases ap <;> simp [idleEvents]

/-- R202, R203: a read entry, in closed form. -/
theorem enqueueEntry_read (ap a d s h) : enqueueEntry ap a none d (some h) s =
  { emitAll ([.bits (swdWire s.params) (some (wireOf (encodeRequest ap true a))) 8 .none, .dir .float, .bits (swdWire s.params) none (readFrameLen s.params) (.raw s.swdLen (readFrameLen s.params)), .dir .drive]
      ++ idleEvents s.params (if ap then d else 0)) s with
    swdQ := s.swdQ.take s.swdLen
      ++ { cmd := encodeRequest ap true a, isRead := true, wdata := none, dst := some h, raw := freshRaw none s, phase := .pending }
      :: s.swdQ.drop (s.swdLen + 1)
    swdLen := s.swdLen + 1
    swdioDir := .drive
    freeCtr := s.freeCtr + readFrameLen s.params } := by
  simp only [enqueueEntry, emitApDelay_eq, Option.isNone_none]
  simp [emitFrame, emitDir, emit, emitAll, placeEntry, freshRaw, readFrameLen]

/-- R202, R204: a write entry, in closed form. -/
theorem enqueueEntry_write (ap a d s w) : enqueueEntry ap a (some w) d none s =
  { emitAll ([.bits (swdWire s.params) (some (wireOf (encodeRequest ap false a))) 8 .none, .dir .float, .bits (swdWire s.params) none (writeFrameLen s.params) (.raw s.swdLen (writeFrameLen s.params)), .dir .drive,
      .bits (swdWire s.params) (some (wireOf w ++ [parity w])) 33 .none]
      ++ idleEvents s.params (if ap then d else 0)) s with
    swdQ := s.swdQ.take s.swdLen
      ++ { cmd := encodeRequest ap false a, isRead := false, wdata := some w, dst := none, raw := freshRaw (some w) s, phase := .pending }
      :: s.swdQ.drop (s.swdLen + 1)
    swdLen := s.swdLen + 1
    swdioDir := .drive
    freeCtr := s.freeCtr + readFrameLen s.params } := by
  simp only [enqueueEntry, emitApDelay_eq, Option.isNone_some]
  simp [emitFrame, emitDir, emit, emitAll, placeEntry, freshRaw, writePayload, wireOf, writeFrameLen_add]

theorem enqueue_room {s : State} (hl : s.swdLen < s.swdCap) (hs : s.swdSticky = .ok) (ap a w d h) : enqueue ap a w d h s = enqueueEntry ap a w d h s := by
  unfold enqueue
  have : ¬ s.swdCap ≤ s.swdLen := by omega
  simp only [this, if_false, hs, if_true]

theorem enqueue_sticky {s : State} (hl : s.swdLen < s.swdCap) (hs : s.swdSticky ≠ .ok) (ap a w d h) : enqueue ap a w d h s = s := by
  unfold enqueue
  have : ¬ s.swdCap ≤ s.swdLen := by omega
  simp only [this, if_false, hs]

/-- R206: an enqueue that finds the queue full. -/
theorem enqueue_full {s : State} (hl : s.swdCap ≤ s.swdLen) (ap a w d h) : enqueue ap a w d h s = if (grow s).swdSticky = .ok then enqueueEntry ap a w d h (grow s) else grow s := by
  unfold enqueue
  simp only [hl, if_true]

theorem readOp_room {s : State} (h : Room s) (ap a d) : readOp ap a d s = enqueuedRead (encodeRequest ap true a) (if ap then d else 0) (freshRaw none s) s := by
  unfold readOp
  simp only
  rw [enqueue_room (s := { s with nextSlot := s.nextSlot + 1, lastHandle := some s.nextSlot }) h.room h.not_sticky, enqueueEntry_read]
  rfl

theorem writeOp_room {s : State} (h : Room s) (ap a w d) : writeOp ap a w d s = enqueuedWrite (encodeRequest ap false a) w (if ap then d else 0) (freshRaw (some w) s) s := by
  unfold writeOp
  simp only
  rw [enqueue_room h.room h.not_sticky, enqueueEntry_write]
  rfl

theorem freshRaw_read_length (s) : (freshRaw none s).length = readFrameLen s.params := by simp [freshRaw, readFrameLen]

theorem freshRaw_write (w s) : IsWriteRaw s.params w (freshRaw (some w) s) := by
  constructor
  · simp [freshRaw, writePayload, wireOf, writeFrameLen_add]
  · simp only [freshRaw]
    rw [List.drop_left' (by simp)]
    rfl

theorem exec_asRead {i : Instr} {x} (h : asRead i = some x) (s) : exec i s = command (readOp x.1 x.2.1 x.2.2) s := by
  unfold asRead at h; split at h <;> first | (cases h; rfl) | cases h

theorem exec_asWrite {i : Instr} {x} (h : asWrite i = some x) (s) : exec i s = command (writeOp x.1 x.2.1 x.2.2.1 x.2.2.2) s := by
  unfold asWrite at h; split at h <;> first | (cases h; rfl) | cases h

theorem exec_asAck {i : Instr} {k ack} (h : asAck i = some (k, ack)) (s) : exec i s = command (fun s => (runQueue (some (k, ack)) s).1) s := by
  unfold asAck at h; split at h <;> first | (cases h; rfl) | cases h

theorem emitIdle_run (s) : emitIdle s.params.swdRunIdle s = emitAll (runIdleEvents s.params) s := by
  rw [emitIdle_eq]; rfl

/-- A state with another handle handed out last. -/
abbrev withHandle (n : Nat) (h : Option Nat) (s : State) : State := { s with nextSlot := n, lastHandle := h }

theorem withHandle_storeCap (n h c b s) : storeCap c b (withHandle n h s) = withHandle n h (storeCap c b s) := by cases c <;> rfl

theorem withHandle_flush (n h s) : flush (withHandle n h s) = withHandle n h (flush s) := by
  have key : ∀ (f : State → Event → State), (∀ t e, f (withHandle n h t) e = withHandle n h (f t e)) → ∀ (es : List Event) t, es.foldl f (withHandle n h t) = withHandle n h (es.foldl f t) := by
    intro f hf es; induction es with
    | nil => intro t; rfl
    | cons e es ih => intro t; rw [List.foldl_cons, hf, ih]; rfl
  unfold flush
  rw [show flushOk (withHandle n h s) = flushOk s from rfl, show flushed (withHandle n h s) = withHandle n h (flushed s) from rfl]
  split
  · exact key _ (fun t e => withHandle_storeCap n h e.cap (capBits e.cap.len t) (capDrawn e.cap.len t)) _ _
  · exact key _ (fun t e => withHandle_storeCap n h e.cap _ { t with freeCtr := t.freeCtr + e.cap.len }) _ _

/-- A run reads no slot number. -/
theorem withHandle_run (n h a s) : runQueue a (withHandle n h s) = (withHandle n h (runQueue a s).1, (runQueue a s).2) := by
  have he : emitIdle s.params.swdRunIdle (withHandle n h s) = withHandle n h (emitAll (runIdleEvents s.params) s) :=
    emitIdle_run (withHandle n h s)
  unfold runQueue
  simp only [emitIdle_run, he, withHandle_flush,
    show ∀ t, flushOk (withHandle n h t) = flushOk t from fun t => rfl]
  split
  · split
    · cases a with
      | none => rfl
      | some x => simp only [forceAck]; split <;> rfl
    · rfl
  · rfl

theorem runQueue_fatal (a s) : (runQueue a s).1.fatal = s.fatal := by
  unfold runQueue
  simp only [emitIdle_run, endRun]
  split
  · split
    · cases a with
      | none => simp [forceAck, decodeQueue, emitAll]
      | some x => simp only [forceAck]; split <;> simp [decodeQueue, emitAll]
    · simp [emitAll]
  · rfl

theorem runQueue_cap (a s) : (runQueue a s).1.swdCap = s.swdCap := by
  unfold runQueue
  simp only [emitIdle_run, endRun]
  split
  · split
    · cases a with
      | none => simp [forceAck, decodeQueue, emitAll]
      | some x => simp only [forceAck]; split <;> simp [decodeQueue, emitAll]
    · simp [emitAll]
  · rfl

theorem runQueue_nextSlot (a s) : (runQueue a s).1.nextSlot = s.nextSlot := by
  unfold runQueue
  simp only [emitIdle_run, endRun]
  split
  · split
    · cases a with
      | none => simp [forceAck, decodeQueue, emitAll]
      | some x => simp only [forceAck]; split <;> simp [decodeQueue, emitAll]
    · simp [emitAll]
  · rfl

/-- R215: an entry that passes is committed. -/
theorem judge_pass {p k e} (h : Passes p e) : judge p k e = .commit (if e.isRead = true ∧ rawAck p e.raw = 0b001#3 then e.dst.map fun h => (h, rawData p e.raw) else none) := by
  rcases h with ⟨h1, h2⟩ | ⟨h1, h2⟩
  · by_cases h3 : e.isRead = true
    · simp only [judge, ackOk, h1, h3, h2 h3]; simp
    · simp only [judge, ackOk, h1]; simp [h3]
  · simp only [judge, ackOk]; simp [h1, h2]

/-- R217, R218, R220: an entry that does not pass fails with its error. -/
theorem judge_fail {p k e} (h : ¬ Passes p e) : judge p k e = .fail (entryError p k e) := by
  unfold Passes at h
  by_cases h1 : rawAck p e.raw = 0b001#3
  · simp [h1] at h
    simp only [judge, ackOk, h1, entryError]; simp [h]
  · simp [h1] at h
    simp only [judge, ackOk, entryError, ackError, ackWaitCode]; simp [h1, h]
    split <;> simp [*]

theorem commits_one (e : Entry) (m : Store Word) : (match (if e.isRead = true ∧ rawAck p e.raw = 0b001#3 then e.dst.map fun h => (h, rawData p e.raw) else none) with
        | some (h, d) => m.put h d
        | none => m) = commits p [e] m := by
  simp only [commits, List.foldl_cons, List.foldl_nil]
  split
  · next h => split at h
              · next hc => rw [if_pos hc]; cases hd : e.dst <;> simp_all
              · cases h
  · next h => split at h
              · next hc => rw [if_pos hc]; cases hd : e.dst <;> simp_all
              · next hc => rw [if_neg hc]

theorem commits_cons (e r m) : commits p (e :: r) m = commits p r (commits p [e] m) := rfl

/-- R215: decoding entries that all pass. -/
theorem decodeEntries_all (p) (es : List Entry) : ∀ k m, (∀ e ∈ es, Passes p e) → decodeEntries p k es m = (withPhase .committed es, commits p es m, .ok) := by
  induction es with
  | nil => intro k m _; rfl
  | cons e r ih =>
    intro k m h
    unfold decodeEntries
    rw [judge_pass (h e (by simp))]
    simp only
    rw [ih _ _ (fun x hx => h x (by simp [hx])), commits_cons, ← commits_one e m]
    rfl

/-- R214: decoding stops at the first entry that does not pass. -/
theorem decodeEntries_failed (p) (es : List Entry) : ∀ k m j e, es[j]? = some e → ¬ Passes p e → (∀ x ∈ es.take j, Passes p x) →
    decodeEntries p k es m = (withPhase .committed (es.take j) ++ { e with phase := .failed } :: es.drop (j + 1), commits p (es.take j) m, entryError p (k + j) e) := by
  induction es with
  | nil => intro k m j e h; simp at h
  | cons a r ih =>
    intro k m j e h hn hp
    cases j with
    | zero =>
      simp at h; subst h
      unfold decodeEntries; rw [judge_fail hn]; simp [withPhase, commits]
    | succ j =>
      simp at h
      unfold decodeEntries
      rw [judge_pass (hp a (by simp))]
      simp only
      rw [ih _ _ j e h hn (fun x hx => hp x (by simp [hx])), List.take_succ_cons, commits_cons, ← commits_one a m]
      rw [show k + 1 + j = k + (j + 1) by omega]
      rfl

theorem commits_withPhase (ph es m) : commits p (withPhase ph es) m = commits p es m := by
  unfold commits withPhase
  rw [List.foldl_map]

theorem submitted_eq (s : State) : submitted s = withPhase .submitted (s.swdQ.take s.swdLen) := rfl

theorem withPhase_withPhase (a b es) : withPhase a (withPhase b es) = withPhase a es := by simp [withPhase]

/-- R210: a run whose flush succeeds decodes what the flush left. -/
theorem runQueue_flushed {s : State} (hs : s.swdSticky = .ok) (hfl : flushOk s = true) (a) :
    runQueue a s = endRun (decodeQueue (forceAck a (afterRunFlush s))) := by
  unfold runQueue
  rw [if_pos hs, emitIdle_run]
  simp only [show flushOk (emitAll (runIdleEvents s.params) s) = flushOk s from rfl, hfl, if_true]
  rfl

theorem decodeQueue_all {u : State} (h : ∀ e ∈ u.swdQ.take u.swdLen, Passes u.params e) :
    (endRun (decodeQueue u)).1 = runStopped (u.swdQ.take u.swdLen) (u.swdQ.take u.swdLen).length .ok u := by
  unfold decodeQueue
  rw [submitted_eq, decodeEntries_all]
  · simp only [endRun, runStopped, withPhase_withPhase, commits_withPhase]
    rw [List.take_of_length_le (Nat.le_refl _), List.drop_of_length_le (Nat.le_refl _), List.drop_of_length_le (Nat.le_succ _)]
    simp [withPhase]
  · intro e he
    obtain ⟨x, hx, rfl⟩ := List.mem_map.1 he
    exact h x hx

theorem decodeQueue_failed {u : State} {k e} (hk : (u.swdQ.take u.swdLen)[k]? = some e) (hn : ¬ Passes u.params e)
   (h : ∀ x ∈ (u.swdQ.take u.swdLen).take k, Passes u.params x) :
    (endRun (decodeQueue u)).1 = runStopped (u.swdQ.take u.swdLen) k (entryError u.params k e) u := by
  unfold decodeQueue
  have hk' : (withPhase .submitted (u.swdQ.take u.swdLen))[k]? = some { e with phase := .submitted } := by
    simp only [withPhase, List.getElem?_map, hk, Option.map_some]
  rw [submitted_eq, decodeEntries_failed _ _ _ _ k _ hk' hn]
  · simp only [endRun, runStopped]
    rw [show List.take k (withPhase .submitted (u.swdQ.take u.swdLen)) = withPhase .submitted ((u.swdQ.take u.swdLen).take k) by simp [withPhase, List.map_take], withPhase_withPhase, commits_withPhase]
    rw [show List.drop (k+1) (withPhase .submitted (u.swdQ.take u.swdLen)) = withPhase .submitted ((u.swdQ.take u.swdLen).drop (k+1)) by simp [withPhase, List.map_drop]]
    have h1 : ((u.swdQ.take u.swdLen).drop k).take 1 = [e] := by
      obtain ⟨h, h2⟩ := List.getElem?_eq_some_iff.1 hk
      rw [List.drop_eq_getElem_cons h, h2]; simp
    rw [h1]
    simp [withPhase, entryError]
  · intro x hx
    simp only [withPhase, ← List.map_take] at hx
    obtain ⟨y, hy, rfl⟩ := List.mem_map.1 hx
    exact h y hy

theorem bitsVal_wireOf_ack : ∀ ack : BitVec 3, BitVec.ofNat 3 (bitsVal (wireOf ack)) = ack := by decide

/-- R106: the ack field of a buffer that reaches over it. -/
theorem rawAck_withAck (p : Params) (ack : BitVec 3) (raw : List Bool) (h : p.trnCycles + 3 ≤ raw.length) :
    rawAck p (withAck p ack raw) = ack := by
  unfold rawAck withAck slice
  rw [List.append_assoc, List.drop_left' (by rw [List.length_take]; omega), List.take_left' (by simp [wireOf])]
  exact bitsVal_wireOf_ack ack

/-- A property kept by the parts of a run is kept by the run. -/
theorem runQueue_keeps {P : State → Prop} (he : ∀ s, P s → P (emitAll (runIdleEvents s.params) s))
  (hf : ∀ s, P s → P (flush s)) (hd : ∀ s, P s → P (decodeQueue s).1) (hforce : ∀ a s, P s → P (forceAck a s))
  (hend : ∀ s r, P s → P { s with swdLen := 0, swdSticky := .ok, lastResult := ⟨r, none⟩ }) (a s) (hp : P s) : P (runQueue a s).1 := by
  unfold runQueue
  simp only [emitIdle_run, endRun]
  split
  · split
    · exact hend _ _ (hd _ (hforce _ _ (hf _ (he _ hp))))
    · exact hend _ _ (hf _ (he _ hp))
  · exact hend _ _ hp

/-- A property kept by growth and by a new entry is kept by an enqueue. -/
theorem enqueue_keeps {P : State → Prop} (hrun : ∀ s, P s → P (grow s)) (hent : ∀ ap a w d h s, Option.isNone w = Option.isSome h → P s → P (enqueueEntry ap a w d h s))
   (ap a w d h s) (hwh : Option.isNone w = Option.isSome h) (hp : P s) : P (enqueue ap a w d h s) := by
  unfold enqueue
  simp only
  have h1 : P (if s.swdCap ≤ s.swdLen then grow s else s) := by split; exact hrun s hp; exact hp
  generalize (if s.swdCap ≤ s.swdLen then grow s else s) = t at *
  split
  · exact hent _ _ _ _ _ _ hwh h1
  · exact h1

/-- What a new entry does to the state, a read or a write. -/
theorem enqueueEntry_cases {P : State → Prop} {ap a w d h s} (hwh : Option.isNone w = Option.isSome h)
  (hr : ∀ h es raw, P { emitAll es s with
    swdQ := s.swdQ.take s.swdLen ++ { cmd := encodeRequest ap true a, isRead := true, wdata := none, dst := some h, raw := raw, phase := .pending } :: s.swdQ.drop (s.swdLen + 1)
    swdLen := s.swdLen + 1
    swdioDir := .drive
    freeCtr := s.freeCtr + readFrameLen s.params })
  (hw : ∀ w es raw, P { emitAll es s with
    swdQ := s.swdQ.take s.swdLen ++ { cmd := encodeRequest ap false a, isRead := false, wdata := some w, dst := none, raw := raw, phase := .pending } :: s.swdQ.drop (s.swdLen + 1)
    swdLen := s.swdLen + 1
    swdioDir := .drive
    freeCtr := s.freeCtr + readFrameLen s.params }) : P (enqueueEntry ap a w d h s) := by
  cases w with
  | none => cases h with
    | none => simp at hwh
    | some h => rw [enqueueEntry_read]; exact hr _ _ _
  | some w => cases h with
    | some h => simp at hwh
    | none => rw [enqueueEntry_write]; exact hw _ _ _

end Sys2Proof.Machine
end

