-- ==== Sys2Proof/Laws/Deliver.lean ====
section
/-! SUPPORT. What a successful flush delivers when the environment supplies the captured bits. -/

namespace Sys2Proof.Machine

open Sys2Proof (Word)

/-- A property that does not look at the queue is kept by fixing an ack. -/
theorem forceAck_keeps {P : State → Prop} (h : ∀ s q, P s → P { s with swdQ := q }) (a s) (hp : P s) : P (forceAck a s) := by
  unfold forceAck; split
  · exact hp
  · split
    · exact h _ _ hp
    · exact hp

theorem deliver_none {e : Event} (h : e.cap = .none) (s : State) : deliver s e = s := by
  simp [deliver, h, storeCap, CapDest.len, capDrawn]

/-- R72: events that capture nothing deliver nothing. -/
theorem foldl_deliver_none {es : List Event} (h : ∀ e ∈ es, e.cap = .none) (s : State) : es.foldl deliver s = s := by
  induction es with
  | nil => rfl
  | cons e es ih => rw [List.foldl_cons, deliver_none (h e (by simp)), ih (fun x hx => h x (by simp [hx]))]

/-- R72, R174: bits the environment supplies reach a scan buffer. -/
theorem deliver_buf {e : Event} {b o n : Nat} {s : State} {l r : List Bool} (h : e.cap = .buf b o n) (hl : l.length = n) (hc : s.capIn = l ++ r) :
    deliver s e = { s with capIn := r, captured := putBufBits s.captured b o l } := by
  have h1 : n - s.capIn.length = 0 := by rw [hc]; simp; omega
  simp only [deliver, h, CapDest.len, storeCap, capBits, capDrawn, h1]
  simp [hc, ← hl]

/-- R72, R104: bits the environment supplies reach an entry. -/
theorem deliver_raw {e : Event} {i n : Nat} {s : State} {l r : List Bool} (h : e.cap = .raw i n) (hl : l.length = n) (hc : s.capIn = l ++ r) :
    deliver s e = { s with capIn := r, swdQ := s.swdQ.modify i fun e => { e with raw := overlay l e.raw } } := by
  have h1 : n - s.capIn.length = 0 := by rw [hc]; simp; omega
  simp only [deliver, h, CapDest.len, storeCap, capBits, capDrawn, h1]
  simp [hc, ← hl]

theorem tmsEvents_cap (l) : ∀ e ∈ tmsEvents l, e.cap = .none := by
  unfold tmsEvents; split <;> simp [Event.cap]

/-- R62: a word is read back from its wire string. -/
theorem ofNat_bitsVal_wireOf (w : Word) : BitVec.ofNat 32 (bitsVal (wireOf w)) = w := by
  apply BitVec.eq_of_toNat_eq
  have gen : ∀ (n : Nat) (x : Nat), x < 2^n → ∀ (f : Nat → Bool), (∀ i, i < n → f i = x.testBit i) → bitsVal ((List.range n).map f) = x := by
    intro n; induction n with
    | zero => intro x h f _; simp [bitsVal]; omega
    | succ n ih =>
      intro x h f hf
      rw [List.range_succ_eq_map]
      simp only [List.map_cons, List.map_map, bitsVal]
      rw [ih (x / 2) (by rw [Nat.pow_succ] at h; omega) _ (by
        intro i hi; simp only [Function.comp, Nat.succ_eq_add_one]; rw [hf (i+1) (by omega), Nat.testBit_succ])]
      rw [hf 0 (by omega)]
      simp only [Nat.testBit_zero]
      have := Nat.mod_two_eq_zero_or_one x
      rcases this with h | h <;> simp [h] <;> omega
  have h := gen 32 w.toNat w.isLt w.getLsbD (fun i _ => rfl)
  simp only [wireOf, h]
  simp

end Sys2Proof.Machine
end

