-- ==== Sys2Proof/Laws/Exec.lean ====
section
/-! SUPPORT. Everything an instruction and a step can do, said once, with the principles invariants are proved by. -/

namespace Sys2Proof.Machine

open Sys2Proof (TapState JtagOp Instr)

theorem switchOp_unknown (s : State) (id : BitVec 3) (h : modePattern s.params.modeSeq id = none) : switchOp id s = { s with lastResult := ⟨.unknownSequence id, none⟩, fatal := true } := by
  simp [switchOp, h, raise, Result.isFatal]

theorem exec_tapRow (t s) : exec (tapRow t) s = command (stepTo t) s := by cases t <;> rfl

/-- R311: an instruction met while the latch is set does nothing. -/
theorem exec_fatal (i : Instr) (s : State) (h : s.fatal = true) : exec i s = .next s := by
  cases i <;> simp [exec, command, h, execRuntest, execStatemove, execPathmove, execScan, execTms, execSleep, execStableclocks, execSwdRead, execSwdWrite, execSwdRun, execSwitchSequence, execExecute, execUnassignedTag7, execUnassignedTag13, execUnassignedTag14, execUnassignedTag15, execSwdReqDpWriteA0, execSwdReqDpWriteA1, execSwdReqDpWriteA2, execSwdReqDpWriteA3, execSwdReqDpReadA0, execSwdReqDpReadA1, execSwdReqDpReadA2, execSwdReqDpReadA3, execSwdReqApWriteA0, execSwdReqApWriteA1, execSwdReqApWriteA2, execSwdReqApWriteA3, execSwdReqApReadA0, execSwdReqApReadA1, execSwdReqApReadA2, execSwdReqApReadA3, execSwdReqGeneric, execSwdAckOk, execSwdAckWait, execSwdAckFault, execSwdAckOther000, execSwdAckOther011, execSwdAckOther101, execSwdAckOther110, execSwdAckOther111, execSwitchJtagToSwd, execSwitchSwdToJtag, execSwitchJtagToDormant, execSwitchDormantToJtag, execSwitchSwdToDormant, execSwitchDormantToSwd, execSwitchUnrecognised6, execSwitchUnrecognised7, execTapStateReset, execTapStateIdle, execTapStateDrSelect, execTapStateDrCapture, execTapStateDrShift, execTapStateDrExit1, execTapStateDrPause, execTapStateDrExit2, execTapStateDrUpdate, execTapStateIrSelect, execTapStateIrCapture, execTapStateIrShift, execTapStateIrExit1, execTapStateIrPause, execTapStateIrExit2, execTapStateIrUpdate]

/-- Everything an instruction can do when the latch is clear; the flag says it is of the JTAG side. -/
inductive Does (s : State) : Bool → State → Prop where
  | op (op : JtagOp) (run : Run) (h : realise op 0 s = .ok run) : Does s true (finish none run)
  | list (ops : List JtagOp) (run : Run) (n : Nat) (h : realiseAll ops 0 s = .ok (run, n)) :
     Does s true (if run.2 = .ok then closeExecute run.1 else finish (some n) run)
  | read (ap a d) : Does s false (readOp ap a d s)
  | write (ap a w d) : Does s false (writeOp ap a w d s)
  | run (ans) : Does s false (runQueue ans s).1
  | switch (id) : Does s false (switchOp id s)
  | unknown (n) : Does s false (unknownTag n s)

/-- An instruction that answers a next state does one of these. -/
theorem exec_does {i : Instr} {s t : State} (hf : s.fatal = false) (h : exec i s = .next t) : Does s (isJtag i) t := by
  have hc : ∀ body : State → State, command body s = .next (body s) := fun body => command_ok hf
  cases i
  case stableclocks c =>
    simp only [exec, execStableclocks, hf] at h
    by_cases hs : s.tapCur.isStable = true
    · rw [if_neg (by simp [hs]), hc] at h; cases h
      exact .op (.stableclocks c) _ (by simp [realise, hs])
    · rw [if_pos (by simpa using hs)] at h; cases h
  case execute ops =>
    simp only [exec, execExecute, hf] at h
    rw [if_neg (by simp)] at h
    split at h
    · cases h
    · next run n hr => cases h; exact .list ops run n hr
  all_goals
    simp only [exec, hc, Host.Outcome.next.injEq,
      execRuntest, execStatemove, execPathmove, execScan, execTms, execSleep, execSwdRead, execSwdWrite, execSwdRun, execSwitchSequence, execUnassignedTag7, execUnassignedTag13, execUnassignedTag14, execUnassignedTag15, execSwdReqDpWriteA0, execSwdReqDpWriteA1, execSwdReqDpWriteA2, execSwdReqDpWriteA3, execSwdReqDpReadA0, execSwdReqDpReadA1, execSwdReqDpReadA2, execSwdReqDpReadA3, execSwdReqApWriteA0, execSwdReqApWriteA1, execSwdReqApWriteA2, execSwdReqApWriteA3, execSwdReqApReadA0, execSwdReqApReadA1, execSwdReqApReadA2, execSwdReqApReadA3, execSwdReqGeneric, execSwdAckOk, execSwdAckWait, execSwdAckFault, execSwdAckOther000, execSwdAckOther011, execSwdAckOther101, execSwdAckOther110, execSwdAckOther111, execSwitchJtagToSwd, execSwitchSwdToJtag, execSwitchJtagToDormant, execSwitchDormantToJtag, execSwitchSwdToDormant, execSwitchDormantToSwd, execSwitchUnrecognised6, execSwitchUnrecognised7, execTapStateReset, execTapStateIdle, execTapStateDrSelect, execTapStateDrCapture, execTapStateDrShift, execTapStateDrExit1, execTapStateDrPause, execTapStateDrExit2, execTapStateDrUpdate, execTapStateIrSelect, execTapStateIrCapture, execTapStateIrShift, execTapStateIrExit1, execTapStateIrPause, execTapStateIrExit2, execTapStateIrUpdate] at h
    subst h
  case swdReqGeneric ap rnw a w d =>
    cases rnw
    · exact .write ap a w d
    · exact .read ap a d
  case runtest c e => exact .op (.runtest c e) _ rfl
  case statemove e => exact .op (.statemove e) _ rfl
  case pathmove l => exact .op (.pathmove l) _ rfl
  case scan a b c => exact .op (.scan a b c) _ rfl
  case tms a b => exact .op (.tms a b) _ rfl
  case sleep a => exact .op (.sleep a) _ rfl
  all_goals first
    | exact .read _ _ _
    | exact .write _ _ _ _
    | exact .run _
    | exact .switch _
    | exact .unknown _
    | exact .op (.pathmove [_]) _ rfl

/-- An event the JTAG side emits outside a flush: TMS and scan data, captured to scan buffers alone. -/
def Event.isJtagSide : Event → Prop
  | .tms _ _ .none => True
  | .tms _ _ (.buf _ _ _) => True
  | .bits (.jtag _) _ _ .none => True
  | .bits (.jtag _) _ _ (.buf _ _ _) => True
  | _ => False

/-- What the operations of the JTAG side are made of. -/
inductive JtagReach : State → State → Prop where
  | refl (s) : JtagReach s s
  | emits {s t} (es : List Event) (h : ∀ e ∈ es, Event.isJtagSide e) : JtagReach s t → JtagReach s (emitAll es t)
  | tap {s t} (c g b f) : JtagReach s t → JtagReach s { t with tapCur := c, tapGoal := g, nextBuf := b, freeCtr := f }
  | flush {s t} : JtagReach s t → JtagReach s (flush t)
  | delay {s t} (us) : JtagReach s t → JtagReach s (emitDelay us t)

theorem JtagReach.trans {a b c : State} (h : JtagReach a b) (h' : JtagReach b c) : JtagReach a c := by
  induction h' with
  | refl => exact h
  | emits es he _ ih => exact .emits es he ih
  | tap c g b f _ ih => exact .tap c g b f ih
  | flush _ ih => exact .flush ih
  | delay us _ ih => exact .delay us ih

theorem tmsEvents_side (l : List Bool) : ∀ e ∈ tmsEvents l, Event.isJtagSide e := by
  unfold tmsEvents; split <;> simp [Event.isJtagSide]

theorem dataEvents_side (p f buf n) : ∀ e ∈ dataEvents p f buf n, Event.isJtagSide e := by
  unfold dataEvents; split
  · simp
  · intro e he; simp at he; subst he; cases f.capture <;> simp [Event.isJtagSide, jtagWire]

theorem fieldsEvents_side (p l buf) : ∀ e ∈ fieldsEvents p l buf, Event.isJtagSide e := by
  induction l generalizing buf with
  | nil => simp [fieldsEvents]
  | cons f r ih => intro e he; rw [fieldsEvents, List.mem_append] at he; exact he.elim (dataEvents_side _ _ _ _ e) (ih _ e)

theorem lastFieldEvents_side (p f buf) : ∀ e ∈ lastFieldEvents p f buf, Event.isJtagSide e := by
  intro e he; rw [lastFieldEvents, List.mem_append] at he
  rcases he with he | he
  · exact dataEvents_side _ _ _ _ e he
  · simp at he; subst he; cases f.capture <;> simp [Event.isJtagSide]

theorem jtagReach_clockTms (b s) : JtagReach s (clockTms b s) := by
  rw [clockTms_eq]; exact .tap (t := emitAll (tmsEvents b) s) _ s.tapGoal s.nextBuf s.freeCtr (.emits _ (tmsEvents_side b) (.refl s))

theorem jtagReach_emitTms (b s) : JtagReach s (emitTms b s) := by
  rw [emitTms_eq]; exact .emits _ (tmsEvents_side b) (.refl s)

theorem jtagReach_move (g s) : JtagReach s (move g s).1 := by
  unfold move; split
  · split
    · exact jtagReach_clockTms _ _
    · exact .refl s
  · exact .refl s

theorem jtagReach_moveUnlessThere (g s) : JtagReach s (moveUnlessThere g s).1 := by
  unfold moveUnlessThere; split
  · exact .refl s
  · exact jtagReach_move g s

theorem jtagReach_clockBursts (l c s) : JtagReach s (clockBursts l c s) := by
  unfold clockBursts
  generalize burstLens _ _ _ = ks
  induction ks generalizing s with
  | nil => exact .refl s
  | cons k ks ih => rw [List.foldl_cons]; exact (jtagReach_clockTms _ s).trans (ih _)

theorem jtagReach_pathWalk (l b s) : JtagReach s (pathWalk l b s).1 := by
  induction l generalizing b s with
  | nil =>
    simp only [pathWalk]
    have := JtagReach.tap (s := s) (t := emitTms b s) (emitTms b s).tapCur s.tapCur (emitTms b s).nextBuf (emitTms b s).freeCtr (jtagReach_emitTms b s)
    exact this
  | cons t ts ih =>
    simp only [pathWalk]; split
    · exact .tap (t := s) _ _ s.nextBuf _ (.refl s)
    · next b' _ =>
      have h1 : JtagReach s (track [b'] s) := .tap (t := s) _ s.tapGoal s.nextBuf s.freeCtr (.refl s)
      split
      · exact (h1.trans (jtagReach_emitTms _ _)).trans (ih _ _)
      · exact h1.trans (ih _ _)

theorem jtagReach_andThen {s : State} {x : Run} {f : State → Run} (h : JtagReach s x.1) (hf : ∀ t, JtagReach t (f t).1) : JtagReach s (x.andThen f).1 := by
  unfold Run.andThen; split
  · exact h.trans (hf _)
  · exact h

theorem jtagReach_realise {op i s run} (h : realise op i s = .ok run) : JtagReach s run.1 := by
  cases op <;> simp only [realise, Except.ok.injEq] at h
  · subst h; unfold runtestOp
    refine jtagReach_andThen (jtagReach_moveUnlessThere _ _) fun t => ?_
    exact (JtagReach.tap (t := clockBursts false _ t) (clockBursts false _ t).tapCur _ (clockBursts false _ t).nextBuf (clockBursts false _ t).freeCtr (jtagReach_clockBursts _ _ _)).trans (jtagReach_moveUnlessThere _ _)
  · subst h; unfold statemoveOp; simp only
    have h1 : ∀ e, JtagReach s { s with tapGoal := e } := fun e => .tap (t := s) s.tapCur e s.nextBuf s.freeCtr (.refl s)
    split
    · exact (h1 _).trans (jtagReach_move _ _)
    · exact h1 _
  · subst h; exact jtagReach_pathWalk _ _ _
  · subst h; unfold scanOp; split
    · exact .refl s
    · refine jtagReach_andThen ?_ fun t => ?_
      · unfold moveShift; split
        · exact .refl s
        · split
          · exact jtagReach_clockTms _ _
          · exact .refl s
      · simp only [emitFields_eq, emitLastField_eq, leaveExit1]
        refine JtagReach.trans ?_ (jtagReach_moveUnlessThere _ _)
        refine JtagReach.trans ?_ (jtagReach_clockTms _ _)
        have h1 : ∀ b g, JtagReach t { t with tapGoal := g, nextBuf := b } := fun b g => .tap (t := t) t.tapCur g b t.freeCtr (.refl t)
        exact JtagReach.tap (t := emitAll _ (emitAll _ { t with tapGoal := _, nextBuf := _ })) _ _ _ _ (.emits _ (lastFieldEvents_side _ _ _) (.emits _ (fieldsEvents_side _ _ _) (h1 _ _)))
  · subst h; unfold tmsOp; simp only; split
    · exact jtagReach_clockTms _ _
    · exact jtagReach_emitTms _ _
  · subst h; unfold sleepOp; simp only; split
    · exact .delay _ (.flush (.refl s))
    · exact .flush (.refl s)
  · split at h
    · cases h; exact jtagReach_clockBursts _ _ _
    · cases h
  · subst h; exact .refl s

theorem jtagReach_realiseAll {ops idx s run n} (h : realiseAll ops idx s = .ok (run, n)) : JtagReach s run.1 := by
  induction ops generalizing idx s with
  | nil => simp [realiseAll] at h; obtain ⟨rfl, rfl⟩ := h; exact .refl s
  | cons op ops ih =>
    simp only [realiseAll] at h
    split at h
    · cases h
    · next r hr => split at h
                   · exact (jtagReach_realise hr).trans (ih h)
                   · cases h; exact jtagReach_realise hr

/-- A property kept by the parts of the JTAG side is kept by all of it. -/
theorem jtagReach_keeps {P : State → Prop} (he : ∀ s es, (∀ e ∈ es, Event.isJtagSide e) → P s → P (emitAll es s))
  (ht : ∀ s c g b f, P s → P { s with tapCur := c, tapGoal := g, nextBuf := b, freeCtr := f })
  (hf : ∀ s, P s → P (flush s)) (hd : ∀ s us, P s → P (emitDelay us s)) {s t} (h : JtagReach s t) (hp : P s) : P t := by
  induction h with
  | refl => exact hp
  | emits es h _ ih => exact he _ _ h ih
  | tap c g b f _ ih => exact ht _ _ _ _ _ ih
  | flush _ ih => exact hf _ ih
  | delay us _ ih => exact hd _ _ ih

/-- A property kept by every part of a command is kept by every instruction. -/
theorem exec_keeps {P : State → Prop} 
   (hres : ∀ s r f, P s → P { s with lastResult := r, fatal := f })
   (hstar : ∀ s t, JtagReach s t → P s → P t)
   (hread : ∀ ap a d s, P s → P (readOp ap a d s)) (hwrite : ∀ ap a w d s, P s → P (writeOp ap a w d s)) (hrun : ∀ ans s, P s → P (runQueue ans s).1)
   (hsw : ∀ id s, P s → P (switchOp id s)) {i s t} (h : exec i s = .next t) (hp : P s) : P t := by
  by_cases hf : s.fatal = true
  · rw [exec_fatal i s hf] at h; cases h; exact hp
  · have := exec_does (by simpa using hf) h
    generalize isJtag i = b at this
    cases this with
    | op op run h1 => obtain ⟨r, f, h2⟩ := finish_frame none run; rw [h2]; exact hres _ _ _ (hstar _ _ (jtagReach_realise h1) hp)
    | list ops run n h1 =>
      split
      · unfold closeExecute
        obtain ⟨r, f, h2⟩ := finish_frame none (flush run.1, if flushOk run.1 then Result.ok else .transportError); rw [h2]; exact hres _ _ _ (hstar _ _ (.flush (jtagReach_realiseAll h1)) hp)
      · obtain ⟨r, f, h2⟩ := finish_frame (some n) run; rw [h2]; exact hres _ _ _ (hstar _ _ (jtagReach_realiseAll h1) hp)
    | read => exact hread _ _ _ _ hp
    | write => exact hwrite _ _ _ _ _ hp
    | run => exact hrun _ _ hp
    | switch => exact hsw _ _ hp
    | unknown n => exact hres s ⟨.unknownCommand n, none⟩ _ hp

/-- A property kept by every part of a command, and by taking a record, is kept by every step. -/
theorem step_keeps {P : State → Prop} (hport : ∀ s l, P s → P { s with cmdPort := l })
   (hres : ∀ s r f, P s → P { s with lastResult := r, fatal := f })
   (hstar : ∀ s t, JtagReach s t → P s → P t)
   (hread : ∀ ap a d s, P s → P (readOp ap a d s)) (hwrite : ∀ ap a w d s, P s → P (writeOp ap a w d s)) (hrun : ∀ ans s, P s → P (runQueue ans s).1)
   (hsw : ∀ id s, P s → P (switchOp id s)) {s t} (hp : P s) (h : step s = .next t)  : P t := by
  unfold step at h
  split at h
  · cases h; exact hp
  · split at h
    · cases h
    · exact exec_keeps hres hstar hread hwrite hrun hsw h (hport _ _ hp)

/-- R277: Transport events join the batch. -/
theorem batchOf_emit (tr es : List Event) (h : ∀ e ∈ es, e ≠ .flush ∧ e.isDelay = false) : batchOf (tr ++ es) = batchOf tr ++ es := by
  unfold batchOf
  rw [List.reverse_append, List.takeWhile_append_of_pos (by intro e he; simp at he; simp [(h e he).1])]
  simp
  exact fun e he => (h e he).2

/-- R277: a flush empties the batch. -/
theorem batchOf_flush (tr : List Event) : batchOf (tr ++ [.flush]) = [] := by simp [batchOf]

/-- R275: a delay is no part of a batch. -/
theorem batchOf_delay (tr : List Event) (us) : batchOf (tr ++ [.delay us]) = batchOf tr := by
  simp [batchOf, Event.isDelay]

theorem idleEvents_side (p k) : ∀ e ∈ idleEvents p k, e ≠ .flush ∧ e.isDelay = false := by
  unfold idleEvents; split <;> simp [Event.isDelay]

end Sys2Proof.Machine
end

