-- ==== Sys2Proof/Laws/PerInstr.lean ====
section
/-! SUPPORT. Facts of the syntax, one lemma per instruction. -/

namespace Sys2Proof.Laws.EncodeHasHeader

open Sys2Proof (Instr)

/-- R17: a record is never empty, so a command port that holds one is not an empty port. -/
def Statement (i : Instr) : Prop := ∃ header rest, encode i = header :: rest

theorem runtest : ∀ a b, Statement (.runtest a b) := fun _ _ => ⟨_, _, rfl⟩
theorem statemove : ∀ a, Statement (.statemove a) := fun _ => ⟨_, _, rfl⟩
theorem pathmove : ∀ a, Statement (.pathmove a) := fun _ => ⟨_, _, rfl⟩
theorem scan : ∀ a b c, Statement (.scan a b c) := fun _ _ _ => ⟨_, _, rfl⟩
theorem tms : ∀ a b, Statement (.tms a b) := fun _ _ => ⟨_, _, rfl⟩
theorem sleep : ∀ a, Statement (.sleep a) := fun _ => ⟨_, _, rfl⟩
theorem stableclocks : ∀ a, Statement (.stableclocks a) := fun _ => ⟨_, _, rfl⟩
theorem swdRead : ∀ a b c, Statement (.swdRead a b c) := fun _ _ _ => ⟨_, _, rfl⟩
theorem swdWrite : ∀ a b c d, Statement (.swdWrite a b c d) := fun _ _ _ _ => ⟨_, _, rfl⟩
theorem swdRun : Statement .swdRun := ⟨_, _, rfl⟩
theorem switchSequence : ∀ a, Statement (.switchSequence a) := fun _ => ⟨_, _, rfl⟩
theorem execute : ∀ a, Statement (.execute a) := fun _ => ⟨_, _, rfl⟩
theorem unassignedTag7 : Statement .unassignedTag7 := ⟨_, _, rfl⟩
theorem unassignedTag13 : Statement .unassignedTag13 := ⟨_, _, rfl⟩
theorem unassignedTag14 : Statement .unassignedTag14 := ⟨_, _, rfl⟩
theorem unassignedTag15 : Statement .unassignedTag15 := ⟨_, _, rfl⟩
theorem swdReqDpWriteA0 : ∀ a b, Statement (.swdReqDpWriteA0 a b) := fun _ _ => ⟨_, _, rfl⟩
theorem swdReqDpWriteA1 : ∀ a b, Statement (.swdReqDpWriteA1 a b) := fun _ _ => ⟨_, _, rfl⟩
theorem swdReqDpWriteA2 : ∀ a b, Statement (.swdReqDpWriteA2 a b) := fun _ _ => ⟨_, _, rfl⟩
theorem swdReqDpWriteA3 : ∀ a b, Statement (.swdReqDpWriteA3 a b) := fun _ _ => ⟨_, _, rfl⟩
theorem swdReqDpReadA0 : ∀ a, Statement (.swdReqDpReadA0 a) := fun _ => ⟨_, _, rfl⟩
theorem swdReqDpReadA1 : ∀ a, Statement (.swdReqDpReadA1 a) := fun _ => ⟨_, _, rfl⟩
theorem swdReqDpReadA2 : ∀ a, Statement (.swdReqDpReadA2 a) := fun _ => ⟨_, _, rfl⟩
theorem swdReqDpReadA3 : ∀ a, Statement (.swdReqDpReadA3 a) := fun _ => ⟨_, _, rfl⟩
theorem swdReqApWriteA0 : ∀ a b, Statement (.swdReqApWriteA0 a b) := fun _ _ => ⟨_, _, rfl⟩
theorem swdReqApWriteA1 : ∀ a b, Statement (.swdReqApWriteA1 a b) := fun _ _ => ⟨_, _, rfl⟩
theorem swdReqApWriteA2 : ∀ a b, Statement (.swdReqApWriteA2 a b) := fun _ _ => ⟨_, _, rfl⟩
theorem swdReqApWriteA3 : ∀ a b, Statement (.swdReqApWriteA3 a b) := fun _ _ => ⟨_, _, rfl⟩
theorem swdReqApReadA0 : ∀ a, Statement (.swdReqApReadA0 a) := fun _ => ⟨_, _, rfl⟩
theorem swdReqApReadA1 : ∀ a, Statement (.swdReqApReadA1 a) := fun _ => ⟨_, _, rfl⟩
theorem swdReqApReadA2 : ∀ a, Statement (.swdReqApReadA2 a) := fun _ => ⟨_, _, rfl⟩
theorem swdReqApReadA3 : ∀ a, Statement (.swdReqApReadA3 a) := fun _ => ⟨_, _, rfl⟩
theorem swdReqGeneric : ∀ a b c d e, Statement (.swdReqGeneric a b c d e) := fun _ _ _ _ _ => ⟨_, _, rfl⟩
theorem swdAckOk : ∀ a, Statement (.swdAckOk a) := fun _ => ⟨_, _, rfl⟩
theorem swdAckWait : ∀ a, Statement (.swdAckWait a) := fun _ => ⟨_, _, rfl⟩
theorem swdAckFault : ∀ a, Statement (.swdAckFault a) := fun _ => ⟨_, _, rfl⟩
theorem swdAckOther000 : ∀ a, Statement (.swdAckOther000 a) := fun _ => ⟨_, _, rfl⟩
theorem swdAckOther011 : ∀ a, Statement (.swdAckOther011 a) := fun _ => ⟨_, _, rfl⟩
theorem swdAckOther101 : ∀ a, Statement (.swdAckOther101 a) := fun _ => ⟨_, _, rfl⟩
theorem swdAckOther110 : ∀ a, Statement (.swdAckOther110 a) := fun _ => ⟨_, _, rfl⟩
theorem swdAckOther111 : ∀ a, Statement (.swdAckOther111 a) := fun _ => ⟨_, _, rfl⟩
theorem switchJtagToSwd : Statement .switchJtagToSwd := ⟨_, _, rfl⟩
theorem switchSwdToJtag : Statement .switchSwdToJtag := ⟨_, _, rfl⟩
theorem switchJtagToDormant : Statement .switchJtagToDormant := ⟨_, _, rfl⟩
theorem switchDormantToJtag : Statement .switchDormantToJtag := ⟨_, _, rfl⟩
theorem switchSwdToDormant : Statement .switchSwdToDormant := ⟨_, _, rfl⟩
theorem switchDormantToSwd : Statement .switchDormantToSwd := ⟨_, _, rfl⟩
theorem switchUnrecognised6 : Statement .switchUnrecognised6 := ⟨_, _, rfl⟩
theorem switchUnrecognised7 : Statement .switchUnrecognised7 := ⟨_, _, rfl⟩
theorem tapStateReset : Statement .tapStateReset := ⟨_, _, rfl⟩
theorem tapStateIdle : Statement .tapStateIdle := ⟨_, _, rfl⟩
theorem tapStateDrSelect : Statement .tapStateDrSelect := ⟨_, _, rfl⟩
theorem tapStateDrCapture : Statement .tapStateDrCapture := ⟨_, _, rfl⟩
theorem tapStateDrShift : Statement .tapStateDrShift := ⟨_, _, rfl⟩
theorem tapStateDrExit1 : Statement .tapStateDrExit1 := ⟨_, _, rfl⟩
theorem tapStateDrPause : Statement .tapStateDrPause := ⟨_, _, rfl⟩
theorem tapStateDrExit2 : Statement .tapStateDrExit2 := ⟨_, _, rfl⟩
theorem tapStateDrUpdate : Statement .tapStateDrUpdate := ⟨_, _, rfl⟩
theorem tapStateIrSelect : Statement .tapStateIrSelect := ⟨_, _, rfl⟩
theorem tapStateIrCapture : Statement .tapStateIrCapture := ⟨_, _, rfl⟩
theorem tapStateIrShift : Statement .tapStateIrShift := ⟨_, _, rfl⟩
theorem tapStateIrExit1 : Statement .tapStateIrExit1 := ⟨_, _, rfl⟩
theorem tapStateIrPause : Statement .tapStateIrPause := ⟨_, _, rfl⟩
theorem tapStateIrExit2 : Statement .tapStateIrExit2 := ⟨_, _, rfl⟩
theorem tapStateIrUpdate : Statement .tapStateIrUpdate := ⟨_, _, rfl⟩

end Sys2Proof.Laws.EncodeHasHeader
end

