-- ==== Sys2Proof/Laws/Records.lean ====
section
/-! SUPPORT. The other parts of a record, encoded and read back, and for each reader what bytes it read: the lemmas a proof that decoding and encoding agree goes through. -/

namespace Sys2Proof

/-- A count operand, encoded and read back. -/
theorem takeCount_encode {n : Nat} (mk : Nat → Instr) (h : fits32 n = true) (r : List Byte) : takeCount mk (u32Bytes n ++ r) = .ok (mk n, r) := by
  simp [takeCount, takeU32_u32Bytes h]

/-- A data word and a count, encoded and read back. -/
theorem takeWordCount_encode {n : Nat} (mk : Word → Nat → Instr) (w : Word) (h : fits32 n = true) (r : List Byte) : takeWordCount mk (u32Bytes w.toNat ++ u32Bytes n ++ r) = .ok (mk w n, r) := by
  have hw : fits32 w.toNat = true := by simp [fits32]; exact w.isLt
  have := takeU32_u32Bytes hw (u32Bytes n ++ r)
  simp only [takeWordCount, takeWord, List.append_assoc, this, takeCount_encode _ h]
  simp

/-- The space and address operands, encoded and read back. -/
theorem takeApAddr_encode (ap : Bool) (a : BitVec 2) (r : List Byte) : takeApAddr (flagByte ap :: a.setWidth 8 :: r) = .ok ((ap, a), r) := by
  have all : ∀ (ap : Bool) (a : BitVec 2), (flagByte ap).toNat < 2 ∧ ((flagByte ap).toNat == 1) = ap ∧ (a.setWidth 8 : Byte).toNat < 4 ∧ BitVec.ofNat 2 (a.setWidth 8 : Byte).toNat = a := by decide
  obtain ⟨h1, h2, h3, h4⟩ := all ap a
  simp only [takeApAddr, takeSmall_cons h1, takeSmall_cons h3, h2, h4]

theorem decode_highTag (h : Byte) (bs : List Byte) (h1 : 7 ≤ h.toNat) (h2 : h.toNat < 16) : decode (h :: bs) = decodeHighTag h bs := by
  simp only [decode]; rw [if_neg (by omega), if_pos h2]

theorem decode_operandRow (h : Byte) (bs : List Byte) (h1 : 16 ≤ h.toNat) (h2 : h.toNat < 128) : decode (h :: bs) = decodeOperandRow h bs := by
  simp only [decode]; rw [if_neg (by omega), if_neg (by omega), if_pos h2]

theorem decode_requestByte (h : Byte) (bs : List Byte) (h1 : 128 ≤ h.toNat) : decode (h :: bs) = decodeRequest h bs := by
  simp only [decode]; rw [if_neg (by omega), if_neg (by omega), if_neg (by omega)]

/-- A JTAG operation at the command port, encoded and read back. -/
theorem decode_encodeOp {op : JtagOp} {i : Instr} (hi : Instr.ofOp op = some i) (hw : op.wellFormed = true) (rest) : decode (encodeOp op ++ rest) = .ok (i, rest) := by
  have h := takeOp_encodeOp hw rest
  obtain ⟨hd, tl, hh⟩ : ∃ hd tl, encodeOp op = hd :: tl := by cases op <;> exact ⟨_, _, rfl⟩
  have hlt : hd.toNat < 7 := by cases op <;> simp [encodeOp] at hh <;> first | (obtain ⟨rfl, _⟩ := hh; decide) | cases hi
  rw [hh] at h ⊢
  simp only [List.cons_append, takeOp, takeByte] at h
  simp only [List.cons_append, decode, if_pos hlt, takeOpCommand, h, hi]

/-- What a count was read from. -/
theorem of_takeU32 {bs r : List Byte} {n} (h : takeU32 bs = .ok (n, r)) : fits32 n = true ∧ u32Bytes n ++ r = bs := by
  match bs, h with
  | b0 :: b1 :: b2 :: b3 :: l, h =>
    simp only [takeU32, Except.ok.injEq, Prod.mk.injEq] at h
    obtain ⟨h1, rfl⟩ := h
    have := b0.isLt; have := b1.isLt; have := b2.isLt; have := b3.isLt
    refine ⟨by simp [fits32]; omega, ?_⟩
    simp only [u32Bytes, List.cons_append, List.nil_append, List.cons.injEq, and_true]
    refine ⟨?_, ?_, ?_, ?_⟩ <;> apply BitVec.eq_of_toNat_eq <;> simp only [BitVec.toNat_ofNat] <;> omega

/-- What a small operand was read from. -/
theorem of_takeSmall {bound : Nat} {bs r : List Byte} {n} (h : takeSmall bound bs = .ok (n, r)) : n < bound ∧ BitVec.ofNat 8 n :: r = bs := by
  match bs, h with
  | b :: l, h =>
    simp only [takeSmall, takeByte] at h
    split at h
    · next hlt => simp only [Except.ok.injEq, Prod.mk.injEq] at h; obtain ⟨rfl, rfl⟩ := h; exact ⟨hlt, by simp⟩
    · cases h

/-- What a state code was read from. -/
theorem of_takeState {bs r : List Byte} {t} (h : takeState bs = .ok (t, r)) : stateByte t :: r = bs := by
  match bs, h with
  | b :: l, h =>
    simp only [takeState, takeByte] at h
    split at h
    · next t' ht =>
      simp only [Except.ok.injEq, Prod.mk.injEq] at h; obtain ⟨rfl, rfl⟩ := h
      have hl : b.toNat < 16 := by
        by_contra hc
        rw [TapState.ofCode, List.getElem?_eq_none (by simp [TapState.all]; omega)] at ht; cases ht
      have all : ∀ n : Fin 16, ∀ t ∈ TapState.ofCode n, stateByte t = BitVec.ofNat 8 n := by decide
      have := all ⟨b.toNat, hl⟩ t' ht
      rw [this]; simp
    · cases h

/-- What a run of items was read from. -/
theorem of_takeMany {α : Type} {one : Reader α} {enc : α → List Byte} {P : α → Prop} (h1 : ∀ bs x r, one bs = .ok (x, r) → P x ∧ enc x ++ r = bs) (n : Nat) :
   ∀ {bs xs r}, takeMany one n bs = .ok (xs, r) → xs.length = n ∧ (∀ x ∈ xs, P x) ∧ xs.flatMap enc ++ r = bs := by
  induction n with
  | zero => intro bs xs r h; simp [takeMany] at h; obtain ⟨rfl, rfl⟩ := h; simp
  | succ n ih =>
    intro bs xs r h
    simp only [takeMany] at h
    split at h
    · cases h
    · next x r1 hx =>
      split at h
      · cases h
      · next xs' r2 hxs =>
        simp only [Except.ok.injEq, Prod.mk.injEq] at h; obtain ⟨rfl, rfl⟩ := h
        obtain ⟨a, b⟩ := h1 _ _ _ hx
        obtain ⟨c, d, e⟩ := ih hxs
        refine ⟨by simp [c], ?_, ?_⟩
        · intro y hy; rcases List.mem_cons.1 hy with rfl | hy; exact a; exact d y hy
        · rw [List.flatMap_cons, List.append_assoc, e, b]

/-- What a counted list was read from. -/
theorem of_takeList {α : Type} {one : Reader α} {enc : α → List Byte} {P : α → Prop} (h1 : ∀ bs x r, one bs = .ok (x, r) → P x ∧ enc x ++ r = bs) {bs xs r} (h : takeList one bs = .ok (xs, r)) :
   fits32 xs.length = true ∧ (∀ x ∈ xs, P x) ∧ u32Bytes xs.length ++ (xs.flatMap enc ++ r) = bs := by
  simp only [takeList] at h
  split at h
  · cases h
  · next n r1 hn =>
    obtain ⟨a, b⟩ := of_takeU32 hn
    obtain ⟨c, d, e⟩ := of_takeMany h1 n h
    rw [c, e]; exact ⟨a, d, b⟩

theorem packBytes_of_byteBits (k : Nat) : ∀ (bs : List Byte) (l : List Bool), bs.length = k → l.length ≤ 8 * k → bs.flatMap byteBits = l ++ List.replicate (8 * k - l.length) false → packBytes k l = bs := by
  intro bs l hk hl h
  have h2 := flatMap_byteBits_packBytes k l hl
  rw [← h] at h2
  have inj : ∀ (x y : List Byte), x.length = y.length → x.flatMap byteBits = y.flatMap byteBits → x = y := by
    intro x
    induction x with
    | nil => intro y hlen _; simp at hlen; exact (List.eq_nil_of_length_eq_zero hlen.symm).symm
    | cons b x ih =>
      intro y hlen hh
      match y, hlen with
      | c :: y, hlen =>
        simp only [List.flatMap_cons] at hh
        have hb : (byteBits b).length = (byteBits c).length := by simp [byteBits]
        obtain ⟨h1, h3⟩ := List.append_inj hh hb
        have hbc : b = c := by
          apply BitVec.eq_of_getLsbD_eq
          intro i hi
          have := congrArg (fun l => l[i]?) h1
          simpa [byteBits, hi] using this
        rw [hbc, ih y (by simpa using hlen) h3]
  exact inj _ _ (by simp [hk]) h2

/-- What a bit buffer was read from: its length is the count, and the padding above it is 0. -/
theorem of_takeBits {n} {bs r : List Byte} {l} (h : takeBits n bs = .ok (l, r)) : l.length = n ∧ packBits l ++ r = bs := by
  simp only [takeBits] at h
  split at h
  · cases h
  · next hlen =>
    split at h
    · cases h
    · next hpad =>
      simp only [Except.ok.injEq, Prod.mk.injEq] at h; obtain ⟨rfl, rfl⟩ := h
      have htl : (bs.take ((n + 7) / 8)).length = (n + 7) / 8 := by simp; omega
      have hfl : ((bs.take ((n + 7) / 8)).flatMap byteBits).length = 8 * ((n + 7) / 8) := by
        have : ∀ x : List Byte, (x.flatMap byteBits).length = 8 * x.length := by
          intro x; induction x with
          | nil => rfl
          | cons b x ih => simp only [List.flatMap_cons, List.length_append, ih, List.length_cons]; simp [byteBits]; omega
        rw [this, htl]
      generalize hal : (bs.take ((n + 7) / 8)).flatMap byteBits = all at *
      have hn : (all.take n).length = n := by simp [hfl]; omega
      refine ⟨hn, ?_⟩
      unfold packBits
      rw [hn]
      rw [packBytes_of_byteBits _ (bs.take ((n + 7) / 8)) _ htl (by rw [hn]; omega)]
      · exact List.take_append_drop _ _
      · rw [hal, hn]
        have : all.drop n = List.replicate (8 * ((n + 7) / 8) - n) false := by
          apply List.eq_replicate_iff.2
          refine ⟨by simp [hfl], ?_⟩
          intro b hb
          by_contra hc
          apply hpad
          rw [List.any_eq_true]; exact ⟨b, hb, by simpa using hc⟩
        rw [← this]; exact (List.take_append_drop _ _).symm

/-- What a scan field was read from. -/
theorem of_takeField (bs x r) (h : takeField bs = .ok (x, r)) : x.wellFormed = true ∧ encodeField x ++ r = bs := by
  simp only [takeField] at h
  split at h
  · cases h
  · next fl r1 h1 =>
    obtain ⟨a1, a2⟩ := of_takeSmall h1
    split at h
    · cases h
    · next n r2 h2 =>
      obtain ⟨b1, b2⟩ := of_takeU32 h2
      have all : ∀ fl : Fin 4, BitVec.ofNat 8 fl.val = BitVec.ofNat 8 ((fl.val.testBit 0).toNat + 2 * (fl.val.testBit 1).toNat) := by decide
      have hfl := all ⟨fl, a1⟩
      simp only at hfl
      split at h
      · next ht =>
        split at h
        · cases h
        · next b r3 h3 =>
          obtain ⟨c1, c2⟩ := of_takeBits h3
          simp only [Except.ok.injEq, Prod.mk.injEq] at h; obtain ⟨rfl, rfl⟩ := h
          refine ⟨by simp only [ScanField.wellFormed, ScanField.len, c1]; exact b1, ?_⟩
          simp only [encodeField, List.cons_append, List.append_assoc, c1, c2, b2]
          rw [← a2, hfl, ht]; simp
      · next ht =>
        simp only [Except.ok.injEq, Prod.mk.injEq] at h; obtain ⟨rfl, rfl⟩ := h
        refine ⟨b1, ?_⟩
        simp only [encodeField, List.cons_append, b2]
        rw [← a2, hfl]; simp [ht]

theorem of_takeStates {bs l r} (h : takeList takeState bs = .ok (l, r)) : fits32 l.length = true ∧ u32Bytes l.length ++ (l.map stateByte ++ r) = bs := by
  have := of_takeList (one := takeState) (enc := fun t => [stateByte t]) (P := fun _ => True) (fun bs x r h => ⟨trivial, of_takeState h⟩) h
  refine ⟨this.1, ?_⟩
  have h2 : ∀ l : List TapState, l.flatMap (fun t => [stateByte t]) = l.map stateByte := by
    intro l; induction l with
    | nil => rfl
    | cons a l ih => rw [List.flatMap_cons, ih]; rfl
  rw [h2] at this; exact this.2.2

/-- What a JTAG operation was read from. -/
theorem of_takeOpOf {tag : Nat} {bs op r} (h : takeOpOf tag bs = .ok (op, r)) : op.wellFormed = true ∧ encodeOp op ++ r = BitVec.ofNat 8 tag :: bs ∧ (tag < 7 ↔ (Instr.ofOp op).isSome = true) := by
  unfold takeOpOf at h
  split at h
  · split at h
    · cases h
    · next h1 =>
      split at h
      · cases h
      · next h2 =>
        simp only [Except.ok.injEq, Prod.mk.injEq] at h; obtain ⟨rfl, rfl⟩ := h
        obtain ⟨a, b⟩ := of_takeU32 h1
        have c := of_takeState h2
        exact ⟨a, by simp [encodeOp, c, b], by simp [Instr.ofOp]⟩
  · split at h
    · cases h
    · next h2 =>
      simp only [Except.ok.injEq, Prod.mk.injEq] at h; obtain ⟨rfl, rfl⟩ := h
      have c := of_takeState h2
      exact ⟨rfl, by simp [encodeOp, c], by simp [Instr.ofOp]⟩
  · split at h
    · cases h
    · next h2 =>
      simp only [Except.ok.injEq, Prod.mk.injEq] at h; obtain ⟨rfl, rfl⟩ := h
      obtain ⟨a, b⟩ := of_takeStates h2
      exact ⟨a, by simp [encodeOp, b], by simp [Instr.ofOp]⟩
  · split at h
    · cases h
    · next ir r1 h1 =>
      obtain ⟨a1, a2⟩ := of_takeSmall h1
      split at h
      · cases h
      · next f r2 h2 =>
        obtain ⟨b1, b2, b3⟩ := of_takeList (P := fun f => ScanField.wellFormed f = true) of_takeField h2
        split at h
        · cases h
        · next t r3 h3 =>
          have c := of_takeState h3
          simp only [Except.ok.injEq, Prod.mk.injEq] at h; obtain ⟨rfl, rfl⟩ := h
          refine ⟨by simp only [JtagOp.wellFormed, b1, Bool.true_and, List.all_eq_true]; exact b2, ?_, by simp [Instr.ofOp]⟩
          have : flagByte (ir == 1) = BitVec.ofNat 8 ir := by
            have : ir = 0 ∨ ir = 1 := by omega
            rcases this with rfl | rfl <;> rfl
          simp only [encodeOp, List.cons_append, List.append_assoc, List.nil_append, this, c, b3, a2]
  · split at h
    · cases h
    · next h1 =>
      split at h
      · cases h
      · next h2 =>
        simp only [Except.ok.injEq, Prod.mk.injEq] at h; obtain ⟨rfl, rfl⟩ := h
        obtain ⟨a, b⟩ := of_takeU32 h1
        obtain ⟨c, d⟩ := of_takeBits h2
        exact ⟨by simp [JtagOp.wellFormed, a, c], by simp [encodeOp, d, b], by simp [Instr.ofOp]⟩
  · split at h
    · cases h
    · next h1 =>
      simp only [Except.ok.injEq, Prod.mk.injEq] at h; obtain ⟨rfl, rfl⟩ := h
      obtain ⟨a, b⟩ := of_takeU32 h1
      exact ⟨a, by simp [encodeOp, b], by simp [Instr.ofOp]⟩
  · split at h
    · cases h
    · next h1 =>
      simp only [Except.ok.injEq, Prod.mk.injEq] at h; obtain ⟨rfl, rfl⟩ := h
      obtain ⟨a, b⟩ := of_takeU32 h1
      exact ⟨a, by simp [encodeOp, b], by simp [Instr.ofOp]⟩
  · next h0 h1 h2 h3 h4 h5 h6 =>
    generalize tag = t at *
    split at h
    · next hlt =>
      simp only [Except.ok.injEq, Prod.mk.injEq] at h; obtain ⟨rfl, rfl⟩ := h
      have h7 : 7 ≤ t := by
        by_contra hc
        have : t = 0 ∨ t = 1 ∨ t = 2 ∨ t = 3 ∨ t = 4 ∨ t = 5 ∨ t = 6 := by omega
        rcases this with h | h | h | h | h | h | h <;> first | exact h0 h | exact h1 h | exact h2 h | exact h3 h | exact h4 h | exact h5 h | exact h6 h
      refine ⟨by simp only [JtagOp.wellFormed, BitVec.toNat_ofNat, decide_eq_true_eq]; rw [Nat.mod_eq_of_lt hlt]; exact h7, ?_, by simp only [Instr.ofOp, Option.isSome_none]; constructor <;> intro h <;> first | omega | cases h⟩
      simp only [encodeOp, List.cons_append, List.nil_append, List.cons.injEq, and_true]
      apply BitVec.eq_of_toNat_eq; simp; omega
    · cases h

theorem of_takeOp (bs op r) (h : takeOp bs = .ok (op, r)) : op.wellFormed = true ∧ encodeOp op ++ r = bs := by
  match bs, h with
  | b :: l, h =>
    simp only [takeOp, takeByte] at h
    obtain ⟨a, b, _⟩ := of_takeOpOf h
    exact ⟨a, by rw [b]; simp⟩

theorem of_takeCount {mk : Nat → Instr} {bs i r} (h : takeCount mk bs = .ok (i, r)) : ∃ n, i = mk n ∧ fits32 n = true ∧ u32Bytes n ++ r = bs := by
  simp only [takeCount] at h
  split at h
  · cases h
  · next h1 =>
    simp only [Except.ok.injEq, Prod.mk.injEq] at h; obtain ⟨rfl, rfl⟩ := h
    obtain ⟨a, b⟩ := of_takeU32 h1
    exact ⟨_, rfl, a, b⟩

theorem of_takeWordCount {mk : Word → Nat → Instr} {bs i r} (h : takeWordCount mk bs = .ok (i, r)) : ∃ w n, i = mk w n ∧ fits32 n = true ∧ u32Bytes w.toNat ++ u32Bytes n ++ r = bs := by
  simp only [takeWordCount, takeWord] at h
  cases h1 : takeU32 bs with
  | error e => rw [h1] at h; cases h
  | ok x =>
    obtain ⟨n, r1⟩ := x
    rw [h1] at h; simp only at h
    obtain ⟨a, b⟩ := of_takeU32 h1
    obtain ⟨m, c, d, e⟩ := of_takeCount h
    refine ⟨_, m, c, d, ?_⟩
    have : (BitVec.ofNat 32 n).toNat = n := by simp [fits32] at a ⊢; exact a
    rw [this, List.append_assoc, e, b]

theorem of_takeApAddr {bs ap a r} (h : takeApAddr bs = .ok ((ap, a), r)) : flagByte ap :: a.setWidth 8 :: r = bs := by
  simp only [takeApAddr] at h
  split at h
  · cases h
  · next n r1 h1 =>
    split at h
    · cases h
    · next m r2 h2 =>
      simp only [Except.ok.injEq, Prod.mk.injEq] at h; obtain ⟨⟨rfl, rfl⟩, rfl⟩ := h
      obtain ⟨a1, a2⟩ := of_takeSmall h1
      obtain ⟨b1, b2⟩ := of_takeSmall h2
      rw [← a2, ← b2]
      have : flagByte (n == 1) = BitVec.ofNat 8 n := by
        have : n = 0 ∨ n = 1 := by omega
        rcases this with rfl | rfl <;> rfl
      rw [this]
      have : (BitVec.ofNat 2 m).setWidth 8 = BitVec.ofNat 8 m := by apply BitVec.eq_of_toNat_eq; simp; omega
      rw [this]

end Sys2Proof
end

