-- ==== Sys2Proof/Laws/Signals.lean ====
section
/-! SUPPORT. What the GPIO reads of the Signal Registry stub do (R278, R285). -/

namespace Sys2Proof.Machine

theorem lowByte_getLsbD (m : BitVec 16) {k : Nat} (hk : k < 8) : (lowByte m).getLsbD k = m.getLsbD k := by
  simp [lowByte, hk]

theorem highByte_getLsbD (m : BitVec 16) {k : Nat} (hk : k < 8) : (highByte m).getLsbD k = m.getLsbD (8 + k) := by
  simp [highByte, hk]

/-- A byte is not zero exactly when it has a bit set. -/
theorem byte_ne_zero_iff (b : BitVec 8) : b ≠ 0 ↔ ∃ k, k < 8 ∧ b.getLsbD k = true := by
  constructor
  · intro h
    by_contra hn
    refine h (BitVec.eq_of_getLsbD_eq fun k hk => ?_)
    cases hb : b.getLsbD k
    · simp
    · exact absurd ⟨k, hk, hb⟩ hn
  · rintro ⟨k, _, hb⟩ rfl
    simp at hb

theorem lowByte_ne_zero_iff (m : BitVec 16) : lowByte m ≠ 0 ↔ ∃ k, k < 8 ∧ m.getLsbD k = true := by
  rw [byte_ne_zero_iff]
  exact exists_congr fun k => and_congr_right fun hk => by rw [lowByte_getLsbD m hk]

theorem highByte_ne_zero_iff (m : BitVec 16) : highByte m ≠ 0 ↔ ∃ k, 8 ≤ k ∧ k < 16 ∧ m.getLsbD k = true := by
  rw [byte_ne_zero_iff]
  constructor
  · rintro ⟨k, hk, hb⟩
    exact ⟨8 + k, by omega, by omega, by rwa [highByte_getLsbD m hk] at hb⟩
  · rintro ⟨k, h8, h16, hb⟩
    refine ⟨k - 8, by omega, ?_⟩
    rwa [highByte_getLsbD m (by omega), show 8 + (k - 8) = k by omega]

/-- R285: a byte group is read exactly when the mask selects a line of it. -/
theorem mem_gpioReads (m : BitVec 16) :
    (.low ∈ gpioReads m ↔ lowByte m ≠ 0) ∧ (.high ∈ gpioReads m ↔ highByte m ≠ 0) := by
  unfold gpioReads
  by_cases h1 : lowByte m = 0 <;> by_cases h2 : highByte m = 0 <;> simp [h1, h2]

/-- R285: a line the mask selects is sampled. -/
theorem gpioSample_masked (m lines : BitVec 16) {k : Nat} (hm : m.getLsbD k = true) :
    (gpioSample (gpioReads m) lines).getLsbD k = lines.getLsbD k := by
  have hk : k < 16 := BitVec.lt_of_getLsbD hm
  unfold gpioSample
  rw [BitVec.getLsbD_append]
  by_cases h8 : k < 8
  · have hc := (mem_gpioReads m).1.2 ((lowByte_ne_zero_iff m).2 ⟨k, h8, hm⟩)
    rw [if_pos h8, if_pos (List.contains_iff_mem.2 hc), readGpio, lowByte_getLsbD _ h8]
  · have hc := (mem_gpioReads m).2.2 ((highByte_ne_zero_iff m).2 ⟨k, by omega, hk, hm⟩)
    rw [if_neg h8, if_pos (List.contains_iff_mem.2 hc), readGpio, highByte_getLsbD _ (by omega),
      show 8 + (k - 8) = k by omega]

end Sys2Proof.Machine
end

