-- ==== Sys2Proof/Laws/Store.lean ====
section
/-! SUPPORT. The laws of the sparse stores: read after write, and that every write keeps the canonical form. -/

namespace Sys2Proof.Machine

namespace Store

variable {α : Type}

theorem get_put_same (m : Store α) (k : Nat) (v : α) : get (put m k v) k = some v := by
  induction m with
  | nil => simp [put, get]
  | cons p r ih =>
    obtain ⟨j, u⟩ := p
    by_cases h1 : k < j
    · simp [put, get, h1]
    · by_cases h2 : k = j
      · simp [put, get, h2]
      · have h3 : j ≠ k := fun e => h2 e.symm
        simp [put, get, h1, h2, h3, ih]

theorem get_put_other (m : Store α) {k i : Nat} (v : α) (h : i ≠ k) : get (put m k v) i = get m i := by
  have h' : k ≠ i := fun e => h e.symm
  induction m with
  | nil => simp [put, get, h']
  | cons p r ih =>
    obtain ⟨j, u⟩ := p
    by_cases h1 : k < j
    · simp [put, get, h1, h']
    · by_cases h2 : k = j
      · subst h2; simp [put, get, h']
      · simp only [put, h1, h2, if_false, get, ih]

theorem above_put {m : Store α} {i k : Nat} {v : α} (hm : above i m = true) (hk : i < k) : above i (put m k v) = true := by
  induction m with
  | nil => simpa [put, above] using hk
  | cons p r ih =>
    obtain ⟨j, u⟩ := p
    simp only [above, List.all_cons, Bool.and_eq_true, decide_eq_true_eq] at hm ih ⊢
    by_cases h1 : k < j
    · simp only [put, h1, if_true, List.all_cons, Bool.and_eq_true, decide_eq_true_eq]
      exact ⟨hk, hm⟩
    · by_cases h2 : k = j
      · simp only [put, h2, Nat.lt_irrefl, if_false, if_true, List.all_cons, Bool.and_eq_true, decide_eq_true_eq]
        exact hm
      · simp only [put, h1, h2, if_false, List.all_cons, Bool.and_eq_true, decide_eq_true_eq]
        exact ⟨hm.1, ih hm.2⟩

theorem above_of_lt {m : Store α} {i j : Nat} (hij : i ≤ j) (hm : above j m = true) : above i m = true := by
  simp only [above, List.all_eq_true, decide_eq_true_eq] at hm ⊢
  exact fun p hp => Nat.lt_of_le_of_lt hij (hm p hp)

/-- A write keeps the canonical form. -/
theorem wf_put {m : Store α} (k : Nat) (v : α) (hm : wf m = true) : wf (put m k v) = true := by
  induction m with
  | nil => simp [put, wf, above]
  | cons p r ih =>
    obtain ⟨j, u⟩ := p
    have hm' := hm
    simp only [wf, Bool.and_eq_true] at hm
    by_cases h1 : k < j
    · simp only [put, h1, if_true, wf, Bool.and_eq_true]
      exact ⟨by simpa [above] using And.intro h1 (by simpa [above] using above_of_lt (Nat.le_of_lt h1) hm.1), hm⟩
    · by_cases h2 : k = j
      · simpa [put, h2, wf] using hm
      · simp only [put, h1, h2, if_false, wf, Bool.and_eq_true]
        exact ⟨above_put hm.1 (by omega), ih hm.2⟩

theorem mem_put {m : Store α} {k : Nat} {v : α} {p : Nat × α} (h : p ∈ put m k v) : p = (k, v) ∨ p ∈ m := by
  induction m with
  | nil => simpa [put] using h
  | cons q r ih =>
    obtain ⟨j, u⟩ := q
    by_cases h1 : k < j
    · simp only [put, h1, if_true, List.mem_cons] at h; simpa using h
    · by_cases h2 : k = j
      · simp only [put, h2, Nat.lt_irrefl, if_false, if_true, List.mem_cons] at h
        rcases h with h | h
        · exact .inl (by simpa [h2] using h)
        · exact .inr (List.mem_cons_of_mem _ h)
      · simp only [put, h1, h2, if_false, List.mem_cons] at h
        rcases h with h | h
        · exact .inr (by simp [h])
        · exact (ih h).imp id (List.mem_cons_of_mem _)

theorem mem_of_get {m : Store α} {k : Nat} {v : α} (h : get m k = some v) : (k, v) ∈ m := by
  induction m with
  | nil => simp [get] at h
  | cons q r ih =>
    obtain ⟨j, u⟩ := q
    by_cases h1 : j = k
    · simp only [get, h1, if_true, Option.some.injEq] at h; simp [h1, h]
    · simp only [get, h1, if_false] at h; exact List.mem_cons_of_mem _ (ih h)

end Store

open Store

/-! ### Scan capture buffers -/

theorem bufBit_putBufBit_same (m : Store (Store Bool)) (b o : Nat) (v : Bool) :
    bufBit (putBufBit m b o v) b o = some v := by
  simp [bufBit, putBufBit, get_put_same]

theorem bufBit_putBufBit_other (m : Store (Store Bool)) {b o b' o' : Nat} (v : Bool) (h : b' ≠ b ∨ o' ≠ o) :
    bufBit (putBufBit m b o v) b' o' = bufBit m b' o' := by
  by_cases hb : b' = b
  · subst hb
    have ho : o' ≠ o := h.resolve_left (fun n => n rfl)
    unfold bufBit putBufBit
    rw [get_put_same]
    simp only [get_put_other _ _ ho]
    cases m.get b' <;> simp [Store.get]
  · unfold bufBit putBufBit
    rw [get_put_other _ _ hb]

/-- The bits delivered stand at their offsets; every other bit of every buffer is as before. -/
theorem bufBit_putBufBits (m : Store (Store Bool)) (b o : Nat) (bits : List Bool) (b' o' : Nat) :
    bufBit (putBufBits m b o bits) b' o' =
      if b' = b ∧ o ≤ o' ∧ o' < o + bits.length then bits[o' - o]? else bufBit m b' o' := by
  induction bits generalizing m o with
  | nil => simp [putBufBits]
  | cons x r ih =>
    rw [putBufBits, ih]
    by_cases hb : b' = b
    · subst hb
      by_cases h0 : o' = o
      · subst h0; simp [bufBit_putBufBit_same]
      · rw [bufBit_putBufBit_other _ _ (.inr h0)]
        by_cases h1 : o ≤ o' ∧ o' < o + (x :: r).length
        · have h2 : o + 1 ≤ o' ∧ o' < o + 1 + r.length := by simp only [List.length_cons] at h1; omega
          rw [if_pos ⟨rfl, h2⟩, if_pos ⟨rfl, h1⟩]
          have h3 : o' - o = (o' - (o + 1)) + 1 := by omega
          rw [h3, List.getElem?_cons_succ]
        · have h2 : ¬(o + 1 ≤ o' ∧ o' < o + 1 + r.length) := by simp only [List.length_cons] at h1; omega
          rw [if_neg (fun h => h2 h.2), if_neg (fun h => h1 h.2)]
    · rw [if_neg (fun h => hb h.1), if_neg (fun h => hb h.1), bufBit_putBufBit_other _ _ (.inl hb)]

theorem capturedWf_putBufBit {m : Store (Store Bool)} (b o : Nat) (v : Bool) (h : capturedWf m = true) :
    capturedWf (putBufBit m b o v) = true := by
  simp only [capturedWf, Bool.and_eq_true, List.all_eq_true] at h ⊢
  refine ⟨wf_put _ _ h.1, fun p hp => ?_⟩
  rcases mem_put hp with rfl | hp
  · apply wf_put
    cases hg : m.get b with
    | none => rfl
    | some u => exact h.2 _ (mem_of_get hg)
  · exact h.2 p hp

theorem capturedWf_putBufBits {m : Store (Store Bool)} (b o : Nat) (bits : List Bool) (h : capturedWf m = true) :
    capturedWf (putBufBits m b o bits) = true := by
  induction bits generalizing m o with
  | nil => exact h
  | cons x r ih => exact ih (o + 1) (capturedWf_putBufBit b o x h)

/-! ### Every operation over the stores keeps the canonical form -/

theorem memory_wf_storeCap {s : State} (c : CapDest) (bits : List Bool) (h : Memory.wf s = true) :
    Memory.wf (storeCap c bits s) = true := by
  cases c with
  | none => exact h
  | raw i n => exact h
  | buf b off n =>
    simp only [Memory.wf, storeCap, Bool.and_eq_true] at h ⊢
    exact ⟨h.1, capturedWf_putBufBits _ _ _ h.2⟩

theorem memory_wf_deliver {s : State} (e : Event) (h : Memory.wf s = true) : Memory.wf (deliver s e) = true :=
  memory_wf_storeCap _ _ (by exact h)

theorem memory_wf_lose {s : State} (e : Event) (h : Memory.wf s = true) : Memory.wf (lose s e) = true :=
  memory_wf_storeCap _ _ (by exact h)

theorem memory_wf_flush {s : State} (h : Memory.wf s = true) : Memory.wf (flush s) = true := by
  have fold : ∀ (f : State → Event → State), (∀ t e, Memory.wf t = true → Memory.wf (f t e) = true) →
      ∀ (es : List Event) (t : State), Memory.wf t = true → Memory.wf (es.foldl f t) = true := by
    intro f hf es
    induction es with
    | nil => exact fun t ht => ht
    | cons e r ih => exact fun t ht => ih _ (hf t e ht)
  unfold flush
  split
  · exact fold _ (fun t e => memory_wf_deliver e) _ _ h
  · exact fold _ (fun t e => memory_wf_lose e) _ _ h

theorem slots_wf_decodeEntries (p : Params) (i : Nat) (es : List Entry) {m : Store Word} (h : m.wf = true) :
    (decodeEntries p i es m).2.1.wf = true := by
  induction es generalizing i m with
  | nil => exact h
  | cons e r ih =>
    unfold decodeEntries
    split
    · exact h
    · split
      · exact ih _ (wf_put _ _ h)
      · exact ih _ h

theorem memory_wf_decodeQueue {s : State} (h : Memory.wf s = true) : Memory.wf (decodeQueue s).1 = true := by
  simp only [Memory.wf, decodeQueue, Bool.and_eq_true] at h ⊢
  exact ⟨slots_wf_decodeEntries _ _ _ h.1, h.2⟩

theorem memory_wf_reset : Memory.wf State.reset = true := by decide

end Sys2Proof.Machine
end

