-- ==== Sys2Proof/Tests/Slice0.lean ====
section
/-! SUPPORT. The model's own tests. Expected values come from the spec: the vectors V1 to V61 and the programs P1 to P5 of
95_test_vectors.md where a name says so, the tables of 30_encoding.md elsewhere. Then, for every statement that has
hypotheses, a state and operands that meet them. -/

namespace Sys2Proof.Tests

open Sys2Proof.Machine

/-! ### Helpers -/

abbrev o : Bool := false
abbrev l : Bool := true

/-- The parameters the vectors assume: bursts of 7, `TMS_OP_TRACKS`, the default `ACK_IGNORED`; six patterns that differ. -/
def params : Params where
  tmsBurstMaxLess1 := 6
  pathMaxLess7 := 1
  swdQueueInitCapLess1 := 9
  swdRunIdle := 8
  trnCycles := 1
  tmsOpTracks := true
  ackIgnoredBytes := [0x99]
  modeSeq :=
    { jtagToSwd := ⟨l, [o]⟩, swdToJtag := ⟨l, [l]⟩, jtagToDormant := ⟨o, [l, o]⟩, dormantToJtag := ⟨o, [l, l]⟩
      swdToDormant := ⟨l, [o, l]⟩, dormantToSwd := ⟨o, []⟩ }
  jtagMode := ⟨true, false⟩
  swdMode := ⟨false, true⟩

/-- The modes of scan data and of SWD traffic under these parameters. -/
abbrev jm : WireMode := .jtag ⟨true, false⟩
abbrev sm : WireMode := .swd ⟨false, true⟩

/-- Reset as the vectors take it, with `swd_cap = 10` and flushes that succeed. -/
def base : State := { State.reset with swdCap := 10, params := params, flushIn := [l, l, l] }

/-- The same in a TAP state. -/
def inState (t : TapState) : State := { base with tapCur := t, tapGoal := t }

/-- The next state of an outcome. -/
def after (x : Host.Outcome State Fault Refusal) : Option State :=
  match x with
  | .next t => some t
  | .fault _ => none
  | .refused _ => none

/-- What the JTAG vectors look at. -/
structure JtagView where
  trace : List Event
  cur : TapState
  goal : TapState
  result : Report
  fatal : Bool
  deriving DecidableEq

def jtag (i : Instr) (s : State) : Option JtagView :=
  (after (exec i s)).map fun t => ⟨t.trace, t.tapCur, t.tapGoal, t.lastResult, t.fatal⟩

/-- What the SWD vectors look at. -/
structure SwdView where
  trace : List Event
  result : Report
  slots : List (Nat × Word)
  len : Nat
  cap : Nat
  sticky : Result
  deriving DecidableEq

def swd (i : Instr) (s : State) : Option SwdView :=
  (after (exec i s)).map fun t => ⟨t.trace, t.lastResult, t.slots, t.swdLen, t.swdCap, t.swdSticky⟩

def ok : Report := ⟨.ok, none⟩

/-- A TMS event with TDI 0 and no capture. -/
def tms (bits : List Bool) : Event := .tms bits false .none

/-- A queued read (or write) of a request byte, its buffer all zero. -/
def entry (cmd : Byte) (wdata : Option Word) (dst : Option Nat) : Entry :=
  { cmd, isRead := wdata.isNone, wdata, dst, raw := List.replicate 38 false, phase := .pending }

/-- DP reads of addresses 0, 1 and 3 in the queue (V50), with their captures pending. -/
def queued : State :=
  { base with
    swdQ := [entry 0xA5 none (some 0), entry 0x8D none (some 1), entry 0xBD none (some 2)]
    swdLen := 3
    nextSlot := 3
    pending := [.bits sm none 38 (.raw 0 38), .bits sm none 38 (.raw 1 38), .bits sm none 38 (.raw 2 38)] }

/-- One DP read of address 0 in the queue (V47), its capture pending; `raw` is what is captured. -/
def oneRead (raw : List Bool) : State :=
  { base with
    swdQ := [entry 0xA5 none (some 0)]
    swdLen := 1
    nextSlot := 1
    pending := [.bits sm none 38 (.raw 0 38)]
    capIn := raw }

/-- The events of a run. -/
def runEvents : List Event := [.bits sm (some [o, o, o, o, o, o, o, o]) 8 .none, .flush]

/-- V47: the frame of a DP read answered OK with 0x2BA01477. -/
def raw47 : List Bool :=
  [o, l, o, o, l, l, l, o, l, l, l, o, o, o, l, o, l, o, o, o, o, o, o, o, o, l, o, l, l, l, o, l, o, l, o, o, o, o]

/-! ### The tracker (V1, V2, V3) -/

theorem test_V1_step :
    tapNext .reset true = .reset ∧ tapNext .reset false = .idle ∧ tapNext .irSelect true = .reset
      ∧ tapNext .drExit2 false = .drShift ∧ tapNext .irUpdate true = .drSelect := by decide +kernel

theorem test_V2_ones_to_reset :
    TapState.all.map (fun t => (List.range 6).find? fun n => tapWalk t (List.replicate n true) == .reset) =
      [0, 3, 2, 5, 5, 4, 5, 4, 3, 1, 5, 5, 4, 5, 4, 3].map some := by decide +kernel

theorem test_T1_paths :
    path .reset .irPause = some [o, l, l, o, l, o] ∧ path .idle .drPause = some [l, o, l, o]
      ∧ path .drShift .irPause = some [l, l, l, l, o, l, o] ∧ path .irShift .drShift = some [l, l, l, o, o]
      ∧ path .drPause .drShift = some [l, o] ∧ path .irPause .reset = some [l, l, l, l, l]
      ∧ path .drCapture .idle = none := by decide +kernel

/-! ### JTAG commands -/

theorem test_V10_runtest_bursts :
    jtag (.execute [.runtest 15 .idle]) (inState .idle) =
      some ⟨[tms (List.replicate 7 o), tms (List.replicate 7 o), tms [o], .flush], .idle, .idle, ok, false⟩ := by decide +kernel

theorem test_V13_runtest_bad_end :
    jtag (.execute [.runtest 5 .drShift]) (inState .idle) =
      some ⟨[tms [o, o, o, o, o]], .idle, .drShift, ⟨.invalidTransition .idle .drShift, some 0⟩, true⟩ := by decide +kernel

theorem test_V12_runtest_alone :
    jtag (.runtest 3 .drPause) base = some ⟨[tms [o], tms [o, o, o], tms [l, o, l, o]], .drPause, .drPause, ok, false⟩ := by
  decide +kernel

theorem test_V15_pathmove_two_bursts :
    jtag (.execute [.pathmove [.drSelect, .drCapture, .drExit1, .drPause, .drExit2, .drShift, .drExit1, .drUpdate, .idle]])
        (inState .idle) =
      some ⟨[tms [l, o, l, o, l, o, l], tms [l, o], .flush], .idle, .idle, ok, false⟩ := by decide +kernel

theorem test_V17_pathmove_fails :
    (jtag (.execute [.pathmove [.drSelect, .drCapture, .drExit1, .drPause, .drExit2, .drShift, .drExit1, .drUpdate,
        .irShift]]) (inState .idle)).map (fun x => (x.trace, x.result, x.fatal)) =
      some ([tms [l, o, l, o, l, o, l]], ⟨.invalidTransition .drUpdate .irShift, some 0⟩, true) := by decide +kernel

theorem test_V20_statemove_reset :
    jtag (.execute [.statemove .reset]) base = some ⟨[tms [l, l, l, l, l], .flush], .reset, .reset, ok, false⟩ := by decide +kernel

theorem test_V4_statemove_shift :
    jtag (.statemove .drShift) (inState .idle) =
      some ⟨[], .idle, .drShift, ⟨.invalidTransition .idle .drShift, none⟩, true⟩ := by decide +kernel

theorem test_V23_stableclocks_reset :
    jtag (.execute [.stableclocks 9]) base = some ⟨[tms (List.replicate 7 l), tms [l, l], .flush], .reset, .reset, ok, false⟩ := by
  decide +kernel

theorem test_V24_stableclocks_pause :
    jtag (.stableclocks 7) (inState .drPause) = some ⟨[tms (List.replicate 7 o)], .drPause, .drPause, ok, false⟩ := by decide +kernel

theorem test_V26_tms_not_cut :
    jtag (.execute [.tms 9 [o, l, l, o, o, o, o, o, o]]) base =
      some ⟨[tms [o, l, l, o, o, o, o, o, o], .flush], .irShift, .reset, ok, false⟩ := by decide +kernel

theorem test_R170_tms_not_tracked :
    jtag (.tms 3 [l, l, l]) { inState .idle with params := { params with tmsOpTracks := false } } =
      some ⟨[tms [l, l, l]], .idle, .idle, ok, false⟩ := by decide +kernel

theorem test_V27_sleep :
    jtag (.execute [.sleep 1000]) (inState .idle) = some ⟨[.flush, .delay 1000, .flush], .idle, .idle, ok, false⟩ := by decide +kernel

theorem test_V28_sleep_flush_fails :
    jtag (.execute [.sleep 1000, .statemove .reset]) { inState .idle with flushIn := [o] } =
      some ⟨[.flush], .idle, .idle, ⟨.transportError, some 0⟩, false⟩ := by decide +kernel

theorem test_V29_unknown_tag :
    jtag (.execute [.statemove .drPause, .other 7, .statemove .idle]) (inState .idle) =
      some ⟨[tms [l, o, l, o]], .drPause, .drPause, ⟨.unknownCommand 1, some 1⟩, true⟩ := by decide +kernel

theorem test_V31_scan_of_nothing :
    jtag (.execute [.scan false [⟨.silent 0, false⟩, ⟨.bits [], true⟩] .idle]) (inState .drPause) =
      some ⟨[.flush], .drPause, .drPause, ok, false⟩ := by decide +kernel

theorem test_V37_scan_fields :
    jtag (.execute [.scan false
        [⟨.bits [l, o, l], true⟩, ⟨.silent 0, false⟩, ⟨.silent 4, true⟩, ⟨.bits [l], false⟩, ⟨.silent 0, false⟩] .drPause])
        (inState .idle) =
      some ⟨[tms [l, o, o], .bits jm (some [l, o, l]) 3 (.buf 0 0 3), .bits jm none 4 (.buf 2 0 4),
        .tms [l] true .none, tms [o], .flush], .drPause, .drPause, ok, false⟩ := by decide +kernel

/-- V33: the seven bits looped back reach the capture buffer. -/
theorem test_V33_scan_loopback :
    ((after (exec (.execute [.scan false [⟨.bits [l, o, l, l, o, o, l], true⟩] .idle])
        { inState .idle with capIn := [l, o, l, l, o, o, l] })).map fun t => (t.captured, t.capIn)) =
      some ([(0, [(0, l), (1, o), (2, l), (3, l), (4, o), (5, o), (6, l)])], []) := by decide +kernel

theorem test_V40_scan_other_pause :
    jtag (.scan true [⟨.bits [l, o], false⟩] .drPause) (inState .idle) =
      some ⟨[tms [l, l, o, o], .bits jm (some [l]) 1 .none, .tms [l] false .none, tms [o], tms [l, l, l, o, l, o]],
        .drPause, .drPause, ok, false⟩ := by decide +kernel

theorem test_V43_scan_bad_end :
    jtag (.execute [.scan false [⟨.bits [o, l], false⟩] .drExit1]) (inState .idle) =
      some ⟨[tms [l, o, o], .bits jm (some [o]) 1 .none, .tms [l] true .none, tms [o]], .drPause, .drExit1,
        ⟨.invalidTransition .drPause .drExit1, some 0⟩, true⟩ := by decide +kernel

/-- P2, end to end. -/
theorem test_P2_execute :
    jtag (.execute [.statemove .idle, .pathmove [.drSelect, .drCapture, .drExit1, .drPause], .stableclocks 10, .sleep 250,
        .statemove .irPause]) base =
      some ⟨[tms [o], tms [l, o, l, o], tms (List.replicate 7 o), tms [o, o, o], .flush, .delay 250,
        tms [l, l, l, l, o, l, o], .flush], .irPause, .irPause, ok, false⟩ := by decide +kernel

theorem test_R180_stableclocks_refused :
    (match exec (.stableclocks 1) (inState .drShift) with
      | .refused r => some r
      | .next _ => none
      | .fault _ => none) = some (.stableclocksUnstable .drShift) := by decide +kernel

/-! ### TAP state rows (R131): each row from a state one transition before it -/

theorem test_tap_rows :
    ∀ x ∈ [(TapState.irSelect, true, Instr.tapStateReset), (.reset, false, .tapStateIdle), (.idle, true, .tapStateDrSelect),
        (.drSelect, false, .tapStateDrCapture), (.drExit2, false, .tapStateDrShift), (.drCapture, true, .tapStateDrExit1),
        (.drExit1, false, .tapStateDrPause), (.drPause, true, .tapStateDrExit2), (.drExit2, true, .tapStateDrUpdate),
        (.drSelect, true, .tapStateIrSelect), (.irSelect, false, .tapStateIrCapture), (.irCapture, false, .tapStateIrShift),
        (.irShift, true, .tapStateIrExit1), (.irExit1, false, .tapStateIrPause), (.irPause, true, .tapStateIrExit2),
        (.irExit1, true, .tapStateIrUpdate)],
      (jtag x.2.2 (inState x.1)).map (fun y => (y.trace, y.result, y.fatal)) = some ([tms [x.2.1]], ok, false) := by decide +kernel

theorem test_tap_row_ends :
    jtag .tapStateIrUpdate (inState .irExit1) = some ⟨[tms [l]], .irUpdate, .irUpdate, ok, false⟩ := by decide +kernel

theorem test_tap_row_fails :
    (jtag .tapStateIrShift (inState .idle)).map (fun y => (y.trace, y.result, y.fatal)) =
      some ([], ⟨.invalidTransition .idle .irShift, none⟩, true) := by decide +kernel

/-! ### SWD -/

theorem test_V45_parity :
    [0x00000000#32, 0x00000001#32, 0x80000000#32, 0xFFFFFFFF#32, 0xDEADBEEF#32, 0x2BA01477#32, 0x12345678#32,
      0x7FFFFFFF#32].map parity = [o, l, l, o, o, o, l, l] := by decide +kernel

theorem test_V46_payload :
    writePayload 0xDEADBEEF#32 =
      [l, l, l, l, o, l, l, l, o, l, l, l, l, l, o, l, l, o, l, l, o, l, o, l, o, l, l, l, l, o, l, l, o] := by decide +kernel

theorem test_V57_ap_read :
    ((after (exec (.swdRead true 3 8) base)).map fun t => (t.trace, t.swdLen, t.lastHandle, t.swdioDir, t.pending.length)) =
      some ([.bits sm (some [l, l, l, l, l, o, o, l]) 8 .none, .dir .float, .bits sm none 38 (.raw 0 38), .dir .drive,
        .bits sm (some [o, o, o, o, o, o, o, o]) 8 .none], 1, some 0, .drive, 5) := by decide +kernel

theorem test_V51_ap_write :
    ((after (exec (.swdWrite true 0 0x23000052 0) base)).map fun t => (t.trace, t.swdLen, t.lastHandle, t.slots)) =
      some ([.bits sm (some [l, l, o, o, o, l, o, l]) 8 .none, .dir .float, .bits sm none 5 (.raw 0 5), .dir .drive,
        .bits sm (some [o, l, o, o, l, o, l, o, o, o, o, o, o, o, o, o, o, o, o, o, o, o, o, o, l, l, o, o, o, l, o, o, o])
          33 .none], 1, none, []) := by decide +kernel

/-- The request rows: the first event sends the row's byte (V44), and an AP row's delay adds one event. -/
theorem test_V44_request_rows :
    ∀ x ∈ [(Instr.swdReqDpWriteA0 0 1, [l, o, o, o, o, o, o, l], 5), (.swdReqDpWriteA1 0 1, [l, o, o, l, o, l, o, l], 5),
        (.swdReqDpWriteA2 0 1, [l, o, o, o, l, l, o, l], 5), (.swdReqDpWriteA3 0 1, [l, o, o, l, l, o, o, l], 5),
        (.swdReqDpReadA0 1, [l, o, l, o, o, l, o, l], 4), (.swdReqDpReadA1 1, [l, o, l, l, o, o, o, l], 4),
        (.swdReqDpReadA2 1, [l, o, l, o, l, o, o, l], 4), (.swdReqDpReadA3 1, [l, o, l, l, l, l, o, l], 4),
        (.swdReqApWriteA0 0 1, [l, l, o, o, o, l, o, l], 6), (.swdReqApWriteA1 0 1, [l, l, o, l, o, o, o, l], 6),
        (.swdReqApWriteA2 0 1, [l, l, o, o, l, o, o, l], 6), (.swdReqApWriteA3 0 1, [l, l, o, l, l, l, o, l], 6),
        (.swdReqApReadA0 1, [l, l, l, o, o, o, o, l], 5), (.swdReqApReadA1 1, [l, l, l, l, o, l, o, l], 5),
        (.swdReqApReadA2 1, [l, l, l, o, l, l, o, l], 5), (.swdReqApReadA3 1, [l, l, l, l, l, o, o, l], 5),
        (.swdReqGeneric true true 1 0 1, [l, l, l, l, o, l, o, l], 5),
        (.swdReqGeneric false false 2 0 1, [l, o, o, o, l, l, o, l], 5)],
      ((after (exec x.1 base)).map fun t => (t.trace.head?, t.trace.length, t.swdLen)) =
        some (some (.bits sm (some x.2.1) 8 .none), x.2.2, 1) := by decide +kernel

theorem test_V47_run_ok :
    swd .swdRun (oneRead raw47) = some ⟨runEvents, ok, [(0, 0x2BA01477)], 0, 10, .ok⟩ := by decide +kernel

theorem test_V50_run_wait :
    swd .swdRun { queued with
        capIn := [o, l, o, o] ++ pairBits 0xAAAAAAAA 32 ++ [o, o] ++ ([o, o, l, o] ++ pairBits 0 32 ++ [o, o])
          ++ ([o, l, o, o] ++ pairBits 0x55555555 32 ++ [o, o]) } =
      some ⟨runEvents, ⟨.ackWait 1, none⟩, [(0, 0xAAAAAAAA)], 0, 10, .ok⟩ := by decide +kernel

theorem test_V54_run_bad_parity :
    swd .swdRun (oneRead (raw47.set 36 l)) = some ⟨runEvents, ⟨.dataIntegrity 0, none⟩, [], 0, 10, .ok⟩ := by decide +kernel

theorem test_V59_run_flush_fails :
    swd .swdRun { oneRead raw47 with flushIn := [o] } = some ⟨runEvents, ⟨.transportError, none⟩, [], 0, 10, .ok⟩ := by
  decide +kernel

theorem test_V56_run_ignored_ack :
    swd .swdRun { base with
        swdQ := [entry 0x99 (some 0x01000001) none, entry 0xA5 none (some 0)], swdLen := 2
        pending := [.bits sm none 5 (.raw 0 5), .bits sm none 38 (.raw 1 38)], capIn := [l, l, l, l, l] ++ raw47 } =
      some ⟨runEvents, ok, [(0, 0x2BA01477)], 0, 10, .ok⟩ := by decide +kernel

/-- P5: the third read finds a queue of two full, its run fails at entry 1, and it does nothing more. -/
theorem test_P5_growth_fails :
    swd (.swdRead false 3 0) { base with
        swdCap := 2, swdQ := [entry 0xA5 none (some 0), entry 0x8D none (some 1)], swdLen := 2, nextSlot := 2
        pending := [.bits sm none 38 (.raw 0 38), .bits sm none 38 (.raw 1 38)]
        capIn := raw47 ++ ([o, o, o, l] ++ pairBits 0 34) } =
      some ⟨runEvents, ok, [(0, 0x2BA01477)], 0, 4, .ackFault 1 0b100⟩ := by decide +kernel

/-- The ack rows: a queue of one read, whose frame is otherwise that of V47, answered so (R106, R217, R218). -/
theorem test_ack_rows :
    ∀ x ∈ [(Instr.swdAckOk 0, Result.ok, 1), (.swdAckWait 0, .ackWait 0, 0), (.swdAckFault 0, .ackFault 0 0b100, 0),
        (.swdAckOther000 0, .ackFault 0 0b000, 0), (.swdAckOther011 0, .ackFault 0 0b011, 0),
        (.swdAckOther101 0, .ackFault 0 0b101, 0), (.swdAckOther110 0, .ackFault 0 0b110, 0),
        (.swdAckOther111 0, .ackFault 0 0b111, 0)],
      ((after (exec x.1 (oneRead raw47))).map fun t => (t.trace, t.lastResult, t.slots.length, t.swdLen)) =
        some (runEvents, ⟨x.2.1, none⟩, x.2.2, 0) := by decide +kernel

/-! ### The Signal Registry stub (R284, R285) -/

/-- A registry of one signal, all of whose lines are inputs, read inverted. -/
def oneInput (mask : BitVec 16) : Registry := ⟨[⟨"S", 0, mask, 0, false, true, false⟩], 0, 0⟩

/-- R285: what `get` reads and answers. -/
def gets (mask lines : BitVec 16) : Option (BitVec 16 × List GpioRead) := ((oneInput mask).get "S" lines).toOption

theorem test_R285_get :
    gets 0x0081 0xFF80 = some (0x0001, [.low]) ∧ gets 0x8100 0x7FFF = some (0x8000, [.high])
      ∧ gets 0x0101 0x0000 = some (0x0101, [.low, .high]) ∧ gets 0 0 = none := by decide +kernel

theorem test_R284_writes :
    Registry.gpioWrites (0x1234, 0x00FF) (0x1234, 0x00FF) = [] ∧ Registry.gpioWrites (0x1234, 0x00FF) (0x5634, 0x00FF) = [.high 0x56 0x00]
      ∧ Registry.gpioWrites (0x1234, 0x00FF) (0x1234, 0x00FE) = [.low 0x34 0xFE] := by decide +kernel

/-! ### Parameters other than the spec's values (R7) -/

/-- R104 with two cycles to a turnaround: 40 captured cycles; R210 with no idle cycles: the flush alone. -/
theorem test_R7_other_values :
    ((after (exec (.swdRead false 0 0) { base with params := { params with trnCycles := 2 } })).map (·.trace)) =
        some [.bits sm (some [l, o, l, o, o, l, o, l]) 8 .none, .dir .float, .bits sm none 40 (.raw 0 40), .dir .drive]
      ∧ (swd .swdRun { base with params := { params with swdRunIdle := 0 } }).map (·.trace) = some [.flush] := by
  decide +kernel

/-! ### Mode switches and tags (V60, V61, R113) -/

theorem test_V60_switch :
    ∀ x ∈ [(0#3, Instr.switchJtagToSwd, [l, o]), (1#3, .switchSwdToJtag, [l, l]), (2#3, .switchJtagToDormant, [o, l, o]),
        (3#3, .switchDormantToJtag, [o, l, l]), (4#3, .switchSwdToDormant, [l, o, l]), (5#3, .switchDormantToSwd, [o])],
      jtag (.switchSequence x.1) base = some ⟨[.bits sm (some x.2.2) x.2.2.length .none], .reset, .reset, ok, false⟩
        ∧ jtag x.2.1 base = jtag (.switchSequence x.1) base := by decide +kernel

theorem test_V61_switch_unknown :
    ∀ x ∈ [(6#3, Instr.switchUnrecognised6), (7#3, .switchUnrecognised7)],
      jtag (.switchSequence x.1) base = some ⟨[], .reset, .reset, ⟨.unknownSequence x.1, none⟩, true⟩
        ∧ jtag x.2 base = jtag (.switchSequence x.1) base := by decide +kernel

theorem test_R113_unassigned_tags :
    ∀ i ∈ [Instr.unassignedTag7, .unassignedTag13, .unassignedTag14, .unassignedTag15],
      (jtag i base).map (fun x => (x.trace, x.result.result.code, x.fatal)) = some ([], 1, true) := by decide +kernel

theorem test_V30_refused_while_fatal :
    jtag (.execute [.statemove .idle]) { base with fatal := true, lastResult := ⟨.unknownCommand 1, some 1⟩ } =
      some ⟨[], .reset, .reset, ⟨.unknownCommand 1, some 1⟩, true⟩ := by decide +kernel

/-! ### Decoding: a record of every constructor, written from R91, R92, R103, R106 and R110 -/

/-- The instruction read at the front of the bytes, and what follows it. -/
def reads (bytes : List Byte) : Option (Instr × List Byte) :=
  match decode bytes with
  | .ok x => some x
  | .error _ => none

/-- Why the bytes are no record. -/
def rejects (bytes : List Byte) : Option DecodeError :=
  match decode bytes with
  | .ok _ => none
  | .error e => some e

theorem test_decode_tags :
    ∀ x ∈ ([
        ([0b00000000, 0x01, 0x02, 0x00, 0x00, 0x06], .runtest 513 .drPause, []),
        ([0b00000001, 0x0D], .statemove .irPause, []),
        ([0b00000010, 0x02, 0x00, 0x00, 0x00, 0x02, 0x09], .pathmove [.drSelect, .irSelect], []),
        ([0b00000011, 0x01, 0x01, 0x00, 0x00, 0x00, 0x01, 0x04, 0x00, 0x00, 0x00, 0b00001110, 0x01], .scan true [⟨.bits [o, l, l, l], false⟩] .idle, []),
        ([0b00000100, 0x09, 0x00, 0x00, 0x00, 0b00000110, 0x01], .tms 9 [o, l, l, o, o, o, o, o, l], []),
        ([0b00000101, 0xFA, 0x00, 0x00, 0x00], .sleep 250, []),
        ([0b00000110, 0x0A, 0x00, 0x00, 0x00], .stableclocks 10, []),
        ([0b00001000, 0x01, 0x03, 0x04, 0x00, 0x00, 0x00], .swdRead true 3 4, []),
        ([0b00001001, 0x00, 0x02, 0xF0, 0x00, 0x00, 0x80, 0x00, 0x00, 0x00, 0x00], .swdWrite false 2 0x800000F0 0, []),
        ([0b00001010, 0xFF], .swdRun, [0xFF]),
        ([0b00001011, 0x07], .switchSequence 7, []),
        ([0b00001100, 0x02, 0x00, 0x00, 0x00, 0x01, 0x06, 0x07], .execute [.statemove .drPause, .other 7], []),
        ([0b00000111], .unassignedTag7, []),
        ([0b00001101], .unassignedTag13, []),
        ([0b00001110], .unassignedTag14, []),
        ([0b00001111], .unassignedTag15, [])] : List (List Byte × Instr × List Byte)),
      reads x.1 = some x.2 := by decide +kernel

/-- R103: park, stop, parity, A[3:2], RnW, APnDP and start, from bit 7 down. -/
theorem test_decode_requests :
    ∀ x ∈ ([
        ([0b10000001, 1, 0, 0, 0, 2, 0, 0, 0], .swdReqDpWriteA0 1 2, []),
        ([0b10101001, 1, 0, 0, 0, 2, 0, 0, 0], .swdReqDpWriteA1 1 2, []),
        ([0b10110001, 1, 0, 0, 0, 2, 0, 0, 0], .swdReqDpWriteA2 1 2, []),
        ([0b10011001, 1, 0, 0, 0, 2, 0, 0, 0], .swdReqDpWriteA3 1 2, []),
        ([0b10100101, 2, 0, 0, 0], .swdReqDpReadA0 2, []),
        ([0b10001101, 2, 0, 0, 0], .swdReqDpReadA1 2, []),
        ([0b10010101, 2, 0, 0, 0], .swdReqDpReadA2 2, []),
        ([0b10111101, 2, 0, 0, 0], .swdReqDpReadA3 2, []),
        ([0b10100011, 1, 0, 0, 0, 2, 0, 0, 0], .swdReqApWriteA0 1 2, []),
        ([0b10001011, 1, 0, 0, 0, 2, 0, 0, 0], .swdReqApWriteA1 1 2, []),
        ([0b10010011, 1, 0, 0, 0, 2, 0, 0, 0], .swdReqApWriteA2 1 2, []),
        ([0b10111011, 1, 0, 0, 0, 2, 0, 0, 0], .swdReqApWriteA3 1 2, []),
        ([0b10000111, 2, 0, 0, 0], .swdReqApReadA0 2, []),
        ([0b10101111, 2, 0, 0, 0], .swdReqApReadA1 2, []),
        ([0b10110111, 2, 0, 0, 0], .swdReqApReadA2 2, []),
        ([0b10011111, 2, 0, 0, 0], .swdReqApReadA3 2, []),
        ([0x40, 0b1011, 1, 0, 0, 0, 2, 0, 0, 0], .swdReqGeneric true true 2 1 2, [])] : List (List Byte × Instr × List Byte)),
      reads x.1 = some x.2 := by decide +kernel

theorem test_decode_acks :
    [0b000, 0b001, 0b010, 0b011, 0b100, 0b101, 0b110, 0b111].map (fun a => reads [0x10 + a, 3, 0, 0, 0]) =
      [.swdAckOther000 3, .swdAckOk 3, .swdAckWait 3, .swdAckOther011 3, .swdAckFault 3, .swdAckOther101 3,
        .swdAckOther110 3, .swdAckOther111 3].map fun i => some (i, []) := by decide +kernel

theorem test_decode_ids :
    [0, 1, 2, 3, 4, 5, 6, 7].map (fun d => reads [0x20 + d]) =
      [.switchJtagToSwd, .switchSwdToJtag, .switchJtagToDormant, .switchDormantToJtag, .switchSwdToDormant,
        .switchDormantToSwd, .switchUnrecognised6, .switchUnrecognised7].map fun i => some (i, []) := by decide +kernel

theorem test_decode_states :
    [0, 1, 2, 3, 4, 5, 6, 7, 8, 9, 10, 11, 12, 13, 14, 15].map (fun c => reads [0x30 + c]) =
      [.tapStateReset, .tapStateIdle, .tapStateDrSelect, .tapStateDrCapture, .tapStateDrShift, .tapStateDrExit1,
        .tapStateDrPause, .tapStateDrExit2, .tapStateDrUpdate, .tapStateIrSelect, .tapStateIrCapture, .tapStateIrShift,
        .tapStateIrExit1, .tapStateIrPause, .tapStateIrExit2, .tapStateIrUpdate].map fun i => some (i, []) := by decide +kernel

/-- What is no record, each refused by name. -/
theorem test_decode_rejects :
    rejects [] = some .truncated ∧ rejects [0x00, 0x01] = some .truncated
      ∧ rejects [0x80] = some (.unknownHeader 0x80) ∧ rejects [0x41] = some (.unknownHeader 0x41)
      ∧ rejects [0xC1] = some (.unknownHeader 0xC1) ∧ rejects [0x01, 0x10] = some (.badStateCode 0x10)
      ∧ rejects [0x0B, 0x08] = some (.badOperand 0x08)
      ∧ rejects [0x04, 0x01, 0x00, 0x00, 0x00, 0x03] = some .badPadding
      ∧ rejects [0x0C, 0x01, 0x00, 0x00, 0x00, 0x10] = some (.badTag 0x10) := by decide +kernel

theorem test_table_words :
    decodeTableWord 8 0x0A = some .swdRun ∧ decodeTableWord 8 0xA5 = some (.swdReqDpReadA0 0)
      ∧ decodeTableWord 8 0x06 = some (.stableclocks 0) ∧ decodeTableWord 8 0xC0 = none := by decide +kernel

theorem test_fetch_runs :
    ((after (step (base.withFetchWord 8 0x0A))).map fun t => (t.trace, t.cmdPort.length)) = some (runEvents, 10) := by decide +kernel

/-! ### WellFormed: an ill-formed term for each check -/

theorem test_ill_formed_counts :
    ∀ i ∈ [Instr.runtest 4294967296 .idle, .sleep 4294967296, .stableclocks 4294967296, .swdRead false 0 4294967296,
        .swdWrite false 0 0 4294967296, .swdReqDpWriteA0 0 4294967296, .swdReqDpWriteA1 0 4294967296,
        .swdReqDpWriteA2 0 4294967296, .swdReqDpWriteA3 0 4294967296, .swdReqDpReadA0 4294967296,
        .swdReqDpReadA1 4294967296, .swdReqDpReadA2 4294967296, .swdReqDpReadA3 4294967296, .swdReqApWriteA0 0 4294967296,
        .swdReqApWriteA1 0 4294967296, .swdReqApWriteA2 0 4294967296, .swdReqApWriteA3 0 4294967296,
        .swdReqApReadA0 4294967296, .swdReqApReadA1 4294967296, .swdReqApReadA2 4294967296, .swdReqApReadA3 4294967296,
        .swdReqGeneric false true 0 0 4294967296, .swdAckOk 4294967296, .swdAckWait 4294967296, .swdAckFault 4294967296,
        .swdAckOther000 4294967296, .swdAckOther011 4294967296, .swdAckOther101 4294967296, .swdAckOther110 4294967296,
        .swdAckOther111 4294967296], i.wellFormed = false := by decide +kernel

theorem test_ill_formed_shapes :
    ∀ i ∈ [Instr.tms 4 [l, o, l], .scan false [⟨.silent 4294967296, false⟩] .idle, .execute [.other 6],
        .execute [.sleep 4294967296], .execute [.tms 0 [l]]], i.wellFormed = false := by decide +kernel

theorem test_ill_formed_long_path (states : List TapState) (h : states.length = 4294967296) :
    (Instr.pathmove states).wellFormed = false := by
  simp [Instr.wellFormed, JtagOp.wellFormed, fits32, h]

theorem test_ill_formed_long_scan (fields : List ScanField) (h : fields.length = 4294967296) :
    (Instr.scan true fields .idle).wellFormed = false := by
  simp [Instr.wellFormed, JtagOp.wellFormed, fits32, h]

theorem test_ill_formed_long_list (ops : List JtagOp) (h : ops.length = 4294967296) :
    (Instr.execute ops).wellFormed = false := by
  simp [Instr.wellFormed, fits32, h]

/-- The spec checks these when they run, so they are well formed. -/
theorem test_well_formed :
    ∀ i ∈ [Instr.runtest 4294967295 .drExit1, .pathmove [.reset, .irShift], .switchSequence 7, .execute [.other 7],
        .swdAckOk 4294967295], i.wellFormed = true := by decide +kernel

/-! ### Witnesses: for each statement with hypotheses, a state and operands that meet them, a theorem to each clause -/

theorem witness_TransitionFacts : 5 ≤ 5 ∧ tapWalk .drShift (List.replicate 5 true) = .reset := by decide

theorem witness_PathReachesGoal : path .reset .irPause = some [o, l, l, o, l, o] ∧ path .idle .reset = some [l, l, l]
    ∧ TapState.reset ∈ walkStates .idle [l, l, l] := by decide

theorem witness_PathIsShortest : path .drShift .irPause = some [l, l, l, l, o, l, o] ∧ TapState.drShift ≠ .irPause
    ∧ tapWalk .drShift [l, l, l, l, o, l, o] = .irPause ∧ path .irShift .irShift = some []
    ∧ TapState.irShift.isPath = true ∧ TapState.irShift ≠ .reset := by decide

theorem witness_Runtest_completes : base.fatal = false ∧ path base.tapCur .idle = some [o] ∧ TapState.reset.isStable = true
    ∧ path .idle .reset = some [l, l, l] := by decide

theorem witness_Runtest_no_path : (inState .drExit1).fatal = false ∧ (inState .drExit1).tapCur.isPath = false := by decide

theorem witness_Runtest_bad_end : base.fatal = false ∧ path base.tapCur .idle = some [o]
    ∧ TapState.drShift.isStable = false := by decide

theorem witness_Statemove_moves : base.fatal = false ∧ base.tapCur = .reset ∧ TapState.reset.isStable = true
    ∧ path base.tapCur .reset = some [l, l, l, l, l] ∧ (inState .drPause).tapCur ≠ .irPause
    ∧ path (inState .drPause).tapCur .irPause = some [l, l, l, l, o, l, o] := by decide

theorem witness_Statemove_there : (inState .drExit1).fatal = false ∧ (inState .drExit1).tapCur = .drExit1
    ∧ TapState.drExit1 ≠ .reset := by decide

theorem witness_Statemove_fails : base.fatal = false ∧ base.tapCur ≠ .drShift ∧ TapState.drShift.isStable = false
    ∧ (inState .irUpdate).tapCur ≠ .idle ∧ (inState .irUpdate).tapCur.isPath = false := by decide

theorem witness_TapResetResynchronises : base.fatal = false ∧ base.tapCur = .reset := by decide

theorem witness_PathmoveCompletes : base.fatal = false ∧ walkStates base.tapCur [] = []
    ∧ walkStates .idle [l, o, l, o, l, o, l, l, o] =
      [.drSelect, .drCapture, .drExit1, .drPause, .drExit2, .drShift, .drExit1, .drUpdate, .idle] := by decide

theorem witness_PathmoveFails : (inState .idle).fatal = false
    ∧ ∀ b, tapNext (tapWalk (inState .idle).tapCur [l, o, l, o, l, o, l, l]) b ≠ .irShift := by decide

theorem witness_TmsCompletes : base.fatal = false := rfl

theorem witness_ScanCompletes : base.fatal = false ∧ path base.tapCur (shiftState true) = some [o, l, l, o, o]
    ∧ 0 < (ScanField.mk (.bits [l]) true).len ∧ (∀ g ∈ [ScanField.mk (.bits []) true], g.len = 0)
    ∧ TapState.idle.isStable = true ∧ path (pauseState true) .idle = some [l, l, o]
    ∧ TapState.reset.isStable = true ∧ path (pauseState true) .reset = some [l, l, l, l, l] := by decide

theorem witness_ScanFails : (inState .drCapture).fatal = false ∧ (inState .drCapture).tapCur.isPath = false
    ∧ 0 < (ScanField.mk (.silent 1) false).len ∧ (∀ g ∈ [ScanField.mk (.bits []) true], g.len = 0)
    ∧ path (inState .idle).tapCur (shiftState false) = some [l, o, o]
    ∧ TapState.drShift.isStable = false := by decide

theorem witness_ScanOfZeroBits : (inState .drUpdate).fatal = false ∧ totalBits [] = 0
    ∧ totalBits [⟨.silent 0, true⟩, ⟨.bits [], false⟩] = 0 := by decide

theorem witness_ScanShiftsEachBitOnce :
    (after (exec (.scan false [⟨.bits [l], true⟩] .drPause) base)).map (·.fatal) = some false := by decide +kernel

theorem witness_SleepCompletes : base.fatal = false ∧ flushOk base = true ∧ flushOk { base with flushIn := [o] } = false := by
  decide

theorem witness_Stableclocks : (inState .irPause).fatal = false ∧ (inState .irPause).tapCur.isStable = true
    ∧ (inState .irShift).tapCur.isStable = false := by decide

theorem witness_ExecuteRealisesInOrder : base.fatal = false ∧ OkChain [] base base
    ∧ ∃ t, OkChain [.statemove .idle] base t := ⟨rfl, rfl, _, _, _, rfl, rfl, rfl, rfl⟩

theorem witness_ExecuteStopsAtFirstError : base.fatal = false ∧ OkChain [] base base
    ∧ Instr.ofOp (.statemove .drShift) = some (.statemove .drShift)
    ∧ ∃ u, exec (.statemove .drShift) base = .next u ∧ u.lastResult.result ≠ .ok :=
  ⟨rfl, rfl, rfl, _, rfl, by decide⟩

theorem witness_ExecuteUnknownTag : base.fatal = false ∧ OkChain [] base base := ⟨rfl, rfl⟩

theorem witness_ExecuteReadyList : base.fatal = false ∧ base.tapCur.isStable = true
    ∧ (∀ op ∈ [JtagOp.sleep 1, .statemove .idle, .sleep 2], opReady op = true)
    ∧ base.flushIn = List.replicate (([JtagOp.sleep 1, .statemove .idle, .sleep 2].filter opIsSleep).length + 1) true ++ [] := by
  decide

theorem witness_LoopedBackScan : ∃ s : State, s.fatal = false ∧ s.tapCur.isPath = true ∧ [l] ≠ [] ∧ s.pending = []
    ∧ s.capIn = [l] ++ [] ∧ s.flushIn = true :: [] :=
  ⟨{ inState .drShift with capIn := [l], flushIn := [true] }, by decide⟩

/-- One transaction short of full. -/
theorem witness_SwdReadEnqueues : Room { base with swdLen := 9 } := ⟨rfl, rfl, by decide⟩

theorem witness_SwdWriteEnqueues : Room { base with swdLen := 9 } := ⟨rfl, rfl, by decide⟩

theorem witness_ReadRequestRows : Room base := ⟨rfl, rfl, by decide⟩

theorem witness_WriteRequestRows : Room base := ⟨rfl, rfl, by decide⟩

theorem witness_GenericRequestRow : Room base := ⟨rfl, rfl, by decide⟩

theorem witness_EnqueueWhileSticky : ∃ s : State, s.fatal = false ∧ s.swdSticky ≠ .ok ∧ s.swdLen < s.swdCap
    ∧ asRead (.swdReqApReadA3 4) = some (true, 3, 4) ∧ asWrite (.swdWrite false 2 0xF0 0) = some (false, 2, 0xF0, 0) :=
  ⟨{ base with swdSticky := .ackWait 1 }, by decide⟩

theorem witness_Growth_ok : ∃ s t : State, s.fatal = false ∧ 1 ≤ s.swdCap ∧ s.swdCap ≤ s.swdLen
    ∧ exec .swdRun s = .next t ∧ t.lastResult.result = .ok :=
  ⟨{ oneRead raw47 with swdCap := 1 }, _, rfl, by decide, by decide, rfl, by decide +kernel⟩

theorem witness_Growth_fails : ∃ s t : State, s.fatal = false ∧ 1 ≤ s.swdCap ∧ s.swdCap ≤ s.swdLen
    ∧ exec .swdRun s = .next t ∧ t.lastResult.result ≠ .ok :=
  ⟨{ oneRead raw47 with swdCap := 1, flushIn := [o] }, _, rfl, by decide, by decide, rfl, by decide +kernel⟩

/-- An entry answered OK, whose frame is that of V47. -/
def goodRead : Entry := { entry 0xA5 none (some 0) with raw := raw47 }

/-- An entry answered OK with a wrong parity bit (V54). -/
def badRead : Entry := { entry 0xA5 none (some 0) with raw := raw47.set 36 l }

theorem goodRead_passes : Passes params goodRead := by unfold Passes; decide +kernel

theorem badRead_fails : ¬ Passes params badRead := by unfold Passes; decide +kernel

/-- A state whose queue is already what the flush would leave: nothing is pending. -/
def settled (q : List Entry) : State := { base with swdQ := q, swdLen := q.length }

theorem settled_flush (q : List Entry) : (afterRunFlush (settled q)).swdQ.take (afterRunFlush (settled q)).swdLen = q := by
  show q.take q.length = q
  exact List.take_length

theorem witness_RunCommitsAll : (settled [goodRead]).fatal = false ∧ (settled [goodRead]).swdSticky = .ok
    ∧ flushOk (settled [goodRead]) = true
    ∧ ∀ e ∈ (afterRunFlush (settled [goodRead])).swdQ.take (afterRunFlush (settled [goodRead])).swdLen,
      Passes (afterRunFlush (settled [goodRead])).params e := by
  refine ⟨rfl, rfl, rfl, fun e he => ?_⟩
  rw [settled_flush, List.mem_singleton] at he
  exact he ▸ goodRead_passes

theorem witness_RunStopsAtFirstFailure : (settled [badRead]).fatal = false ∧ (settled [badRead]).swdSticky = .ok
    ∧ flushOk (settled [badRead]) = true
    ∧ ((afterRunFlush (settled [badRead])).swdQ.take (afterRunFlush (settled [badRead])).swdLen)[0]? = some badRead
    ∧ ¬ Passes (afterRunFlush (settled [badRead])).params badRead
    ∧ ∀ x ∈ ((afterRunFlush (settled [badRead])).swdQ.take (afterRunFlush (settled [badRead])).swdLen).take 0,
      Passes (afterRunFlush (settled [badRead])).params x := by
  refine ⟨rfl, rfl, rfl, ?_, badRead_fails, by simp⟩
  rw [settled_flush]
  rfl

theorem witness_RunFlushFails : ∃ s : State, s.fatal = false ∧ s.swdSticky = .ok ∧ flushOk s = false :=
  ⟨{ base with flushIn := [o] }, by decide⟩

theorem witness_RunWhileSticky : ∃ s : State, s.fatal = false ∧ s.swdSticky ≠ .ok :=
  ⟨{ base with swdSticky := .transportError }, by decide⟩

theorem witness_RunEmptiesQueue : base.fatal = false ∧ 1 ≤ { base with swdCap := 1 }.swdCap := by decide

/-- Both clauses: the one entry is answered WAIT, or OK. -/
theorem witness_AckRows : asAck (.swdAckWait 0) = some (0, 0b010#3) ∧ asAck (.swdAckOk 0) = some (0, 0b001#3)
    ∧ (settled [goodRead]).fatal = false ∧ (settled [goodRead]).swdSticky = .ok ∧ flushOk (settled [goodRead]) = true
    ∧ ((afterRunFlush (settled [goodRead])).swdQ.take (afterRunFlush (settled [goodRead])).swdLen)[0]? = some goodRead
    ∧ 0b010#3 ≠ 0b001#3 ∧ ackIgnored params goodRead.cmd = false ∧ params.trnCycles + 3 ≤ goodRead.raw.length
    ∧ ∀ x ∈ [goodRead].set 0 { goodRead with raw := withAck params 0b001 goodRead.raw }, Passes params x := by
  refine ⟨rfl, rfl, rfl, rfl, rfl, ?_, by decide, by decide, by decide, ?_⟩
  · rw [settled_flush]
    rfl
  · unfold Passes
    decide +kernel

theorem witness_IgnoredAcks : 0x99#8 ∈ requestBytes ∧ 0xBD#8 ∈ requestBytes ∧ ackIgnored Config.params 0x99 = true := by decide

theorem witness_WriteThenReadBack : ∃ (s : State) (z₀ z₁ z₂ z₃ : List Bool), Room s ∧ 2 ≤ s.swdCap ∧ s.swdLen = 0
    ∧ s.pending = [] ∧ (∀ z ∈ [z₀, z₁, z₂, z₃], z.length = s.params.trnCycles)
    ∧ s.capIn = (z₀ ++ [true, false, false] ++ z₁)
      ++ (z₂ ++ [true, false, false] ++ wireOf 0xDEADBEEF#32 ++ [parity 0xDEADBEEF#32] ++ z₃) ++ []
    ∧ s.flushIn = true :: [] :=
  ⟨{ base with
      swdCap := 2, flushIn := [l]
      capIn := ([o] ++ [l, o, o] ++ [l]) ++ ([l] ++ [l, o, o] ++ wireOf 0xDEADBEEF#32 ++ [parity 0xDEADBEEF#32] ++ [o]) ++ [] },
    [o], [l], [l], [o], ⟨rfl, rfl, by decide⟩, by decide, rfl, rfl, by decide, rfl, rfl⟩

theorem witness_SwitchSequence : base.fatal = false := rfl

theorem witness_SwitchRows : base.fatal = false := rfl

theorem witness_UnassignedTagsAreFatal : base.fatal = false := rfl

theorem witness_TapStateRows : base.fatal = false ∧ ∀ b, tapNext base.tapCur b ≠ .drSelect := by decide

theorem witness_RefusedWhileFatal : ∃ s t : State, s.fatal = true ∧ step s = .next t :=
  ⟨{ base with fatal := true, cmdPort := [0x0A] }, _, rfl, rfl⟩

/-- A state with a read in the queue and its capture pending meets every invariant, and its next step runs `swd_run`. -/
def busy : State :=
  { oneRead raw47 with trace := [.bits sm none 38 (.raw 0 38)], slots := [(7, 1)], cmdPort := [0x0A], nextSlot := 8 }

theorem witness_QueueInvKept : QueueInv busy ∧ ∃ t, step busy = .next t :=
  ⟨⟨by decide, by decide, by decide, by decide, by decide +kernel, by decide, by decide, by
    intro e he i n hc
    have : e = .bits sm none 38 (.raw 0 38) := by simpa [busy, oneRead] using he
    subst this
    injection hc with h1 h2
    subst h1 h2
    decide⟩, _, rfl⟩

theorem witness_LatchFollowsResult : LatchInv busy ∧ ∃ t, step busy = .next t := ⟨⟨rfl, rfl⟩, _, rfl⟩

theorem witness_BatchInvKept : BatchInv busy ∧ ∃ t, step busy = .next t := ⟨rfl, _, rfl⟩

theorem witness_MemoryStaysCanonical : Memory.wf busy = true ∧ ∃ t, step busy = .next t := ⟨by decide, _, rfl⟩

theorem witness_LineDrivenBetweenCommands : busy.swdioDir = .drive ∧ ∃ t, step busy = .next t := ⟨rfl, _, rfl⟩

theorem witness_TrackerInLockstep : ∃ s t : State, s.params.tmsOpTracks = true ∧ step s = .next t ∧ t.fatal = false :=
  ⟨{ base with cmdPort := [0x01, 0x0D] }, _, rfl, rfl, rfl⟩

theorem witness_TraceGrowsParamsFixed : ∃ t, step busy = .next t := ⟨_, rfl⟩

theorem witness_SidesApart : (∃ t, exec (.runtest 1 .idle) busy = .next t ∧ isJtag (.runtest 1 .idle) = true)
    ∧ ∃ t, exec .swdRun busy = .next t ∧ isJtag .swdRun = false := ⟨⟨_, rfl, rfl⟩, _, rfl, rfl⟩

theorem witness_StepRunsDecoded : decode busy.cmdPort = .ok (.swdRun, []) ∧ base.cmdPort = []
    ∧ decode [0x80#8] = .error (.unknownHeader 0x80) := ⟨rfl, rfl, rfl⟩

theorem witness_EncodeThenDecode : (Instr.execute [.scan true [⟨.bits [l, o, l], true⟩] .idle, .other 7]).wellFormed = true := by
  decide

theorem witness_DecodeThenEncode : decode [0x0B, 0x05, 0xFF] = .ok (.switchSequence 5, [0xFF]) := rfl

theorem witness_SignalRegistry : ∃ (r r' : Registry) (sig : Signal) (ws : List GpioWrite),
    r.find "R" = some sig ∧ r.set "R" .low = .ok (r', ws) :=
  ⟨⟨[⟨"R", 0x08, 0, 0, false, false, false⟩], 0, 0⟩, _, _, _, rfl, rfl⟩

/-- The clauses on `get`: a zero input mask, and one that needs the high byte group alone (lines 8 and 15). -/
theorem witness_SignalRegistry_get :
    (Registry.find ⟨[⟨"R", 0x08, 0, 0, false, false, false⟩], 0, 0⟩ "R").map (·.inputMask) = some 0
      ∧ Registry.find ⟨[⟨"S", 0, 0x8100, 0, false, true, false⟩], 0, 0⟩ "S"
        = some ⟨"S", 0, 0x8100, 0, false, true, false⟩ := by decide

end Sys2Proof.Tests
end

section
/-! The scope family: what a step does with the record at the front of the command port, and the values of the parameters. -/

namespace Sys2Proof.Machine

open Sys2Proof

/-! ### The step, by what the decoder makes of the command port -/

/-- R17: a record at the front of the port is taken off it and run. The port holds at least that record's header, since no
bytes are no record. -/
theorem step_of_decode_ok {s : State} {i : Instr} {rest : List Byte} (h : decode s.cmdPort = .ok (i, rest)) :
    step s = exec i { s with cmdPort := rest } := by
  cases hport : s.cmdPort with
  | nil =>
    rw [hport] at h
    simp [decode] at h
  | cons b bs =>
    rw [hport] at h
    simp only [step, hport, h]

/-- Log entry 4: with no command at the port the step waits. -/
theorem step_of_cmdPort_nil {s : State} (h : s.cmdPort = []) : step s = .next s := by
  simp only [step, h]

/-- Log entry 12: bytes that are no record stop the step. The empty port, whose decoding fails as well, waits instead. -/
theorem step_of_decode_error {s : State} {e : DecodeError} (hne : s.cmdPort ≠ []) (h : decode s.cmdPort = .error e) :
    step s = .fault (.badRecord e) := by
  obtain ⟨b, bs, hport⟩ := List.exists_cons_of_ne_nil hne
  rw [hport] at h
  simp only [step, hport, h]

/-- Settles O55: its three clauses are the three cases of `step`. -/
theorem stepRunsDecoded : Obligations.StepRunsDecoded :=
  ⟨fun _ _ _ => step_of_decode_ok, fun _ => step_of_cmdPort_nil, fun _ _ => step_of_decode_error⟩

/-! ### The parameters and the frames they give -/

/-- The capacity of the SWD queue at reset is positive whatever the free value behind it (R36). -/
theorem one_le_swdQueueInitCap (p : Params) : 1 ≤ p.swdQueueInitCap := Nat.le_add_left 1 p.swdQueueInitCapLess1

/-- R105: the captured frame of a write has two turnarounds about its 3-bit ack. -/
theorem writeFrameLen_of_one_turnaround {p : Params} (h : p.trnCycles = 1) : writeFrameLen p = 5 := by
  simp only [writeFrameLen, h]

/-- R104: the captured frame of a read is a write's and the 33 payload bits. -/
theorem readFrameLen_of_one_turnaround {p : Params} (h : p.trnCycles = 1) : readFrameLen p = 38 := by
  rw [← writeFrameLen_add, writeFrameLen_of_one_turnaround h]

/-- Settles O60: the spec's values stand in `Config.params`; the frames follow from its one cycle of turnaround. -/
theorem parameterValues : Obligations.ParameterValues :=
  have hturn : State.reset.params.trnCycles = 1 := rfl
  ⟨rfl, rfl, rfl, hturn, rfl, one_le_swdQueueInitCap _, readFrameLen_of_one_turnaround hturn,
    writeFrameLen_of_one_turnaround hturn⟩

end Sys2Proof.Machine
end

section
/-! The state family: an invariant that every part of a command keeps is kept by every step; then each invariant of the block's
state, part by part. -/

namespace Sys2Proof.Machine

open Sys2Proof

/-! ### Events by what they do to the batch and the queue -/

/-- R45, R270: the events that join the pending batch. -/
def Event.isTransport (e : Event) : Prop := e ≠ .flush ∧ e.isDelay = false

/-- R104, R105: what an event captures to the SWD queue goes to one of its first `len` entries, `frame` bits of it at most. -/
def Event.capsWithin (len frame : Nat) (e : Event) : Prop := ∀ i n, e.cap = .raw i n → i < len ∧ n ≤ frame

/-- A Transport event that may be emitted beside a queue of `len` entries. -/
def Event.fitsQueue (len frame : Nat) (e : Event) : Prop := e.isTransport ∧ e.capsWithin len frame

/-- A Transport event that captures to no queue entry: all the block emits but the frames of an enqueue. -/
def Event.isPlain (e : Event) : Prop := e.fitsQueue 0 0

theorem Event.capsWithin.mono {e : Event} {len len' frame frame' : Nat} (h : e.capsWithin len frame) (hl : len ≤ len')
    (hf : frame ≤ frame') : e.capsWithin len' frame' := fun i n hc =>
  ⟨(h i n hc).1.trans_le hl, (h i n hc).2.trans hf⟩

theorem Event.isPlain.fitsQueue {e : Event} (h : e.isPlain) (len frame : Nat) : e.fitsQueue len frame :=
  ⟨h.1, h.2.mono (Nat.zero_le _) (Nat.zero_le _)⟩

theorem isPlain_of_cap_none {e : Event} (ht : e.isTransport) (hc : e.cap = .none) : e.isPlain :=
  ⟨ht, fun _ _ hraw => nomatch hc.symm.trans hraw⟩

theorem isPlain_bits (m : WireMode) (out : Option (List Bool)) (n : Nat) : (Event.bits m out n .none).isPlain :=
  isPlain_of_cap_none ⟨nofun, rfl⟩ rfl

theorem isPlain_dir (d : Dir) : (Event.dir d).isPlain := isPlain_of_cap_none ⟨nofun, rfl⟩ rfl

/-- R202: the capture of a frame into entry `i`. -/
theorem fitsQueue_bits_raw (m : WireMode) (out : Option (List Bool)) {i n frame : Nat} (hn : n ≤ frame) :
    (Event.bits m out n (.raw i n)).fitsQueue (i + 1) frame := by
  refine ⟨⟨nofun, rfl⟩, fun j k hc => ?_⟩
  cases hc
  exact ⟨Nat.lt_succ_self i, hn⟩

theorem isPlain_of_isJtagSide {e : Event} (h : e.isJtagSide) : e.isPlain := by
  unfold Event.isJtagSide at h
  split at h
  · exact isPlain_of_cap_none ⟨nofun, rfl⟩ rfl
  · exact ⟨⟨nofun, rfl⟩, nofun⟩
  · exact isPlain_bits _ _ _
  · exact ⟨⟨nofun, rfl⟩, nofun⟩
  · exact h.elim

theorem idleEvents_isPlain (p : Params) (k : Nat) : ∀ e ∈ idleEvents p k, e.isPlain := by
  unfold idleEvents
  split
  · nofun
  · exact List.forall_mem_singleton.2 (isPlain_bits _ _ _)

/-! ### What the parts of a command keep, every step keeps -/

section Parts

variable {P : State → Prop}
  (hport : ∀ s l, P s → P { s with cmdPort := l })
  (hres : ∀ s r f, P s → P { s with lastResult := r, fatal := f })
  (hhandle : ∀ s n h, P s → P (withHandle n h s))
  (htap : ∀ s c g b f, P s → P { s with tapCur := c, tapGoal := g, nextBuf := b, freeCtr := f })
  (hemit : ∀ s es, (∀ e ∈ es, e.isPlain) → P s → P (emitAll es s))
  (hdelay : ∀ s us, P s → P (emitDelay us s))
  (hflush : ∀ s, P s → P (flush s))
  (henq : ∀ ap a w d h s, Option.isNone w = Option.isSome h → P s → P (enqueue ap a w d h s))
  (hrun : ∀ ans s, P s → P (runQueue ans s).1)

include hres hhandle henq in
theorem readOp_keeps (ap a d s) (hp : P s) : P (readOp ap a d s) :=
  hres _ _ (enqueue ap a none d (some s.nextSlot) (withHandle (s.nextSlot + 1) (some s.nextSlot) s)).fatal
    (henq _ _ _ _ _ _ rfl (hhandle _ _ _ hp))

include hres henq in
theorem writeOp_keeps (ap a w d s) (hp : P s) : P (writeOp ap a w d s) :=
  hres _ _ (enqueue ap a (some w) d none s).fatal (henq _ _ _ _ _ _ rfl hp)

include hres hemit in
theorem switchOp_keeps (id s) (hp : P s) : P (switchOp id s) := by
  unfold switchOp
  split
  · exact hres _ _ s.fatal (hemit s [_] (List.forall_mem_singleton.2 (isPlain_bits _ _ _)) hp)
  · exact hres s _ _ hp

include hport hres hhandle htap hemit hdelay hflush henq hrun in
/-- The parts are those the model's operations are written over: a report, a handle, the tracker, events, a flush, an enqueue,
a run. -/
theorem step_keeps_of_parts {s t : State} (hp : P s) (h : step s = .next t) : P t :=
  step_keeps hport hres
    (fun _ _ => jtagReach_keeps (fun s es hes => hemit s es fun e he => isPlain_of_isJtagSide (hes e he)) htap hflush hdelay)
    (readOp_keeps hres hhandle henq) (writeOp_keeps hres henq) hrun (switchOp_keeps hres hemit) hp h

end Parts

/-- A flush keeps what its emission and each of its deliveries or losses keep. -/
theorem flush_keeps {P : State → Prop} {s : State} (hflushed : P (flushed s))
    (hdeliver : ∀ t, P t → ∀ e ∈ s.pending, P (deliver t e)) (hlose : ∀ t, P t → ∀ e ∈ s.pending, P (lose t e)) :
    P (flush s) := by
  unfold flush
  split
  · exact List.foldlRecOn s.pending deliver hflushed hdeliver
  · exact List.foldlRecOn s.pending lose hflushed hlose

/-! ### Queue entries -/

/-- R103, R116: a request byte the block builds is one of the sixteen. -/
theorem encodeRequest_mem_requestBytes : ∀ ap rnw a, requestBytes.contains (encodeRequest ap rnw a) = true := by decide

/-- R100: the RnW bit of a request byte. -/
theorem rnw_encodeRequest : ∀ ap rnw a, Request.rnw (encodeRequest ap rnw a) = rnw := by decide

theorem Entry.raw_length_of_wf {p : Params} {e : Entry} (h : e.wf p = true) : e.raw.length = readFrameLen p := by
  simp only [Entry.wf, Bool.and_eq_true, beq_iff_eq] at h
  exact h.2

theorem Entry.wf_of_raw_length {p : Params} {e : Entry} {raw : List Bool} (h : e.wf p = true)
    (hl : raw.length = e.raw.length) : Entry.wf p { e with raw := raw } = true := by
  simpa only [Entry.wf, hl] using h

theorem forall_mem_modify {α : Type} {Q : α → Prop} {l : List α} {f : α → α} (h : ∀ a ∈ l, Q a) (hf : ∀ a, Q a → Q (f a))
    (i : Nat) : ∀ a ∈ l.modify i f, Q a := by
  intro a ha
  obtain ⟨j, hj, rfl⟩ := List.mem_iff_getElem.1 ha
  rw [List.getElem_modify]
  split
  · exact hf _ (h _ (List.getElem_mem _))
  · exact h _ (List.getElem_mem _)

/-- What a new entry does to the state: it takes the first place not in use, with its frame and its delay emitted. -/
theorem enqueueEntry_adds {w : Option Word} {h : Option Nat} (hwh : w.isNone = h.isSome) (ap a d) (s : State) :
    ∃ (es : List Event) (e : Entry),
      (∀ x ∈ es, x.fitsQueue (s.swdLen + 1) (readFrameLen s.params))
      ∧ e.wf s.params = true ∧ e.phase = .pending
      ∧ enqueueEntry ap a w d h s =
        { emitAll es s with
          swdQ := s.swdQ.take s.swdLen ++ e :: s.swdQ.drop (s.swdLen + 1)
          swdLen := s.swdLen + 1
          swdioDir := .drive
          freeCtr := s.freeCtr + readFrameLen s.params } := by
  have hidle := fun x hx =>
    (idleEvents_isPlain s.params (if ap then d else 0) x hx).fitsQueue (s.swdLen + 1) (readFrameLen s.params)
  match w, h with
  | none, some h =>
    refine ⟨_, _, ?_, ?_, rfl, enqueueEntry_read ap a d s h⟩
    · simp only [List.forall_mem_append, List.forall_mem_cons]
      exact ⟨⟨(isPlain_bits _ _ _).fitsQueue _ _, (isPlain_dir _).fitsQueue _ _, fitsQueue_bits_raw _ _ le_rfl,
        (isPlain_dir _).fitsQueue _ _, nofun⟩, hidle⟩
    · simp [Entry.wf, encodeRequest_mem_requestBytes, rnw_encodeRequest, freshRaw_read_length, -List.contains_eq_mem]
  | some w, none =>
    have hframe : writeFrameLen s.params ≤ readFrameLen s.params := writeFrameLen_add s.params ▸ Nat.le_add_right _ _
    refine ⟨_, _, ?_, ?_, rfl, enqueueEntry_write ap a d s w⟩
    · simp only [List.forall_mem_append, List.forall_mem_cons]
      exact ⟨⟨(isPlain_bits _ _ _).fitsQueue _ _, (isPlain_dir _).fitsQueue _ _, fitsQueue_bits_raw _ _ hframe,
        (isPlain_dir _).fitsQueue _ _, (isPlain_bits _ _ _).fitsQueue _ _, nofun⟩, hidle⟩
    · simp [Entry.wf, encodeRequest_mem_requestBytes, rnw_encodeRequest, (freshRaw_write w s).1, -List.contains_eq_mem]

/-! ### The shape of the SWD queue -/

/-- R36, R37: what a run keeps of `QueueInv` at every moment: the array's part. It says nothing of the entries in use, whose phases
a run writes. -/
structure QueueArrayInv (s : State) : Prop where
  cap_pos : 1 ≤ s.swdCap
  array_le_cap : s.swdQ.length ≤ s.swdCap
  entries : ∀ e ∈ s.swdQ, e.wf s.params = true
  caps_fit : ∀ e ∈ s.pending, ∀ i n, e.cap = .raw i n → n ≤ readFrameLen s.params

theorem QueueInv.array {s : State} (h : QueueInv s) : QueueArrayInv s where
  cap_pos := h.cap_pos
  array_le_cap := h.array_le_cap
  entries := h.entries
  caps_fit e he i n hc := (h.caps_in_use e he i n hc).2

/-- R216: with no entry in use, the array's part and a batch without captures to the queue are all there is to `QueueInv`. -/
theorem QueueArrayInv.queueInv_of_empty {s : State} (h : QueueArrayInv s) (hlen : s.swdLen = 0)
    (hpend : ∀ e ∈ s.pending, e.capsWithin 0 0) : QueueInv s where
  len_le_cap := by omega
  cap_pos := h.cap_pos
  array_le_cap := h.array_le_cap
  in_array := by omega
  entries := h.entries
  in_use_pending := by simp [hlen]
  sticky_empty _ := hlen
  caps_in_use e he i n hc := absurd (hpend e he i n hc).1 (Nat.not_lt_zero i)

/-- R104: bits put into the front of a `raw` buffer leave its length. -/
theorem entries_wf_storeCap {p : Params} {c : CapDest} {bits : List Bool} {s : State} (h : ∀ e ∈ s.swdQ, e.wf p = true)
    (hfit : ∀ i n, c = .raw i n → n ≤ readFrameLen p) (hlen : bits.length = c.len) :
    ∀ e ∈ (storeCap c bits s).swdQ, e.wf p = true := by
  cases c with
  | none => exact h
  | buf b off n => exact h
  | raw i n =>
    refine forall_mem_modify h (fun e he => e.wf_of_raw_length he ?_) i
    have hbits : bits.length ≤ e.raw.length := by
      rw [hlen, e.raw_length_of_wf he]
      exact hfit i n rfl
    simp only [overlay, List.length_append, List.length_drop]
    omega

theorem entries_wf_flush {s : State} (h : QueueArrayInv s) : ∀ e ∈ (flush s).swdQ, e.wf s.params = true :=
  flush_keeps (P := fun t => ∀ e ∈ t.swdQ, e.wf s.params = true) h.entries
    (fun _ ht x hx => entries_wf_storeCap ht (h.caps_fit x hx) (capBits_length _ _))
    (fun _ ht x hx => entries_wf_storeCap ht (h.caps_fit x hx) (by simp))

theorem QueueArrayInv.flush {s : State} (h : QueueArrayInv s) : QueueArrayInv (flush s) where
  cap_pos := by simpa using h.cap_pos
  array_le_cap := by simpa using h.array_le_cap
  entries := by simpa using entries_wf_flush h
  caps_fit := by simp

theorem QueueArrayInv.emitAll {s : State} {es : List Event} (h : QueueArrayInv s) (hes : ∀ e ∈ es, e.isPlain) :
    QueueArrayInv (emitAll es s) where
  cap_pos := h.cap_pos
  array_le_cap := h.array_le_cap
  entries := h.entries
  caps_fit e he i n hc := (List.mem_append.1 he).elim (fun he => h.caps_fit e he i n hc)
    fun he => (((hes e he).fitsQueue 0 _).2 i n hc).2

/-- R106: an ack written into a `raw` buffer leaves its length. -/
theorem entry_wf_withAck {p : Params} {e : Entry} (h : e.wf p = true) (ack : BitVec 3) :
    Entry.wf p { e with raw := withAck p ack e.raw } = true := by
  refine e.wf_of_raw_length h ?_
  have hraw := e.raw_length_of_wf h
  simp only [readFrameLen] at hraw
  simp only [withAck, wireOf, List.length_append, List.length_take, List.length_map, List.length_range, List.length_drop]
  omega

theorem QueueArrayInv.forceAck {s : State} (h : QueueArrayInv s) (a) : QueueArrayInv (forceAck a s) := by
  unfold Machine.forceAck
  split
  · exact h
  · split
    · exact { h with
        array_le_cap := by simpa using h.array_le_cap
        entries := forall_mem_modify h.entries (fun e he => entry_wf_withAck he _) _ }
    · exact h

/-- R38: decoding changes an entry's phase alone. -/
theorem entries_wf_decodeEntries {p : Params} {es : List Entry} (h : ∀ e ∈ es, e.wf p = true) (i : Nat) (m : Store Word) :
    ∀ e ∈ (decodeEntries p i es m).1, e.wf p = true := by
  induction es generalizing i m with
  | nil => exact h
  | cons x r ih =>
    obtain ⟨hx, hr⟩ := List.forall_mem_cons.1 h
    unfold decodeEntries
    split
    · exact List.forall_mem_cons.2 ⟨hx, hr⟩
    · exact List.forall_mem_cons.2 ⟨hx, ih hr _ _⟩

theorem QueueArrayInv.decodeQueue {s : State} (h : QueueArrayInv s) : QueueArrayInv (decodeQueue s).1 where
  cap_pos := h.cap_pos
  array_le_cap := by
    have harray := h.array_le_cap
    simp only [Machine.decodeQueue, List.length_append, decodeEntries_length, submitted, List.length_map, List.length_take,
      List.length_drop]
    omega
  entries := by
    have hsub : ∀ e ∈ submitted s, e.wf s.params = true :=
      List.forall_mem_map.2 fun e he => h.entries e (List.mem_of_mem_take he)
    exact List.forall_mem_append.2 ⟨entries_wf_decodeEntries hsub 0 s.slots, fun e he => h.entries e (List.mem_of_mem_drop he)⟩
  caps_fit := h.caps_fit

theorem QueueArrayInv.run {s : State} (h : QueueArrayInv s) (a) : QueueArrayInv (runQueue a s).1 :=
  runQueue_keeps (P := QueueArrayInv) (fun s h => h.emitAll (idleEvents_isPlain s.params _)) (fun _ h => h.flush)
    (fun _ h => h.decodeQueue) (fun a _ h => h.forceAck a) (fun _ _ h => { h with }) a s h

/-- R211, R212: a run flushes the batch unless it finds the sticky error set. -/
theorem runQueue_pending {s : State} (h : s.swdSticky = .ok) (a) : (runQueue a s).1.pending = [] := by
  simp only [runQueue, if_pos h, endRun]
  split
  · exact forceAck_keeps (P := fun t => t.pending = []) (fun _ _ ht => ht) a _ (flush_pending _)
  · exact flush_pending _

/-- What a run leaves in the batch captures nothing to the queue, which it emptied. -/
theorem QueueInv.run_caps {s : State} (h : QueueInv s) (a) : ∀ e ∈ (runQueue a s).1.pending, e.capsWithin 0 0 := by
  by_cases hs : s.swdSticky = .ok
  · simp [runQueue_pending hs]
  · rw [runQueue_sticky a hs]
    intro e he i n hc
    exact absurd (h.caps_in_use e he i n hc).1 (by simp [h.sticky_empty hs])

theorem QueueInv.run {s : State} (h : QueueInv s) (a) : QueueInv (runQueue a s).1 :=
  (h.array.run a).queueInv_of_empty (runQueue_end a s).1 (h.run_caps a)

theorem QueueInv.grow {s : State} (h : QueueInv s) : QueueInv (grow s) := by
  have hrun := h.array.run none
  have harray := hrun.array_le_cap
  have hcap := h.cap_pos
  rw [runQueue_cap] at harray
  refine QueueArrayInv.queueInv_of_empty ⟨?_, ?_, hrun.entries, hrun.caps_fit⟩ rfl (h.run_caps none)
  · show 1 ≤ 2 * s.swdCap
    omega
  · show (runQueue none s).1.swdQ.length ≤ 2 * s.swdCap
    omega

/-- R202: where there is room a new entry joins the queue. -/
theorem QueueInv.enqueueEntry {s : State} (h : QueueInv s) (hroom : s.swdLen < s.swdCap) (hs : s.swdSticky = .ok)
    {w : Option Word} {dst : Option Nat} (hw : w.isNone = dst.isSome) (ap a d) : QueueInv (enqueueEntry ap a w d dst s) := by
  obtain ⟨es, e, hes, hwf, hphase, heq⟩ := enqueueEntry_adds hw ap a d s
  have hin := h.in_array
  have htake : (s.swdQ.take s.swdLen).length = s.swdLen := by simpa using hin
  rw [heq]
  exact
    { len_le_cap := hroom
      cap_pos := h.cap_pos
      array_le_cap := by
        have harray := h.array_le_cap
        simp only [List.length_append, htake, List.length_cons, List.length_drop, Machine.emitAll]
        omega
      in_array := by
        simp only [List.length_append, htake, List.length_cons]
        omega
      entries := List.forall_mem_append.2 ⟨fun x hx => h.entries x (List.mem_of_mem_take hx),
        List.forall_mem_cons.2 ⟨hwf, fun x hx => h.entries x (List.mem_of_mem_drop hx)⟩⟩
      in_use_pending := by
        have hused : (s.swdQ.take s.swdLen ++ e :: s.swdQ.drop (s.swdLen + 1)).take (s.swdLen + 1) =
            s.swdQ.take s.swdLen ++ [e] := by
          rw [List.take_append, htake, List.take_of_length_le (by omega)]
          simp
        rw [hused]
        exact List.forall_mem_append.2 ⟨h.in_use_pending, List.forall_mem_singleton.2 hphase⟩
      sticky_empty := fun hne => absurd hs hne
      caps_in_use := List.forall_mem_append.2
        ⟨fun x hx => Event.capsWithin.mono (h.caps_in_use x hx) (Nat.le_succ _) le_rfl, fun x hx => (hes x hx).2⟩ }

theorem QueueInv.enqueue {s : State} (h : QueueInv s) {w : Option Word} {dst : Option Nat} (hw : w.isNone = dst.isSome)
    (ap a d) : QueueInv (enqueue ap a w d dst s) := by
  rcases Nat.lt_or_ge s.swdLen s.swdCap with hroom | hfull
  · by_cases hs : s.swdSticky = .ok
    · rw [enqueue_room hroom hs]
      exact h.enqueueEntry hroom hs hw ap a d
    · rwa [enqueue_sticky hroom hs]
  · rw [enqueue_full hfull]
    split
    · next hs => exact h.grow.enqueueEntry h.grow.cap_pos hs hw ap a d
    · exact h.grow

theorem QueueInv.emitAll {s : State} {es : List Event} (h : QueueInv s) (hes : ∀ e ∈ es, e.isPlain) :
    QueueInv (emitAll es s) :=
  { h with caps_in_use := List.forall_mem_append.2 ⟨h.caps_in_use, fun e he => ((hes e he).fitsQueue _ _).2⟩ }

/-- R72: a flush fills `raw` buffers, and the entries in use stay Pending. -/
theorem QueueInv.flush {s : State} (h : QueueInv s) : QueueInv (flush s) where
  len_le_cap := by simpa using h.len_le_cap
  cap_pos := h.array.flush.cap_pos
  array_le_cap := h.array.flush.array_le_cap
  in_array := by simpa using h.in_array
  entries := h.array.flush.entries
  in_use_pending := by
    have hphases : ((Machine.flush s).swdQ.take s.swdLen).map Entry.phase = (s.swdQ.take s.swdLen).map Entry.phase := by
      have hrequest := congrArg (fun q => (q.take s.swdLen).map fun r => r.2.2.2.2) (flush_swdQ_request s)
      simp only [← List.map_take, List.map_map] at hrequest
      exact hrequest
    rw [flush_swdLen]
    intro e he
    obtain ⟨x, hx, hxe⟩ := List.mem_map.1 (hphases ▸ List.mem_map_of_mem he)
    exact hxe ▸ h.in_use_pending x hx
  sticky_empty := by simpa using h.sticky_empty
  caps_in_use := by simp

/-- Settles O48: every part of a command keeps the queue's shape. An enqueue finds room, at once or in the queue its growth
emptied; a run empties the queue, and the array beneath it keeps its form. -/
theorem queueInvKept : Obligations.QueueInvKept := fun _ _ =>
  step_keeps_of_parts (P := QueueInv) (fun _ _ h => { h with }) (fun _ _ _ h => { h with }) (fun _ _ _ h => { h with })
    (fun _ _ _ _ _ h => { h with }) (fun _ _ hes h => h.emitAll hes) (fun _ _ h => { h with }) (fun _ h => h.flush)
    (fun ap a _ d _ _ hw h => h.enqueue hw ap a d) (fun a _ h => h.run a)

/-! ### The pending batch -/

theorem BatchInv.emitAll {s : State} {es : List Event} (h : BatchInv s) (hes : ∀ e ∈ es, e.isTransport) :
    BatchInv (emitAll es s) :=
  (congrArg (· ++ es) h).trans (batchOf_emit s.trace es hes).symm

theorem BatchInv.emitDelay {s : State} (h : BatchInv s) (us : Nat) : BatchInv (emitDelay us s) :=
  h.trans (batchOf_delay s.trace us).symm

/-- R277: the flush empties the batch and ends the trace. -/
theorem batchInv_flush (s : State) : BatchInv (flush s) := by
  unfold BatchInv
  rw [flush_pending, flush_trace, batchOf_flush]

theorem BatchInv.run {s : State} (h : BatchInv s) (a) : BatchInv (runQueue a s).1 :=
  runQueue_keeps (P := BatchInv) (fun s h => h.emitAll (idleEvents_side s.params _)) (fun s _ => batchInv_flush s)
    (fun _ h => h) (forceAck_keeps fun _ _ h => h) (fun _ _ h => h) a s h

theorem BatchInv.enqueue {s : State} (h : BatchInv s) {w : Option Word} {dst : Option Nat} (hw : w.isNone = dst.isSome)
    (ap a d) : BatchInv (enqueue ap a w d dst s) := by
  refine enqueue_keeps (P := BatchInv) (fun _ h => h.run none) (fun ap a w d dst s hw h => ?_) ap a w d dst s hw h
  obtain ⟨es, e, hes, -, -, heq⟩ := enqueueEntry_adds hw ap a d s
  rw [heq]
  exact h.emitAll fun x hx => (hes x hx).1

/-- Settles O49: Transport events join the trace and the batch alike, a delay the trace alone, and a flush empties the batch. -/
theorem batchInvKept : Obligations.BatchInvKept := fun _ _ =>
  step_keeps_of_parts (P := BatchInv) (fun _ _ h => h) (fun _ _ _ h => h) (fun _ _ _ h => h) (fun _ _ _ _ _ h => h)
    (fun _ _ hes h => h.emitAll fun e he => (hes e he).1) (fun _ us h => h.emitDelay us) (fun s _ => batchInv_flush s)
    (fun ap a _ d _ _ hw h => h.enqueue hw ap a d) (fun a _ h => h.run a)

/-! ### Slots and capture buffers -/

theorem memory_wf_run {s : State} (h : Memory.wf s = true) (a) : Memory.wf (runQueue a s).1 = true :=
  runQueue_keeps (P := fun s => Memory.wf s = true) (fun _ h => h) (fun _ h => memory_wf_flush h)
    (fun _ h => memory_wf_decodeQueue h) (forceAck_keeps fun _ _ h => h) (fun _ _ h => h) a s h

/-- Settles O50: flushes write capture buffers and runs write slots, and their writes keep the keys rising; nothing else writes
either. -/
theorem memoryStaysCanonical : Obligations.MemoryStaysCanonical := fun _ _ =>
  step_keeps_of_parts (P := fun s => Memory.wf s = true) (fun _ _ h => h) (fun _ _ _ h => h) (fun _ _ _ h => h)
    (fun _ _ _ _ _ h => h) (fun _ _ _ h => h) (fun _ _ h => h) (fun _ h => memory_wf_flush h)
    (enqueue_keeps (fun _ h => memory_wf_run h none) fun _ _ _ _ _ _ hw h =>
      enqueueEntry_cases (P := fun s => Memory.wf s = true) hw (fun _ _ _ => h) fun _ _ _ => h)
    (fun a _ h => memory_wf_run h a)

/-! ### The trace, the parameters and the capacity -/

/-- R43, R7: `t` has all of the trace of `s`, perhaps with more after it, and the parameters of `s`. -/
def Extends (s t : State) : Prop := (∃ evs, t.trace = s.trace ++ evs) ∧ t.params = s.params

theorem Extends.refl (s : State) : Extends s s := ⟨⟨[], (List.append_nil _).symm⟩, rfl⟩

theorem Extends.append {s t u : State} (h : Extends s t) {es : List Event} (htrace : u.trace = t.trace ++ es)
    (hparams : u.params = t.params) : Extends s u := by
  obtain ⟨⟨evs, hevs⟩, hp⟩ := h
  exact ⟨⟨evs ++ es, by rw [htrace, hevs, List.append_assoc]⟩, hparams.trans hp⟩

theorem Extends.run {s t : State} (h : Extends s t) (a) : Extends s (runQueue a t).1 :=
  runQueue_keeps (fun _ h => h.append rfl rfl) (fun t h => h.append (flush_trace t) (flush_params t)) (fun _ h => h)
    (forceAck_keeps fun _ _ h => h) (fun _ _ h => h) a t h

theorem step_extends {s t : State} (h : step s = .next t) : Extends s t :=
  step_keeps_of_parts (P := Extends s) (fun _ _ h => h) (fun _ _ _ h => h) (fun _ _ _ h => h) (fun _ _ _ _ _ h => h)
    (fun _ _ _ h => h.append rfl rfl) (fun _ _ h => h.append rfl rfl)
    (fun t h => h.append (flush_trace t) (flush_params t))
    (enqueue_keeps (fun _ h => h.run none) fun _ _ _ _ _ _ hw h =>
      enqueueEntry_cases hw (fun _ _ _ => h.append rfl rfl) fun _ _ _ => h.append rfl rfl)
    (fun a _ h => h.run a) (Extends.refl s) h

/-- R36: no JTAG operation writes the capacity. -/
theorem JtagReach.swdCap_eq {s t : State} (h : JtagReach s t) : t.swdCap = s.swdCap :=
  jtagReach_keeps (P := fun t => t.swdCap = s.swdCap) (fun _ _ _ h => h) (fun _ _ _ _ _ h => h)
    (fun t h => (flush_swdCap t).trans h) (fun _ _ h => h) h rfl

/-- R202: a new entry leaves the capacity. -/
theorem enqueueEntry_swdCap {w : Option Word} {dst : Option Nat} (hw : w.isNone = dst.isSome) (ap a d) (s : State) :
    (enqueueEntry ap a w d dst s).swdCap = s.swdCap :=
  enqueueEntry_cases (P := fun t => t.swdCap = s.swdCap) hw (fun _ _ _ => rfl) fun _ _ _ => rfl

/-- R206: an enqueue doubles the capacity where it grows the queue, which it does once at most. -/
theorem enqueue_swdCap {w : Option Word} {dst : Option Nat} (hw : w.isNone = dst.isSome) (ap a d) (s : State) :
    (enqueue ap a w d dst s).swdCap = s.swdCap ∨ (enqueue ap a w d dst s).swdCap = 2 * s.swdCap := by
  rcases Nat.lt_or_ge s.swdLen s.swdCap with hroom | hfull
  · left
    by_cases hs : s.swdSticky = .ok
    · rw [enqueue_room hroom hs, enqueueEntry_swdCap hw]
    · rw [enqueue_sticky hroom hs]
  · right
    rw [enqueue_full hfull]
    split
    · rw [enqueueEntry_swdCap hw]; rfl
    · rfl

theorem Does.swdCap_eq {s t : State} {b : Bool} (h : Does s b t) : t.swdCap = s.swdCap ∨ t.swdCap = 2 * s.swdCap := by
  have hfinish (k : Option Nat) (r : Run) (hr : r.1.swdCap = s.swdCap) : (finish k r).swdCap = s.swdCap := by
    obtain ⟨res, f, heq⟩ := finish_frame k r
    rwa [heq]
  cases h with
  | op op run h => exact .inl (hfinish _ _ (jtagReach_realise h).swdCap_eq)
  | list ops run n h =>
    left
    split
    · exact hfinish _ _ ((flush_swdCap _).trans (jtagReach_realiseAll h).swdCap_eq)
    · exact hfinish _ _ (jtagReach_realiseAll h).swdCap_eq
  | read ap a d => exact enqueue_swdCap rfl ap a d (withHandle _ _ s)
  | write ap a w d => exact enqueue_swdCap rfl ap a d s
  | run a => exact .inl (runQueue_cap a s)
  | switch id => exact .inl (switchOp_keeps (P := fun t => t.swdCap = s.swdCap) (fun _ _ _ h => h) (fun _ _ _ h => h) id s rfl)
  | unknown n => exact .inl rfl

theorem exec_swdCap {i : Instr} {s t : State} (h : exec i s = .next t) : t.swdCap = s.swdCap ∨ t.swdCap = 2 * s.swdCap := by
  by_cases hf : s.fatal = true
  · rw [exec_fatal i s hf] at h
    cases h
    exact .inl rfl
  · exact (exec_does (by simpa using hf) h).swdCap_eq

theorem step_swdCap {s t : State} (h : step s = .next t) : t.swdCap = s.swdCap ∨ t.swdCap = 2 * s.swdCap := by
  unfold step at h
  split at h
  · cases h
    exact .inl rfl
  · split at h
    · cases h
    · next i rest _ => exact exec_swdCap (s := { s with cmdPort := rest }) h

/-- Settles O53: the trace and the parameters by every part of a command, the capacity by the one enqueue a command holds. -/
theorem traceGrowsParamsFixed : Obligations.TraceGrowsParamsFixed := fun _ _ h =>
  have ⟨htrace, hparams⟩ := step_extends h
  ⟨htrace, hparams, step_swdCap h⟩

/-! ### Reset -/

/-- R341: at reset the queue has its initial capacity and nothing else. -/
theorem queueInv_reset : QueueInv State.reset :=
  QueueArrayInv.queueInv_of_empty ⟨one_le_swdQueueInitCap _, Nat.zero_le _, nofun, nofun⟩ rfl nofun

/-- Settles O47: at reset nothing is queued, pending, written or reported. -/
theorem resetMeetsInvariants : Obligations.ResetMeetsInvariants :=
  ⟨queueInv_reset, ⟨rfl, rfl⟩, rfl, memory_wf_reset, rfl⟩

end Sys2Proof.Machine
end

section
/-! The memory family: a flushed scan delivers to its capture buffer the bits its cycles captured, in order. -/

namespace Sys2Proof.Machine

open Sys2Proof

/-! ### What a scan's capture events deliver -/

/-- R71: bits delivered in two pieces, the second from where the first ends, are delivered as one. -/
theorem putBufBits_append (m : Store (Store Bool)) (b o : Nat) (l l' : List Bool) :
    putBufBits (putBufBits m b o l) b (o + l.length) l' = putBufBits m b o (l ++ l') := by
  induction l generalizing m o with
  | nil => rfl
  | cons x l ih =>
    rw [List.length_cons, Nat.add_comm l.length, ← Nat.add_assoc]
    exact ih (putBufBit m b o x) (o + 1)

section Delivery

variable {f : ScanField} {s : State} {l r : List Bool}

/-- R172, R174: the data event of a capturing field delivers its bits from offset 0 up; no bits are no event. -/
theorem foldl_deliver_dataEvents (hcap : f.capture = true) (hc : s.capIn = l ++ r) (p : Params) (buf : Nat) :
    (dataEvents p f buf l.length).foldl deliver s = { s with capIn := r, captured := putBufBits s.captured buf 0 l } := by
  cases l with
  | nil => rw [← show s.capIn = r from hc]; rfl
  | cons x l =>
    simp only [dataEvents, List.length_cons, Nat.add_one_ne_zero, if_false, hcap, if_true]
    exact deliver_buf (e := .bits _ _ _ (.buf buf 0 (x :: l).length)) rfl rfl hc

/-- R172, R173, R174: the last field of a scan, if it captures, delivers all its bits from offset 0 up, the one clocked
together with TMS = 1 at the end. -/
theorem foldl_deliver_lastFieldEvents (hcap : f.capture = true) (hl : l.length = f.len) (hne : l ≠ [])
    (hc : s.capIn = l ++ r) (p : Params) (buf : Nat) :
    (lastFieldEvents p f buf).foldl deliver s = { s with capIn := r, captured := putBufBits s.captured buf 0 l } := by
  obtain ⟨init, last, rfl⟩ : ∃ init last, l = init ++ [last] := ⟨_, _, (List.dropLast_append_getLast hne).symm⟩
  have hinit : f.len - 1 = init.length := by rw [← hl, List.length_append]; rfl
  rw [List.append_assoc] at hc
  rw [lastFieldEvents, hinit, List.foldl_append, foldl_deliver_dataEvents hcap hc, hcap, ← putBufBits_append, Nat.zero_add]
  exact deliver_buf (e := .tms _ _ (.buf buf init.length 1)) (l := [last]) rfl rfl rfl

/-! ### An `execute` of one scan -/

/-- R160: an `execute` of one operation that completes, and whose closing flush succeeds, ends in that flush. -/
theorem exec_execute_singleton {op : JtagOp} {t : State} (hf : s.fatal = false) (h : realise op 0 s = .ok (t, .ok))
    (hok : flushOk t = true) : exec (.execute [op]) s = .next { flush t with lastResult := ⟨.ok, none⟩ } := by
  simp [exec, execExecute, hf, realiseAll, h, closeExecute, hok, finish_ok]

/-- R172, R176: the state a scan of one field to IDLE ends in, by the path `p` to the shift state. -/
def scannedToIdle (p : List Bool) (f : ScanField) (s : State) : State :=
  { emitAll (tmsEvents p ++ (lastFieldEvents s.params f s.nextBuf ++ [.tms [true, false] false .none])) s with
    tapCur := .idle, tapGoal := .idle, nextBuf := s.nextBuf + 1 }

/-- R172, R176: a scan of one field to IDLE, in closed form. -/
theorem scanOp_singleton_to_idle {ir : Bool} {p : List Bool} (hf : 0 < f.len)
    (hp : path s.tapCur (shiftState ir) = some p) : scanOp ir [f] .idle s = (scannedToIdle p f s, .ok) := by
  obtain ⟨q, hq⟩ : ∃ q, path (pauseState ir) .idle = some q := path_of_isPath (by cases ir <;> rfl) rfl
  have h := scanOp_eq (ir := ir) [] f [] .idle hf nofun hp
  rw [leaveExit1_ok rfl rfl hq] at h
  simpa [emitAll, scannedToIdle, fieldsEvents] using h

/-- R72, R277: a successful flush after such a scan, of a capturing field and from an empty batch, delivers to the scan's
buffer the next bits the environment supplies, and takes them off its list. -/
theorem flush_scannedToIdle (hcap : f.capture = true) (hl : l.length = f.len) (hne : l ≠ []) (hpend : s.pending = [])
    (hc : s.capIn = l ++ r) (hok : flushOk s = true) (p : List Bool) :
    flush (scannedToIdle p f s) =
      { flushed (scannedToIdle p f s) with capIn := r, captured := putBufBits s.captured s.nextBuf 0 l } := by
  have hbatch : (scannedToIdle p f s).pending = tmsEvents p ++ (lastFieldEvents s.params f s.nextBuf
      ++ [.tms [true, false] false .none]) := by
    simp [scannedToIdle, emitAll, hpend]
  rw [flush, if_pos (show flushOk (scannedToIdle p f s) = true from hok), hbatch, List.foldl_append, List.foldl_append,
    foldl_deliver_none (tmsEvents_cap p), foldl_deliver_lastFieldEvents (s := flushed (scannedToIdle p f s)) hcap hl hne hc]
  exact deliver_none (e := .tms _ _ .none) rfl _

end Delivery

/-- Settles O21: the flush puts the captured bits at their offsets of the scan's buffer, and every other bit is as before. -/
theorem loopedBackScan : Obligations.LoopedBackScan := by
  intro ir bits s r r' hf hpath hne hpend hc hflush
  obtain ⟨p, hp⟩ : ∃ p, path s.tapCur (shiftState ir) = some p := path_of_isPath hpath (by cases ir <;> rfl)
  have hok : flushOk s = true := by rw [flushOk, hflush]; rfl
  have hscan := scanOp_singleton_to_idle (f := ⟨.bits bits, true⟩) (List.length_pos_of_ne_nil hne) hp
  have hflushed := flush_scannedToIdle (f := ⟨.bits bits, true⟩) rfl rfl hne hpend hc hok p
  have hbit (b k : Nat) : bufBit (flush (scannedToIdle p ⟨.bits bits, true⟩ s)).captured b k =
      if b = s.nextBuf ∧ k < bits.length then bits[k]? else bufBit s.captured b k := by
    rw [hflushed]
    simp [bufBit_putBufBits]
  exact ⟨_, exec_execute_singleton hf (congrArg Except.ok hscan) hok, rfl, flush_tapCur _, flush_tapGoal _,
    congrArg State.capIn hflushed, fun k hk => (hbit _ k).trans (if_pos ⟨rfl, hk⟩),
    fun b k hbk => (hbit b k).trans (if_neg (by omega))⟩

end Sys2Proof.Machine
end

section
/-! The encoding family: the command record as bytes, decoded and encoded; and the table's rows of request bytes, acks,
mode-switch ids and unassigned tags. -/

namespace Sys2Proof

/-- A JTAG operation on its own has the bytes and the well-formedness it has inside `execute`. -/
theorem encode_ofOp {op : JtagOp} {i : Instr} (hi : Instr.ofOp op = some i) :
    encode i = encodeOp op ∧ i.wellFormed = op.wellFormed := by
  cases op <;> cases hi <;> exact ⟨rfl, rfl⟩

/-! ### What is encoded decodes -/

/-- R93: a 3-bit id, encoded and read back. -/
theorem takeSmall_setWidth (id : BitVec 3) (r : List Byte) : takeSmall 8 (id.setWidth 8 :: r) = .ok (id.toNat, r) := by
  have hid : (id.setWidth 8 : Byte).toNat = id.toNat := BitVec.toNat_setWidth_of_le (by decide)
  rw [takeSmall_cons (hid ▸ id.isLt), hid]

/-- The flags of a generic request: its APnDP and RnW bits and its address (log entry 2). -/
def requestFlags (ap rnw : Bool) (a : BitVec 2) : Nat := ap.toNat + 2 * rnw.toNat + 4 * a.toNat

theorem encode_swdReqGeneric (ap rnw : Bool) (a : BitVec 2) (w : Word) (d : Nat) :
    encode (.swdReqGeneric ap rnw a w d) =
      0x40#8 :: BitVec.ofNat 8 (requestFlags ap rnw a) :: (u32Bytes w.toNat ++ u32Bytes d) := rfl

theorem requestFlags_unpack : ∀ ap rnw a, (requestFlags ap rnw a).testBit 0 = ap
    ∧ (requestFlags ap rnw a).testBit 1 = rnw ∧ BitVec.ofNat 2 (requestFlags ap rnw a / 4) = a := by decide

theorem requestFlags_pack :
    ∀ fl < 16, requestFlags (fl.testBit 0) (fl.testBit 1) (BitVec.ofNat 2 (fl / 4)) = fl := by decide

theorem takeSmall_requestFlags (ap rnw : Bool) (a : BitVec 2) (r : List Byte) :
    takeSmall 16 (BitVec.ofNat 8 (requestFlags ap rnw a) :: r) = .ok (requestFlags ap rnw a, r) := by
  have hlt : ∀ ap rnw a, requestFlags ap rnw a < 16 := by decide
  have hfl : (BitVec.ofNat 8 (requestFlags ap rnw a)).toNat = requestFlags ap rnw a :=
    Nat.mod_eq_of_lt ((hlt ap rnw a).trans (by decide))
  rw [takeSmall_cons (hfl.symm ▸ hlt ap rnw a), hfl]

/-- Log entry 2: every well-formed record is read back, whatever bytes stand after it. -/
theorem decode_encode {i : Instr} (h : i.wellFormed = true) (rest : List Byte) :
    decode (encode i ++ rest) = .ok (i, rest) := by
  cases i
  case runtest c e => exact decode_encodeOp (op := .runtest c e) rfl h rest
  case statemove e => exact decode_encodeOp (op := .statemove e) rfl h rest
  case pathmove l => exact decode_encodeOp (op := .pathmove l) rfl h rest
  case scan ir f e => exact decode_encodeOp (op := .scan ir f e) rfl h rest
  case tms c b => exact decode_encodeOp (op := .tms c b) rfl h rest
  case sleep us => exact decode_encodeOp (op := .sleep us) rfl h rest
  case stableclocks c => exact decode_encodeOp (op := .stableclocks c) rfl h rest
  case swdRead ap a d =>
    have hcount := takeCount_encode (.swdRead ap a) h rest
    simpa [encode, decode_highTag, decodeHighTag, takeApAddr_encode] using hcount
  case swdWrite ap a w d =>
    have hwordCount := takeWordCount_encode (.swdWrite ap a) w h rest
    simpa [encode, decode_highTag, decodeHighTag, takeApAddr_encode] using hwordCount
  case switchSequence id => simp [encode, decode_highTag, decodeHighTag, takeSmall_setWidth]
  case execute ops =>
    obtain ⟨hn, hops⟩ : fits32 ops.length = true ∧ ∀ op ∈ ops, op.wellFormed = true := by
      simpa [Instr.wellFormed] using h
    simp [encode, decode_highTag, decodeHighTag, takeList_flatMap hn fun op hop => takeOp_encodeOp (hops op hop)]
  case swdReqGeneric ap rnw a w d =>
    have hwordCount := takeWordCount_encode (.swdReqGeneric ap rnw a) w h rest
    simpa [-Nat.testBit_zero, encode_swdReqGeneric, decode_operandRow, decodeOperandRow, takeSmall_requestFlags,
      requestFlags_unpack] using hwordCount
  case swdReqDpReadA0 | swdReqDpReadA1 | swdReqDpReadA2 | swdReqDpReadA3 | swdReqApReadA0 | swdReqApReadA1
      | swdReqApReadA2 | swdReqApReadA3 | swdAckOk | swdAckWait | swdAckFault | swdAckOther000 | swdAckOther011
      | swdAckOther101 | swdAckOther110 | swdAckOther111 =>
    exact takeCount_encode _ h rest
  case swdReqDpWriteA0 w _ | swdReqDpWriteA1 w _ | swdReqDpWriteA2 w _ | swdReqDpWriteA3 w _ | swdReqApWriteA0 w _
      | swdReqApWriteA1 w _ | swdReqApWriteA2 w _ | swdReqApWriteA3 w _ =>
    exact takeWordCount_encode _ w h rest
  all_goals rfl -- a header alone

/-- Settles O57: each operand is read back from where its record's encoder put it. -/
theorem encodeThenDecode : Obligations.EncodeThenDecode := fun _ rest h => decode_encode h rest

/-! ### What decodes is the encoding of what it decodes to -/

/-- The bytes `bytes` are those of the well-formed record `i`, with `rest` after it. -/
def Spells (i : Instr) (rest bytes : List Byte) : Prop := i.wellFormed = true ∧ encode i ++ rest = bytes

section Readers

variable {header : Byte} {k : Nat} {i j : Instr} {bs rest operands : List Byte}

theorem header_eq (hk : header.toNat = k) : header = BitVec.ofNat 8 k := by
  rw [← hk, BitVec.ofNat_toNat, BitVec.setWidth_eq]

/-- A record of a header alone. -/
theorem spells_of_header (hk : header.toNat = k) (hj : j.wellFormed = true ∧ encode j = [BitVec.ofNat 8 k])
    (h : (.ok (j, bs) : Except DecodeError (Instr × List Byte)) = .ok (i, rest)) : Spells i rest (header :: bs) := by
  cases h
  exact ⟨hj.1, by rw [hj.2, header_eq hk]; rfl⟩

/-- A record that ends in a count, `operands` standing between its header and the count. -/
theorem spells_of_takeCount {mk : Nat → Instr} (hk : header.toNat = k)
    (hmk : ∀ n, (mk n).wellFormed = fits32 n ∧ encode (mk n) = BitVec.ofNat 8 k :: (operands ++ u32Bytes n))
    (h : takeCount mk bs = .ok (i, rest)) : Spells i rest (header :: (operands ++ bs)) := by
  obtain ⟨n, rfl, hn, rfl⟩ := of_takeCount h
  obtain ⟨hwf, henc⟩ := hmk n
  exact ⟨hwf.trans hn, by rw [henc, header_eq hk, List.cons_append, List.append_assoc]⟩

/-- A record that ends in a data word and a count, `operands` standing between its header and the word. -/
theorem spells_of_takeWordCount {mk : Word → Nat → Instr} (hk : header.toNat = k)
    (hmk : ∀ w n, (mk w n).wellFormed = fits32 n
      ∧ encode (mk w n) = BitVec.ofNat 8 k :: (operands ++ (u32Bytes w.toNat ++ u32Bytes n)))
    (h : takeWordCount mk bs = .ok (i, rest)) : Spells i rest (header :: (operands ++ bs)) := by
  obtain ⟨w, n, rfl, hn, rfl⟩ := of_takeWordCount h
  obtain ⟨hwf, henc⟩ := hmk w n
  exact ⟨hwf.trans hn, by rw [henc, header_eq hk, List.cons_append, List.append_assoc]⟩

/-- Tags 0 to 6. -/
theorem spells_of_takeOpCommand (h : takeOpCommand header bs = .ok (i, rest)) : Spells i rest (header :: bs) := by
  simp only [takeOpCommand] at h
  split at h
  · cases h
  · next op r hop =>
    obtain ⟨hwf, hbytes, -⟩ := of_takeOpOf hop
    split at h
    · next j hj =>
      cases h
      obtain ⟨henc, hwf'⟩ := encode_ofOp hj
      exact ⟨hwf'.trans hwf, by rw [henc, hbytes, ← header_eq rfl]⟩
    · cases h

/-- Tags 7 to 15. -/
theorem spells_of_decodeHighTag (h : decodeHighTag header bs = .ok (i, rest)) : Spells i rest (header :: bs) := by
  unfold decodeHighTag at h
  split at h
  case h_1 hk => -- swd_read
    split at h
    · cases h
    · next ap a r hread =>
      rw [← of_takeApAddr hread]
      exact spells_of_takeCount (operands := [flagByte ap, a.setWidth 8]) hk (fun _ => ⟨rfl, rfl⟩) h
  case h_2 hk => -- swd_write
    split at h
    · cases h
    · next ap a r hread =>
      rw [← of_takeApAddr hread]
      exact spells_of_takeWordCount (operands := [flagByte ap, a.setWidth 8]) hk (fun _ _ => ⟨rfl, rfl⟩) h
  case h_4 hk => -- switch_sequence
    split at h
    · cases h
    · next n r hread =>
      obtain ⟨hn, rfl⟩ := of_takeSmall hread
      cases h
      have hid : (BitVec.ofNat 3 n).setWidth 8 = BitVec.ofNat 8 n := by
        apply BitVec.eq_of_toNat_eq
        simp only [BitVec.toNat_setWidth, BitVec.toNat_ofNat]
        omega
      exact ⟨rfl, by rw [encode, hid, header_eq hk]; rfl⟩
  case h_5 hk => -- execute
    split at h
    · cases h
    · next ops r hread =>
      obtain ⟨hn, hops, rfl⟩ := of_takeList (P := fun op => JtagOp.wellFormed op = true) of_takeOp hread
      cases h
      exact ⟨by simpa [Instr.wellFormed, hn] using hops, by simp [encode, header_eq hk]⟩
  case h_10 => cases h
  all_goals exact spells_of_header ‹_› ⟨rfl, rfl⟩ h -- swd_run and the unassigned tags

/-- The operand rows: acks, ids, state codes and the generic request. -/
theorem spells_of_decodeOperandRow (h : decodeOperandRow header bs = .ok (i, rest)) : Spells i rest (header :: bs) := by
  unfold decodeOperandRow at h
  split at h
  case h_1 hk | h_2 hk | h_3 hk | h_4 hk | h_5 hk | h_6 hk | h_7 hk | h_8 hk => -- acks
    exact spells_of_takeCount (operands := []) hk (fun _ => ⟨rfl, rfl⟩) h
  case h_33 hk => -- the generic request
    split at h
    · cases h
    · next fl r hread =>
      obtain ⟨hfl, rfl⟩ := of_takeSmall hread
      exact spells_of_takeWordCount (operands := [BitVec.ofNat 8 fl]) hk
        (fun _ _ => ⟨rfl, by rw [encode_swdReqGeneric, requestFlags_pack fl hfl]; rfl⟩) h
  case h_34 => cases h
  all_goals exact spells_of_header ‹_› ⟨rfl, rfl⟩ h -- ids and state codes

/-- R103: the sixteen request bytes. -/
theorem spells_of_decodeRequest (h : decodeRequest header bs = .ok (i, rest)) : Spells i rest (header :: bs) := by
  unfold decodeRequest at h
  split at h
  case h_1 hk | h_2 hk | h_3 hk | h_4 hk | h_9 hk | h_10 hk | h_11 hk | h_12 hk => -- writes
    exact spells_of_takeWordCount (operands := []) hk (fun _ _ => ⟨rfl, rfl⟩) h
  case h_17 => cases h
  all_goals exact spells_of_takeCount (operands := []) ‹_› (fun _ => ⟨rfl, rfl⟩) h -- reads

end Readers

/-- Settles O58: the header chooses a reader, and each reader reads the bytes its record is encoded as. -/
theorem decodeThenEncode : Obligations.DecodeThenEncode := by
  intro bytes rest i h
  cases bytes with
  | nil => cases h
  | cons header bs =>
    simp only [decode] at h
    split_ifs at h
    · exact spells_of_takeOpCommand h
    · exact spells_of_decodeHighTag h
    · exact spells_of_decodeOperandRow h
    · exact spells_of_decodeRequest h

/-- Settles O56: each record is the encoding of its instruction, and 0x80 opens none. -/
theorem decodeSamples : Obligations.DecodeSamples :=
  ⟨decode_encode (i := .runtest 10 .idle) rfl [],
    decode_encode (i := .pathmove [.drSelect, .drCapture]) rfl [],
    decode_encode (i := .scan false [⟨.bits [true, false, true, true, false, false, true, true], true⟩] .idle) rfl [],
    decode_encode (i := .tms 5 [true, true, true, true, true]) rfl [],
    decode_encode (i := .swdWrite true 1 0xDEADBEEF 8) rfl [],
    decode_encode (i := .switchSequence 5) rfl [],
    decode_encode (i := .execute [.statemove .irPause]) rfl [],
    decode_encode (i := .swdReqDpReadA0 0) rfl [],
    rfl⟩

end Sys2Proof

namespace Sys2Proof.Machine

open Sys2Proof

/-! ### The request byte and the data parity -/

/-- Settles O22: all sixteen combinations of the fields evaluate to the stated bits and bytes. -/
theorem requestByte : Obligations.RequestByte := ⟨by decide, by decide⟩

theorem wireOf_length {w : Nat} (v : BitVec w) : (wireOf v).length = w := by
  rw [wireOf, List.length_map, List.length_range]

/-- R107: the parity bit is set exactly when the value has an odd number of ones. -/
theorem parity_eq_decide_odd {w : Nat} (v : BitVec w) : parity v = decide ((wireOf v).count true % 2 = 1) := by
  rw [parity, foldl_xor, Bool.false_xor]

/-- A bit that says whether a list has an odd number of ones makes that number even. -/
theorem count_append_odd_bit (l : List Bool) : (l ++ [decide (l.count true % 2 = 1)]).count true % 2 = 0 := by
  rw [List.count_append, List.count_singleton]
  by_cases hodd : l.count true % 2 = 1
  · rw [decide_eq_true hodd, if_pos (by decide)]; omega
  · rw [decide_eq_false hodd, if_neg (by decide)]; omega

/-- Settles O23: the parity bit is a one exactly where the word has an odd number of them. -/
theorem dataParityIsEven : Obligations.DataParityIsEven := fun w =>
  ⟨by rw [writePayload, List.length_append, wireOf_length]; rfl,
    by rw [writePayload, parity_eq_decide_odd]; exact count_append_odd_bit _⟩

/-! ### The request rows -/

section Requests

variable {i : Instr} {s : State} {ap : Bool} {a : BitVec 2} {w : Word} {d idle : Nat} {cmd : Byte}

/-- R202, R203: with room, an instruction that enqueues a read. -/
theorem exec_asRead_room (hi : asRead i = some (ap, a, d)) (hcmd : encodeRequest ap true a = cmd)
    (hidle : (if ap then d else 0) = idle) (h : Room s) :
    ∃ raw, raw.length = readFrameLen s.params ∧ exec i s = .next (enqueuedRead cmd idle raw s) := by
  subst hcmd hidle
  exact ⟨_, freshRaw_read_length s, by rw [exec_asRead hi, command_ok h.not_fatal, readOp_room h]⟩

/-- R202, R204: with room, an instruction that enqueues a write. -/
theorem exec_asWrite_room (hi : asWrite i = some (ap, a, w, d)) (hcmd : encodeRequest ap false a = cmd)
    (hidle : (if ap then d else 0) = idle) (h : Room s) :
    ∃ raw, IsWriteRaw s.params w raw ∧ exec i s = .next (enqueuedWrite cmd w idle raw s) := by
  subst hcmd hidle
  exact ⟨_, freshRaw_write w s, by rw [exec_asWrite hi, command_ok h.not_fatal, writeOp_room h]⟩

end Requests

/-- Settles O26: each row is a read of its space and address, whose request byte is the row's. -/
theorem readRequestRows : Obligations.ReadRequestRows := fun _ _ h =>
  ⟨exec_asRead_room rfl rfl rfl h, exec_asRead_room rfl rfl rfl h, exec_asRead_room rfl rfl rfl h,
    exec_asRead_room rfl rfl rfl h, exec_asRead_room rfl rfl rfl h, exec_asRead_room rfl rfl rfl h,
    exec_asRead_room rfl rfl rfl h, exec_asRead_room rfl rfl rfl h⟩

/-- Settles O27: each row is a write to its space and address, whose request byte is the row's. -/
theorem writeRequestRows : Obligations.WriteRequestRows := fun _ _ _ h =>
  ⟨exec_asWrite_room rfl rfl rfl h, exec_asWrite_room rfl rfl rfl h, exec_asWrite_room rfl rfl rfl h,
    exec_asWrite_room rfl rfl rfl h, exec_asWrite_room rfl rfl rfl h, exec_asWrite_room rfl rfl rfl h,
    exec_asWrite_room rfl rfl rfl h, exec_asWrite_room rfl rfl rfl h⟩

/-! ### The mode-switch ids and the unassigned tags -/

section Switches

variable {s : State} {id : BitVec 3}

/-- R253: the pattern of a recognised id is one event. -/
theorem command_switchOp_known {p : BitPattern} (hf : s.fatal = false) (h : modePattern s.params.modeSeq id = some p) :
    command (switchOp id) s = .next { emitAll [.bits (swdWire s.params) (some p.bits) p.bits.length .none] s with
      lastResult := ⟨.ok, none⟩ } := by
  rw [command_ok hf, switchOp, h]
  rfl

/-- R115: an unrecognised id is a fatal error. -/
theorem command_switchOp_unknown (hf : s.fatal = false) (h : modePattern s.params.modeSeq id = none) :
    command (switchOp id) s = .next { s with lastResult := ⟨.unknownSequence id, none⟩, fatal := true } := by
  rw [command_ok hf, switchOp_unknown s id h]

/-- R113: an unknown tag is a fatal error. -/
theorem command_unknownTag (hf : s.fatal = false) (tag : Nat) :
    command (unknownTag tag) s = .next { s with lastResult := ⟨.unknownCommand tag, none⟩, fatal := true } := by
  rw [command_ok hf, unknownTag, raise, Result.isFatal, Bool.or_true]

end Switches

/-- Settles O40: each row is the lookup of its id. -/
theorem switchRows : Obligations.SwitchRows := by
  intro s hf
  simp only [List.forall_mem_cons, List.not_mem_nil, false_imp_iff, implies_true, and_true]
  exact ⟨⟨command_switchOp_known (id := 0) hf rfl, command_switchOp_known (id := 1) hf rfl,
    command_switchOp_known (id := 2) hf rfl, command_switchOp_known (id := 3) hf rfl,
    command_switchOp_known (id := 4) hf rfl, command_switchOp_known (id := 5) hf rfl⟩,
    command_switchOp_unknown (id := 6) hf rfl, command_switchOp_unknown (id := 7) hf rfl⟩

/-- Settles O42: each row is its tag, unknown at the command port. -/
theorem unassignedTagsAreFatal : Obligations.UnassignedTagsAreFatal := by
  intro s hf
  simp only [List.forall_mem_cons, List.not_mem_nil, false_imp_iff, implies_true, and_true]
  exact ⟨⟨7, command_unknownTag hf 7⟩, ⟨13, command_unknownTag hf 13⟩, ⟨14, command_unknownTag hf 14⟩,
    ⟨15, command_unknownTag hf 15⟩⟩

/-! ### The ack rows -/

section Acks

variable {p : Params} {ack : BitVec 3} {k : Nat} {e : Entry} {u : State}

theorem forceAck_params (a u) : (forceAck a u).params = u.params :=
  forceAck_keeps (P := fun t => t.params = u.params) (fun _ _ h => h) a u rfl

/-- R106: the entry `e` with its captured ack field holding `ack`. -/
def Entry.answered (p : Params) (ack : BitVec 3) (e : Entry) : Entry := { e with raw := withAck p ack e.raw }

theorem lt_swdLen_of_inUse (hk : (u.swdQ.take u.swdLen)[k]? = some e) : k < u.swdLen :=
  (List.getElem?_eq_some_iff.1 hk).1.trans_le (List.length_take_le _ _)

/-- R106: in an entry in use the ack field is set, and nothing else changes. -/
theorem forceAck_eq (hk : (u.swdQ.take u.swdLen)[k]? = some e) :
    forceAck (some (k, ack)) u = { u with swdQ := u.swdQ.set k (e.answered u.params ack) } := by
  have hlt := lt_swdLen_of_inUse hk
  rw [forceAck, if_pos hlt, List.modify_eq_set_getElem?, ← List.getElem?_take_of_lt hlt, hk]
  rfl

/-- The entries in use once entry `k` was answered. -/
theorem forceAck_inUse (hk : (u.swdQ.take u.swdLen)[k]? = some e) :
    (forceAck (some (k, ack)) u).swdQ.take (forceAck (some (k, ack)) u).swdLen =
      (u.swdQ.take u.swdLen).set k (e.answered u.params ack) := by
  rw [forceAck_eq hk, List.take_set]

/-- The entries beyond the queue's length are none that was answered. -/
theorem runStopped_forceAck (hk : (u.swdQ.take u.swdLen)[k]? = some e) (q : List Entry) (j : Nat) (r : Result) :
    runStopped q j r (forceAck (some (k, ack)) u) = runStopped q j r u := by
  rw [forceAck_eq hk]
  simp only [runStopped, List.drop_set_of_lt (lt_swdLen_of_inUse hk)]

/-- R217, R218: an entry answered otherwise than OK does not pass unless its ack is ignored. -/
theorem not_passes_answered (hne : ack ≠ 0b001#3) (hign : ackIgnored p e.cmd = false)
    (hlen : p.trnCycles + 3 ≤ e.raw.length) : ¬ Passes p (e.answered p ack) := by
  have hack : rawAck p (e.answered p ack).raw = ack := rawAck_withAck p ack e.raw hlen
  rintro (⟨hok, -⟩ | ⟨-, hignored⟩)
  · exact hne (hack.symm.trans hok)
  · exact absurd (hign.symm.trans hignored) (by decide)

/-- R217, R218: the ack an entry was answered with decides its error. -/
theorem entryError_answered (hne : ack ≠ 0b001#3) (hlen : p.trnCycles + 3 ≤ e.raw.length) :
    entryError p k (e.answered p ack) = if ack = 0b010#3 then .ackWait k else .ackFault k ack := by
  have hack : rawAck p (e.answered p ack).raw = ack := rawAck_withAck p ack e.raw hlen
  rw [entryError, hack, if_neg hne]

end Acks

/-- Settles O36: the run decodes the queue with entry `k` answered, which is the first not to pass, or all pass. -/
theorem ackRows : Obligations.AckRows := by
  intro i k ack s u q e hi hf hs hu hok hk hq hbefore
  have hexec : exec i s = .next (endRun (decodeQueue (forceAck (some (k, ack)) u))).1 := by
    rw [exec_asAck hi, command_ok hf, runQueue_flushed hs hok, hu]
  have hinUse : (forceAck (some (k, ack)) u).swdQ.take (forceAck (some (k, ack)) u).swdLen = q :=
    (forceAck_inUse hk).trans hq.symm
  have hqk : q[k]? = some (e.answered u.params ack) := by
    rw [hq, List.getElem?_set_self (List.getElem?_eq_some_iff.1 hk).1]
    rfl
  rw [hexec]
  refine ⟨fun hne hign hlen => ?_, fun hall => ?_⟩
  · rw [decodeQueue_failed (hinUse ▸ hqk), hinUse, runStopped_forceAck hk, forceAck_params, entryError_answered hne hlen]
    · rw [forceAck_params]; exact not_passes_answered hne hign hlen
    · rw [hinUse, forceAck_params]; exact hbefore
  · rw [decodeQueue_all, hinUse, runStopped_forceAck hk]
    rw [hinUse, forceAck_params]; exact hall

end Sys2Proof.Machine
end

section
/-! The tracker family: the transition and path tables, the TAP state rows, and the tracker moving with the TMS levels on the
wire. -/

namespace Sys2Proof.Machine

open Sys2Proof

/-! ### The tables -/

/-- Settles O1: the sixteen rows evaluate to the stated states. -/
theorem transitionTable : Obligations.TransitionTable := rfl

/-- R133 (a): the six self-loops. -/
theorem tapNext_eq_self_iff (t : TapState) (b : Bool) : tapNext t b = t ↔
    (t, b) ∈ [(TapState.reset, true), (.idle, false), (.drShift, false), (.drPause, false), (.irShift, false),
      (.irPause, false)] := by
  cases t <;> cases b <;> decide

/-- Settles O2: the self-loops by the table, the rest by the facts `tapNext_inj` and `tapWalk_five_ones`; four ones lead from
DRSHIFT to IRSELECT. -/
theorem transitionFacts : Obligations.TransitionFacts :=
  ⟨tapNext_eq_self_iff, fun t h => absurd (tapNext_inj t h) (by decide), tapWalk_five_ones, by decide⟩

/-- R136: the longest path has 7 bits. -/
theorem path_length_le_seven {a b : TapState} : ∀ l ∈ path a b, l.length ≤ 7 := by
  cases a <;> cases b <;> decide

/-- R138 (b): a path passes through RESET only to end there. -/
theorem path_avoids_reset {a b : TapState} : ∀ l ∈ path a b, TapState.reset ∈ walkStates a l → b = .reset := by
  cases a <;> cases b <;> decide

/-- Settles O3: the domain, the goal, the length and the way of a path are each a fact of the table; `PATH_MAX` is 7 or more. -/
theorem pathReachesGoal : Obligations.PathReachesGoal := fun p a b =>
  ⟨by rw [path_isSome, Bool.and_eq_true],
    fun l h => ⟨tapWalk_path h, (path_length_le_seven l h).trans (Nat.le_add_left 7 p.pathMaxLess7), path_avoids_reset l h⟩⟩

/-! ### All walks of a length -/

/-- The TMS sequences of `n` levels that lead from a state to `goal`. -/
def walksTo (goal : TapState) : Nat → TapState → List (List Bool)
  | 0, t => if t = goal then [[]] else []
  | n + 1, t => (walksTo goal n (tapNext t false)).map (false :: ·) ++ (walksTo goal n (tapNext t true)).map (true :: ·)

theorem mem_walksTo {goal t : TapState} {n : Nat} {m : List Bool} :
    m ∈ walksTo goal n t ↔ m.length = n ∧ tapWalk t m = goal := by
  induction n generalizing t m with
  | zero => cases m <;> simp [walksTo]
  | succ n ih =>
    cases m with
    | nil => simp [walksTo]
    | cons b m => cases b <;> simp [walksTo, ih]

/-- R136: the exhaustive search. No sequence shorter than a path leads to its goal, and of its length the path alone. -/
theorem walksTo_path {a b : TapState} (hne : a ≠ b) :
    ∀ l ∈ path a b, (∀ n < l.length, walksTo b n a = []) ∧ walksTo b l.length a = [l] := by
  revert hne
  cases a <;> cases b <;> decide

/-- Settles O4: a sequence to the goal is one of the walks of its length, and of these the search has found all. -/
theorem pathIsShortest : Obligations.PathIsShortest := by
  refine ⟨fun a b l hpath hne m hm => ?_, rfl, fun a ha hr => ?_⟩
  · obtain ⟨hshorter, honly⟩ := walksTo_path hne l hpath
    have hmem : m ∈ walksTo b m.length a := mem_walksTo.2 ⟨rfl, hm⟩
    refine ⟨Nat.le_of_not_lt fun hlt => ?_, fun hlen => ?_⟩
    · rw [hshorter _ hlt] at hmem
      exact absurd hmem List.not_mem_nil
    · rw [hlen, honly] at hmem
      exact List.mem_singleton.1 hmem
  · obtain ⟨l, hl⟩ := path_of_isPath ha ha
    rw [hl, (path_nil_iff hl).2 ⟨rfl, hr⟩]

/-! ### The TAP state rows -/

/-- R168: a walk of one transition is one event of its level, in bursts of any length. -/
theorem pathWalk_singleton (b : Bool) (s : State) :
    pathWalk [tapNext s.tapCur b] [] s =
      ({ emitAll [.tms [b] false .none] s with tapCur := tapNext s.tapCur b, tapGoal := tapNext s.tapCur b }, .ok) := by
  simp only [pathWalk, tmsTo_next]
  split <;> rfl

/-- R169: a walk stops at a state that neither level reaches. -/
theorem pathWalk_of_unreachable {s : State} {t : TapState} (h : ∀ b, tapNext s.tapCur b ≠ t) (ts : List TapState)
    (burst : List Bool) : pathWalk (t :: ts) burst s = (loseTap s, .invalidTransition s.tapCur t) := by
  simp [pathWalk, tmsTo, h]

/-- Settles O41: a row walks its one state, by the level that leads there or by none. -/
theorem tapStateRows : Obligations.TapStateRows := by
  intro s hf
  refine ⟨fun b => ?_, fun t hunreached => ?_⟩
  · rw [exec_tapRow, command_ok hf, stepTo, pathWalk_singleton, finish_ok]
  · rw [exec_tapRow, command_ok hf, stepTo, pathWalk_of_unreachable hunreached, finish_invalid]
    exact ⟨_, _, rfl⟩

/-! ### In lockstep -/

/-- R132: from `s` to `t` the tracker moved with the TMS levels of the events emitted. -/
def Lockstep (s t : State) : Prop := ∃ evs, t.trace = s.trace ++ evs ∧ t.tapCur = tapWalk s.tapCur (tmsWire evs)

theorem Lockstep.refl (s : State) : Lockstep s s := ⟨[], (List.append_nil _).symm, rfl⟩

theorem Lockstep.trans {s t u : State} (h : Lockstep s t) (h' : Lockstep t u) : Lockstep s u := by
  obtain ⟨es, htrace, hcur⟩ := h
  obtain ⟨fs, htrace', hcur'⟩ := h'
  exact ⟨es ++ fs, by rw [htrace', htrace, List.append_assoc], by rw [hcur', hcur, tmsWire_append, tapWalk_append]⟩

/-- Events that clock no TMS level may be emitted with the tracker left alone. -/
theorem Lockstep.append_silent {s t u : State} (h : Lockstep s t) {es : List Event} (hes : tmsWire es = [])
    (htrace : u.trace = t.trace ++ es) (hcur : u.tapCur = t.tapCur) : Lockstep s u :=
  h.trans ⟨es, htrace, by rw [hes, hcur, tapWalk_nil]⟩

theorem Lockstep.flush {s t : State} (h : Lockstep s t) : Lockstep s (flush t) :=
  h.append_silent (es := [.flush]) rfl (flush_trace t) (flush_tapCur t)

/-- Ending a command writes neither the trace nor the tracker. -/
theorem Lockstep.finish {s : State} {r : Run} (h : Lockstep s r.1) (k : Option Nat) : Lockstep s (finish k r) := by
  obtain ⟨res, f, heq⟩ := finish_frame k r
  rw [heq]
  exact h

/-- R307: a command goes on only without an error. -/
theorem Lockstep.andThen {s : State} {r : Run} {f : State → Run} (h : Lockstep s r.1)
    (hf : r.2 = .ok → Lockstep r.1 (f r.1).1) : Lockstep s (r.andThen f).1 := by
  unfold Run.andThen
  split
  · next hok => exact h.trans (hf hok)
  · exact h

/-! ### The JTAG operations in lockstep -/

theorem lockstep_clockTms (bits : List Bool) (s : State) : Lockstep s (clockTms bits s) := by
  rw [clockTms_eq]
  exact ⟨tmsEvents bits, rfl, by rw [tmsWire_tmsEvents]⟩

theorem lockstep_move (goal : TapState) (s : State) : Lockstep s (move goal s).1 := by
  unfold move
  split
  · split
    · exact lockstep_clockTms _ s
    · exact .refl s
  · exact .refl s

theorem lockstep_moveUnlessThere (goal : TapState) (s : State) : Lockstep s (moveUnlessThere goal s).1 := by
  unfold moveUnlessThere
  split
  · exact .refl s
  · exact lockstep_move goal s

theorem lockstep_moveShift (ir : Bool) (s : State) : Lockstep s (moveShift ir s).1 := by
  unfold moveShift
  split
  · exact .refl s
  · split
    · exact lockstep_clockTms _ s
    · exact .refl s

/-- R140: `move_shift` ends in the shift state, or fails where the TAP is in no path state. -/
theorem moveShift_tapCur {ir : Bool} {s : State} (hok : (moveShift ir s).2 = .ok) :
    (moveShift ir s).1.tapCur = shiftState ir := by
  by_cases hpath : s.tapCur.isPath = true
  · obtain ⟨p, hp⟩ := path_of_isPath hpath (show (shiftState ir).isPath = true by cases ir <;> rfl)
    rw [moveShift_ok hp]
  · rw [moveShift_fail (by simpa using hpath)] at hok
    cases hok

theorem lockstep_clockBursts (level : Bool) (cycles : Nat) (s : State) : Lockstep s (clockBursts level cycles s) :=
  List.foldlRecOn (motive := Lockstep s) _ _ (.refl s) fun t h _ _ => h.trans (lockstep_clockTms _ t)

/-- R168: the states of a `pathmove` that does not fail are those of a walk. -/
theorem walkStates_of_pathWalk {ts : List TapState} {burst : List Bool} {s : State}
    (h : (pathWalk ts burst s).2.isFatal = false) : ∃ levels, walkStates s.tapCur levels = ts := by
  induction ts generalizing burst s with
  | nil => exact ⟨[], rfl⟩
  | cons t ts ih =>
    unfold pathWalk at h
    split at h
    · cases h
    · next b hb =>
      have hnext := next_of_tmsTo hb
      have ⟨levels, hlevels⟩ : ∃ levels, walkStates (tapNext s.tapCur b) levels = ts := by
        split at h
        · have hcur : (emitTms (burst ++ [b]) (track [b] s)).tapCur = tapNext s.tapCur b := by rw [emitTms_eq]; rfl
          exact hcur ▸ ih h
        · exact ih h
      exact ⟨b :: levels, by rw [walkStates, hlevels, hnext]⟩

theorem tmsWire_burstsToEvents (bursts : List (List Bool)) : tmsWire (burstsToEvents bursts) = bursts.flatten := by
  rw [tmsWire, burstsToEvents, List.flatMap_map, List.flatten_eq_flatMap]
  rfl

/-- R168, R169: between its bursts `pathmove` runs the tracker ahead of the wire; at its end, unless it failed, the two agree. -/
theorem lockstep_pathmoveOp {ts : List TapState} {s : State} (h : (pathmoveOp ts s).2.isFatal = false) :
    Lockstep s (pathmoveOp ts s).1 := by
  obtain ⟨levels, rfl⟩ := walkStates_of_pathWalk h
  obtain ⟨full, tail, hbits, -, -, hwalk⟩ := pathWalk_walk levels [] [] s (tmsBurstMax_pos s)
  rw [List.append_nil] at hwalk
  rw [pathmoveOp, hwalk, pathWalk, emitTms_eq, emitAll]
  refine ⟨burstsToEvents full ++ tmsEvents tail, List.append_assoc _ _ _, ?_⟩
  rw [tmsWire_append, tmsWire_burstsToEvents, tmsWire_tmsEvents, ← hbits]
  rfl

/-- R172, R173: the data of a scan holds the TAP in the shift state until the last bit leaves it. -/
theorem lockstep_scanData {ir : Bool} {t : State} (ht : t.tapCur = shiftState ir) (fields : List ScanField) (buf : Nat)
    (last : ScanField) (buf' : Nat) (goal : TapState) (next : Nat) :
    Lockstep t (emitLastField last buf' (emitFields fields buf { t with tapGoal := goal, nextBuf := next })) := by
  have hloop : tapNext (shiftState ir) false = shiftState ir := by cases ir <;> rfl
  rw [emitFields_eq, emitLastField_eq, emitAll_emitAll]
  refine ⟨_, rfl, ?_⟩
  show tapNext t.tapCur true = tapWalk t.tapCur _
  rw [tmsWire_append, tmsWire_fieldsEvents, tmsWire_lastFieldEvents, ht, tapWalk_append, tapWalk_append,
    tapWalk_replicate_loop hloop, tapWalk_replicate_loop hloop]
  rfl

theorem lockstep_leaveExit1 (endState : TapState) (s : State) : Lockstep s (leaveExit1 endState s).1 :=
  (lockstep_clockTms _ s).trans (lockstep_moveUnlessThere endState _)

theorem lockstep_scanOp (ir : Bool) (fields : List ScanField) (endState : TapState) (s : State) :
    Lockstep s (scanOp ir fields endState s).1 := by
  unfold scanOp
  split
  · exact .refl s
  · refine (lockstep_moveShift ir s).andThen fun hok => ?_
    exact (lockstep_scanData (moveShift_tapCur hok) _ _ _ _ _ _).trans (lockstep_leaveExit1 endState _)

theorem lockstep_runtestOp (cycles : Nat) (endState : TapState) (s : State) :
    Lockstep s (runtestOp cycles endState s).1 :=
  (lockstep_moveUnlessThere .idle s).andThen fun _ =>
    Lockstep.trans (t := { clockBursts false cycles _ with tapGoal := endState }) (lockstep_clockBursts false cycles _)
      (lockstep_moveUnlessThere endState _)

theorem lockstep_statemoveOp (endState : TapState) (s : State) : Lockstep s (statemoveOp endState s).1 := by
  unfold statemoveOp
  dsimp only
  split
  · exact lockstep_move endState { s with tapGoal := endState }
  · exact .refl s

theorem lockstep_sleepOp (us : Nat) (s : State) : Lockstep s (sleepOp us s).1 := by
  unfold sleepOp
  dsimp only
  split
  · exact (Lockstep.refl s).flush.append_silent (es := [.delay us]) rfl rfl rfl
  · exact (Lockstep.refl s).flush

/-- R170: with `TMS_OP_TRACKS` every operation that raises no fatal error. -/
theorem lockstep_realise {op : JtagOp} {k : Nat} {s : State} {run : Run} (htracks : s.params.tmsOpTracks = true)
    (h : realise op k s = .ok run) (hok : run.2.isFatal = false) : Lockstep s run.1 := by
  cases op <;> simp only [realise, Except.ok.injEq] at h
  case stableclocks c =>
    split at h
    · cases h; exact lockstep_clockBursts _ c s
    · cases h
  all_goals subst h
  case runtest c e => exact lockstep_runtestOp c e s
  case statemove e => exact lockstep_statemoveOp e s
  case pathmove ts => exact lockstep_pathmoveOp hok
  case scan ir f e => exact lockstep_scanOp ir f e s
  case tms c b =>
    rw [tmsOp, if_pos htracks]
    exact lockstep_clockTms _ s
  case sleep us => exact lockstep_sleepOp us s
  case other => exact .refl s

/-- R7: no JTAG operation writes a parameter. -/
theorem JtagReach.params_eq {s t : State} (h : JtagReach s t) : t.params = s.params :=
  jtagReach_keeps (P := fun t => t.params = s.params) (fun _ _ _ h => h) (fun _ _ _ _ _ h => h)
    (fun t h => (flush_params t).trans h) (fun _ _ h => h) h rfl

theorem lockstep_realiseAll {ops : List JtagOp} {k n : Nat} {s : State} {run : Run}
    (htracks : s.params.tmsOpTracks = true) (h : realiseAll ops k s = .ok (run, n)) (hok : run.2.isFatal = false) :
    Lockstep s run.1 := by
  induction ops generalizing k s with
  | nil => cases h; exact .refl s
  | cons op ops ih =>
    unfold realiseAll at h
    split at h
    · cases h
    · next r hr =>
      split at h
      · next hr_ok =>
        have htracks' : r.1.params.tmsOpTracks = true := (jtagReach_realise hr).params_eq ▸ htracks
        exact (lockstep_realise htracks hr (hr_ok ▸ rfl)).trans (ih htracks' h)
      · cases h; exact lockstep_realise htracks hr hok

/-! ### The SWD side in lockstep -/

theorem tmsWire_idleEvents (p : Params) (k : Nat) : tmsWire (idleEvents p k) = [] := by
  unfold idleEvents
  split <;> rfl

/-- Idle cycles clock no TMS level. -/
theorem tmsWire_append_idleEvents (es : List Event) (p : Params) (k : Nat) :
    tmsWire (es ++ idleEvents p k) = tmsWire es := by
  rw [tmsWire_append, tmsWire_idleEvents, List.append_nil]

theorem Lockstep.run {s t : State} (h : Lockstep s t) (a) : Lockstep s (runQueue a t).1 :=
  runQueue_keeps (P := Lockstep s) (fun t h => h.append_silent (tmsWire_idleEvents t.params _) rfl rfl) (fun _ h => h.flush)
    (fun _ h => h) (forceAck_keeps fun _ _ h => h) (fun _ _ h => h) a t h

/-- R202: the frame of a transaction and its delay clock no TMS level. -/
theorem Lockstep.enqueueEntry {s t : State} (h : Lockstep s t) {w : Option Word} {dst : Option Nat}
    (hw : w.isNone = dst.isSome) (ap a d) : Lockstep s (enqueueEntry ap a w d dst t) := by
  match w, dst with
  | none, some dst =>
    rw [enqueueEntry_read]
    exact h.append_silent (tmsWire_append_idleEvents _ _ _) rfl rfl
  | some w, none =>
    rw [enqueueEntry_write]
    exact h.append_silent (tmsWire_append_idleEvents _ _ _) rfl rfl

theorem Lockstep.enqueue {s t : State} (h : Lockstep s t) {w : Option Word} {dst : Option Nat} (hw : w.isNone = dst.isSome)
    (ap a d) : Lockstep s (enqueue ap a w d dst t) :=
  enqueue_keeps (P := Lockstep s) (fun _ h => h.run none) (fun ap a _ d _ _ hw h => h.enqueueEntry hw ap a d) ap a w d dst t
    hw h

theorem lockstep_readOp (ap a d) (s : State) : Lockstep s (readOp ap a d s) :=
  readOp_keeps (P := Lockstep s) (fun _ _ _ h => h) (fun _ _ _ h => h) (fun ap a _ d _ _ hw h => h.enqueue hw ap a d) ap a d s
    (.refl s)

theorem lockstep_writeOp (ap a w d) (s : State) : Lockstep s (writeOp ap a w d s) :=
  writeOp_keeps (P := Lockstep s) (fun _ _ _ h => h) (fun ap a _ d _ _ hw h => h.enqueue hw ap a d) ap a w d s (.refl s)

/-- R254: a mode-switch sequence clocks no TMS level. -/
theorem lockstep_switchOp (id : BitVec 3) (s : State) : Lockstep s (switchOp id s) := by
  unfold switchOp
  split
  · exact (Lockstep.refl s).append_silent (es := [_]) rfl rfl rfl
  · exact .refl s

/-! ### Every step in lockstep -/

/-- R303: a command that leaves the latch clear raised no fatal error. -/
theorem isFatal_of_finish {k : Option Nat} {r : Run} (h : (finish k r).fatal = false) : r.2.isFatal = false := by
  unfold finish at h
  split at h
  · next hok => exact hok ▸ rfl
  · exact (Bool.or_eq_false_iff.1 h).2

theorem Does.lockstep {s t : State} {b : Bool} (h : Does s b t) (htracks : s.params.tmsOpTracks = true)
    (hf : t.fatal = false) : Lockstep s t := by
  cases h with
  | op op run hrun => exact (lockstep_realise htracks hrun (isFatal_of_finish hf)).finish none
  | list ops run n hrun =>
    split at hf
    · next hok =>
      rw [if_pos hok]
      exact (lockstep_realiseAll htracks hrun (hok ▸ rfl)).flush.finish none
    · next hne =>
      rw [if_neg hne]
      exact (lockstep_realiseAll htracks hrun (isFatal_of_finish hf)).finish (some n)
  | read ap a d => exact lockstep_readOp ap a d s
  | write ap a w d => exact lockstep_writeOp ap a w d s
  | run a => exact (Lockstep.refl s).run a
  | switch id => exact lockstep_switchOp id s
  | unknown n => exact .refl s

theorem lockstep_exec {i : Instr} {s t : State} (htracks : s.params.tmsOpTracks = true) (h : exec i s = .next t)
    (hf : t.fatal = false) : Lockstep s t := by
  by_cases hs : s.fatal = true
  · rw [exec_fatal i s hs] at h
    cases h
    exact .refl s
  · exact (exec_does (by simpa using hs) h).lockstep htracks hf

/-- Settles O52: the operations of the JTAG side keep the tracker with the levels they clock, up to the fatal failure of a
`pathmove`; all else clocks no level and leaves the tracker alone. -/
theorem trackerInLockstep : Obligations.TrackerInLockstep := by
  intro s t htracks h hf
  unfold step at h
  split at h
  · cases h
    exact Lockstep.refl s
  · split at h
    · cases h
    · next i rest _ => exact lockstep_exec (s := { s with cmdPort := rest }) htracks h hf

end Sys2Proof.Machine
end

section
/-! The JTAG family: the operations as commands of their own, `execute` over a list of them, and the two sides of the
block. -/

namespace Sys2Proof.Machine

open Sys2Proof

/-! ### An operation as a command of its own -/

section Lone

variable {op : JtagOp} {i : Instr} {s t : State}

/-- R301, log entry 3: a command that completes reports OK. -/
theorem exec_of_realise_ok (hi : Instr.ofOp op = some i) (hf : s.fatal = false) (h : realise op 0 s = .ok (t, .ok)) :
    exec i s = .next { t with lastResult := ⟨.ok, none⟩ } := by
  rw [exec_ofOp hi hf 0, h]
  rfl

/-- R303, R310: a transition that cannot be made ends the command with its error and sets the latch. -/
theorem exec_of_realise_invalid {a b : TapState} (hi : Instr.ofOp op = some i) (hf : s.fatal = false)
    (h : realise op 0 s = .ok (t, .invalidTransition a b)) :
    exec i s = .next { t with lastResult := ⟨.invalidTransition a b, none⟩, fatal := true } := by
  simp only [exec_ofOp hi hf 0, h, finish_invalid]

end Lone

/-! ### `runtest` and `statemove` -/

section Moves

variable {c : Nat} {e : TapState} {s : State} {p q : List Bool}

/-- R163: `runtest` up to its last move. -/
theorem runtestOp_eq (hp : path s.tapCur .idle = some p) :
    runtestOp c e s = moveUnlessThere e
      { emitAll (tmsEvents p ++ burstEvents s.params.tmsBurstMax false c) s with tapCur := .idle, tapGoal := e } := by
  rw [runtestOp, moveUnlessThere_ok rfl hp (.inl nofun), Run.andThen, if_pos rfl, clockBursts_eq c rfl]
  simp [emitAll]

theorem runtestOp_ok (hp : path s.tapCur .idle = some p) (he : e.isStable = true) (hq : path .idle e = some q) :
    runtestOp c e s =
      ({ emitAll (tmsEvents p ++ burstEvents s.params.tmsBurstMax false c ++ tmsEvents q) s with
        tapCur := e, tapGoal := e }, .ok) := by
  rw [runtestOp_eq hp, moveUnlessThere_ok he hq (.inr (by simp))]
  simp [emitAll]

/-- R135: from a state that is no path state `runtest` fails at its first move. -/
theorem runtestOp_of_not_isPath (h : s.tapCur.isPath = false) :
    runtestOp c e s = (s, .invalidTransition s.tapCur .idle) := by
  have hne : s.tapCur ≠ .idle := fun heq => absurd (heq ▸ h) (by decide)
  rw [runtestOp, moveUnlessThere_fail hne (.inr h)]
  rfl

/-- R94: an end state that is not stable fails in IDLE, after the cycles. -/
theorem runtestOp_of_not_isStable (hp : path s.tapCur .idle = some p) (he : e.isStable = false) :
    runtestOp c e s =
      ({ emitAll (tmsEvents p ++ burstEvents s.params.tmsBurstMax false c) s with tapCur := .idle, tapGoal := e },
        .invalidTransition .idle e) := by
  have hne : TapState.idle ≠ e := fun heq => absurd (heq ▸ he) (by decide)
  rw [runtestOp_eq hp, moveUnlessThere_fail hne (.inl he)]

/-- R165: `statemove` makes one move unless the TAP is there; to RESET it always does. -/
theorem statemoveOp_ok (hmove : s.tapCur ≠ e ∨ e = .reset) (he : e.isStable = true) (hp : path s.tapCur e = some p) :
    statemoveOp e s = ({ emitAll (tmsEvents p) s with tapCur := e, tapGoal := e }, .ok) :=
  (if_pos hmove).trans (move_ok (s := { s with tapGoal := e }) he hp)

theorem statemoveOp_there (hthere : s.tapCur = e) (hr : e ≠ .reset) :
    statemoveOp e s = ({ s with tapGoal := e }, .ok) := if_neg (by simp [hthere, hr])

/-- R139: the move fails, with the goal written. -/
theorem statemoveOp_fail (hne : s.tapCur ≠ e) (h : e.isStable = false ∨ s.tapCur.isPath = false) :
    statemoveOp e s = ({ s with tapGoal := e }, .invalidTransition s.tapCur e) :=
  (if_pos (.inl hne)).trans (move_fail (s := { s with tapGoal := e }) h)

end Moves

/-- Settles O5: the two moves about the bursts, and the failure of each of them. -/
theorem runtest : Obligations.Runtest := fun c e _ hf =>
  ⟨fun _ _ hp he hq => exec_of_realise_ok (op := .runtest c e) rfl hf (congrArg Except.ok (runtestOp_ok hp he hq)),
    fun h => exec_of_realise_invalid (op := .runtest c e) rfl hf (congrArg Except.ok (runtestOp_of_not_isPath h)),
    fun _ hp he =>
      exec_of_realise_invalid (op := .runtest c e) rfl hf (congrArg Except.ok (runtestOp_of_not_isStable hp he))⟩

/-- Settles O6: the move, the TAP being there already, and the failure. -/
theorem statemove : Obligations.Statemove := fun e _ hf =>
  ⟨fun _ hmove he hp =>
      exec_of_realise_ok (op := .statemove e) rfl hf (congrArg Except.ok (statemoveOp_ok hmove he hp)),
    fun hthere hr => exec_of_realise_ok (op := .statemove e) rfl hf (congrArg Except.ok (statemoveOp_there hthere hr)),
    fun hne h => exec_of_realise_invalid (op := .statemove e) rfl hf (congrArg Except.ok (statemoveOp_fail hne h))⟩

/-! ### `pathmove` and `tms` -/

theorem burstsToEvents_append (a b : List (List Bool)) : burstsToEvents (a ++ b) = burstsToEvents a ++ burstsToEvents b :=
  List.map_append

/-- R168: full bursts, and the tail where it is not empty, are the bursts of their bits. -/
theorem bursts_of_full_tail {m : Nat} (hm : 0 < m) {full : List (List Bool)} {tail : List Bool}
    (hfull : ∀ b ∈ full, b.length = m) (htail : tail.length < m) :
    ∃ bursts, Bursts m (full.flatten ++ tail) bursts
      ∧ burstsToEvents bursts = burstsToEvents full ++ tmsEvents tail := by
  have hlast : ∀ b ∈ full, b ≠ [] ∧ b.length ≤ m := fun b hb =>
    ⟨List.ne_nil_of_length_pos (hfull b hb ▸ hm), (hfull b hb).le⟩
  by_cases htail0 : tail = []
  · subst htail0
    exact ⟨full, ⟨(List.append_nil _).symm, fun b hb => hfull b (List.mem_of_mem_dropLast hb), hlast⟩,
      (List.append_nil _).symm⟩
  · refine ⟨full ++ [tail], ⟨List.flatten_concat, ?_, ?_⟩, ?_⟩
    · rwa [List.dropLast_concat]
    · exact List.forall_mem_append.2 ⟨hlast, List.forall_mem_singleton.2 ⟨htail0, htail.le⟩⟩
    · rw [burstsToEvents_append, tmsEvents, if_neg htail0]
      rfl

/-- Settles O8: the walk's full bursts, and at its end the burst gathered so far. -/
theorem pathmoveCompletes : Obligations.PathmoveCompletes := by
  intro l s hf
  obtain ⟨full, tail, hl, hfull, htail, hwalk⟩ := pathWalk_walk l [] [] s (tmsBurstMax_pos s)
  obtain ⟨bursts, hbursts, hevents⟩ := bursts_of_full_tail (tmsBurstMax_pos s) hfull htail
  rw [List.append_nil, pathWalk, emitTms_eq] at hwalk
  rw [← hl, List.nil_append] at hbursts
  refine ⟨bursts, hbursts, ?_⟩
  rw [exec_of_realise_ok (op := .pathmove _) rfl hf (congrArg Except.ok hwalk), hevents]
  simp [emitAll]

/-- Settles O9: the loop gets to the element with the partial burst in hand, and stops there. -/
theorem pathmoveFails : Obligations.PathmoveFails := by
  intro l t rest s hf hunreached
  obtain ⟨full, tail, hl, hfull, htail, hwalk⟩ := pathWalk_walk l (t :: rest) [] s (tmsBurstMax_pos s)
  rw [pathWalk_of_unreachable hunreached] at hwalk
  exact ⟨full, tail, _, _, hl, hfull, htail,
    exec_of_realise_invalid (op := .pathmove _) rfl hf (congrArg Except.ok hwalk)⟩

/-- R170: `tms` of a whole buffer. -/
theorem tmsOp_eq (bits : List Bool) (s : State) :
    tmsOp bits.length bits s =
      ({ emitAll (tmsEvents bits) s with
        tapCur := if s.params.tmsOpTracks = true then tapWalk s.tapCur bits else s.tapCur }, .ok) := by
  rw [tmsOp, List.take_length, clockTms_eq, emitTms_eq]
  split <;> rfl

/-- Settles O10: the whole buffer is one event, tracked or not. -/
theorem tmsCompletes : Obligations.TmsCompletes := fun bits s hf =>
  exec_of_realise_ok (op := .tms bits.length bits) rfl hf (congrArg Except.ok (tmsOp_eq bits s))

/-! ### `scan` -/

section Scan

variable {ir : Bool} {pre post : List ScanField} {f : ScanField} {e : TapState} {s : State} {p q : List Bool}

theorem scanOp_ok (hf : 0 < f.len) (hpost : ∀ g ∈ post, g.len = 0) (hp : path s.tapCur (shiftState ir) = some p)
    (he : e.isStable = true) (hq : path (pauseState ir) e = some q) :
    scanOp ir (pre ++ f :: post) e s =
      ({ emitAll (tmsEvents p ++ fieldsEvents s.params pre s.nextBuf ++ lastFieldEvents s.params f (s.nextBuf + pre.length)
          ++ (if e = .idle then [.tms [true, false] false .none] else .tms [false] false .none :: tmsEvents q)) s with
        tapCur := e, tapGoal := e, nextBuf := s.nextBuf + pre.length + 1 }, .ok) := by
  rw [scanOp_eq pre f post e hf hpost hp, leaveExit1_ok rfl he hq]
  simp [emitAll]

/-- R114: an end state that is not stable fails in the PAUSE state, after the data. -/
theorem scanOp_of_not_isStable (hf : 0 < f.len) (hpost : ∀ g ∈ post, g.len = 0)
    (hp : path s.tapCur (shiftState ir) = some p) (he : e.isStable = false) :
    scanOp ir (pre ++ f :: post) e s =
      ({ emitAll (tmsEvents p ++ fieldsEvents s.params pre s.nextBuf ++ lastFieldEvents s.params f (s.nextBuf + pre.length)
          ++ [.tms [false] false .none]) s with
        tapCur := pauseState ir, tapGoal := e, nextBuf := s.nextBuf + pre.length + 1 },
        .invalidTransition (pauseState ir) e) := by
  rw [scanOp_eq pre f post e hf hpost hp, leaveExit1_fail rfl he]
  simp [emitAll]

/-- R135: from a state that is no path state a scan of at least one bit fails at its first move. -/
theorem scanOp_of_not_isPath (hf : 0 < f.len) (hpost : ∀ g ∈ post, g.len = 0) (h : s.tapCur.isPath = false) :
    scanOp ir (pre ++ f :: post) e s = (s, .invalidTransition s.tapCur (shiftState ir)) := by
  rw [scanOp, liveFields_last pre f post hf hpost, List.getLast?_concat]
  simp only [moveShift_fail h, Run.andThen]
  rfl

/-- R161: a scan of zero bits. -/
theorem scanOp_of_zero_bits {fields : List ScanField} (h : totalBits fields = 0) : scanOp ir fields e s = (s, .ok) := by
  rw [scanOp, liveFields_zero h]
  rfl

theorem isPath_shiftState (ir : Bool) : (shiftState ir).isPath = true := by cases ir <;> rfl

theorem isPath_pauseState (ir : Bool) : (pauseState ir).isPath = true := by cases ir <;> rfl

end Scan

/-- Settles O11: the shift state is reached, left by the last bit, and the end state is reached from EXIT1. -/
theorem scanCompletes : Obligations.ScanCompletes := fun ir pre f post e _ _ _ hfatal hp hf hpost he hq =>
  exec_of_realise_ok (op := .scan ir (pre ++ f :: post) e) rfl hfatal (congrArg Except.ok (scanOp_ok hf hpost hp he hq))

/-- Settles O12: the move to the shift state fails, or the one from the PAUSE state. -/
theorem scanFails : Obligations.ScanFails := fun ir pre f post e _ hfatal hf hpost =>
  ⟨fun h => exec_of_realise_invalid (op := .scan ir (pre ++ f :: post) e) rfl hfatal
      (congrArg Except.ok (scanOp_of_not_isPath hf hpost h)),
    fun _ hp he => exec_of_realise_invalid (op := .scan ir (pre ++ f :: post) e) rfl hfatal
      (congrArg Except.ok (scanOp_of_not_isStable hf hpost hp he))⟩

/-- Settles O13: no field is left to shift. -/
theorem scanOfZeroBits : Obligations.ScanOfZeroBits := fun ir fields e _ hf h =>
  exec_of_realise_ok (op := .scan ir fields e) rfl hf (congrArg Except.ok (scanOp_of_zero_bits h))

/-! ### The cycles of a scan in its shift state -/

/-- R137: a path to a shift state spends no cycle there. -/
theorem dwell_path_shiftState {a : TapState} {ir : Bool} :
    ∀ p ∈ path a (shiftState ir), dwell (shiftState ir) a p = 0 := by
  cases a <;> cases ir <;> decide

/-- R137: a path from a PAUSE state to a stable state passes by the shift state of its register. -/
theorem dwell_path_pauseState {ir : Bool} {e : TapState} (he : e.isStable = true) :
    ∀ q ∈ path (pauseState ir) e, dwell (shiftState ir) (pauseState ir) q = 0 := by
  revert he
  cases ir <;> cases e <;> decide

/-- R172: a scan's data levels: 0 up to the last bit of all, which has 1. -/
theorem tmsWire_scanData (p : Params) (pre : List ScanField) (f : ScanField) (buf buf' : Nat) :
    tmsWire (fieldsEvents p pre buf ++ lastFieldEvents p f buf') =
      List.replicate (totalBits pre + (f.len - 1)) false ++ [true] := by
  rw [tmsWire_append, tmsWire_fieldsEvents, tmsWire_lastFieldEvents, ← List.append_assoc, List.replicate_append_replicate]

/-- R173: the levels of the data clock every one of their cycles in the shift state, and leave it. -/
theorem dwell_scanData (ir : Bool) (n : Nat) :
    dwell (shiftState ir) (shiftState ir) (List.replicate n false ++ [true]) = n + 1
      ∧ tapWalk (shiftState ir) (List.replicate n false ++ [true]) = tapNext (shiftState ir) true := by
  have hloop : tapNext (shiftState ir) false = shiftState ir := by cases ir <;> rfl
  rw [dwell_append, dwell_loop _ n hloop, tapWalk_append, tapWalk_replicate_loop hloop]
  exact ⟨by simp [dwell], rfl⟩

/-- R176: on the way from EXIT1 to a stable end state no cycle is clocked in the shift state. -/
theorem dwell_leaveExit1 {ir : Bool} {e : TapState} {q : List Bool} (he : e.isStable = true)
    (hq : path (pauseState ir) e = some q) :
    dwell (shiftState ir) (tapNext (shiftState ir) true)
      (tmsWire (if e = .idle then [.tms [true, false] false .none] else .tms [false] false .none :: tmsEvents q)) = 0 := by
  split
  · cases ir <;> decide
  · have hexit : dwell (shiftState ir) (tapNext (shiftState ir) true) [false] = 0 := by cases ir <;> decide
    rw [← List.singleton_append, tmsWire_append, tmsWire_tmsEvents, dwell_append]
    show dwell _ _ [false] + dwell _ (tapWalk _ [false]) q = 0
    rw [hexit, (tapWalk_exit1 ir).1, dwell_path_pauseState he q hq]

/-- R173: the events of a scan that completes, by the cycles they clock in the shift state. -/
theorem dwell_scanEvents {ir : Bool} {a e : TapState} {p q : List Bool} (hp : path a (shiftState ir) = some p)
    (he : e.isStable = true) (hq : path (pauseState ir) e = some q) (ps : Params) (pre : List ScanField) {f : ScanField}
    (hf : 0 < f.len) (buf buf' : Nat) :
    dwell (shiftState ir) a (tmsWire (tmsEvents p ++ fieldsEvents ps pre buf ++ lastFieldEvents ps f buf'
      ++ (if e = .idle then [.tms [true, false] false .none] else .tms [false] false .none :: tmsEvents q))) =
      totalBits pre + f.len := by
  rw [List.append_assoc (tmsEvents p), tmsWire_append, tmsWire_append, tmsWire_tmsEvents, tmsWire_scanData, dwell_append,
    dwell_append, dwell_path_shiftState p hp, tapWalk_append, tapWalk_path hp, (dwell_scanData ir _).1,
    (dwell_scanData ir _).2, dwell_leaveExit1 he hq]
  omega

theorem totalBits_last {pre post : List ScanField} (f : ScanField) (hpost : ∀ g ∈ post, g.len = 0) :
    totalBits (pre ++ f :: post) = totalBits pre + f.len := by
  have hpost0 : totalBits post = 0 := totalBits_zero_iff.2 hpost
  simp only [totalBits, List.map_append, List.map_cons, List.sum_append, List.sum_cons] at hpost0 ⊢
  omega

/-- Settles O14: a scan that leaves the latch clear had no bits, or reached both the shift state and its end state. -/
theorem scanShiftsEachBitOnce : Obligations.ScanShiftsEachBitOnce := by
  intro ir fields e s t hfatal hexec hclear
  by_cases hbits : totalBits fields = 0
  · rw [scanOfZeroBits ir fields e s hfatal hbits] at hexec
    cases hexec
    exact ⟨[], (List.append_nil _).symm, hbits.symm⟩
  · obtain ⟨pre, f, post, rfl, hf, hpost⟩ := exists_last_live fields hbits
    obtain ⟨hnoPath, hunstable⟩ := scanFails ir pre f post e s hfatal hf hpost
    by_cases hpath : s.tapCur.isPath = true
    · obtain ⟨p, hp⟩ := path_of_isPath hpath (isPath_shiftState ir)
      by_cases he : e.isStable = true
      · obtain ⟨q, hq⟩ := path_of_isPath (isPath_pauseState ir) (isPath_of_isStable he)
        rw [scanCompletes ir pre f post e s p q hfatal hp hf hpost he hq] at hexec
        cases hexec
        exact ⟨_, rfl, by rw [dwell_scanEvents hp he hq _ pre hf, totalBits_last f hpost]⟩
      · rw [hunstable p hp (by simpa using he)] at hexec
        cases hexec
        cases hclear
    · rw [hnoPath (by simpa using hpath)] at hexec
      cases hexec
      cases hclear

/-! ### `sleep` and `stableclocks` -/

/-- Settles O15: the delay joins the trace after the flush, where the flush succeeds. -/
theorem sleepCompletes : Obligations.SleepCompletes := by
  intro us s hf
  rw [exec_ofOp (op := .sleep us) rfl hf 0]
  refine ⟨fun hok => ?_, fun hfail => ?_⟩
  · simp only [realise, sleepOp, hok, if_true, finish_ok, emitDelay, flush_trace, List.append_assoc, List.singleton_append]
  · simp only [realise, sleepOp, hfail, Bool.false_eq_true, if_false, finish_transport, ← flush_trace]

/-- R180: in a stable state the level of `stableclocks` holds the TAP. -/
theorem stableclocksOp_eq (c : Nat) {s : State} (h : s.tapCur.isStable = true) :
    stableclocksOp c s = (emitAll (burstEvents s.params.tmsBurstMax (decide (s.tapCur = .reset)) c) s, .ok) :=
  congrArg (·, Result.ok) (clockBursts_eq c (tapNext_stable_loop h))

theorem realise_stableclocks_stable (c k : Nat) {s : State} (h : s.tapCur.isStable = true) :
    realise (.stableclocks c) k s = .ok (stableclocksOp c s) := if_pos h

theorem realise_stableclocks_unstable (c k : Nat) {s : State} (h : s.tapCur.isStable = false) :
    realise (.stableclocks c) k s = .error (.stableclocksUnstable s.tapCur) := if_neg (by simp [h])

/-- R160: `execute` by what its operations come to. -/
theorem exec_execute {ops : List JtagOp} {s : State} {run : Run} {k : Nat} (hf : s.fatal = false)
    (h : realiseAll ops 0 s = .ok (run, k)) :
    exec (.execute ops) s = .next (if run.2 = .ok then closeExecute run.1 else finish (some k) run) := by
  rw [exec, execExecute, if_neg (by simp [hf]), h]

/-- U5: a refusal inside `execute` is its own. -/
theorem exec_execute_refused {ops : List JtagOp} {s : State} {r : Refusal} (hf : s.fatal = false)
    (h : realiseAll ops 0 s = .error r) : exec (.execute ops) s = .refused r := by
  rw [exec, execExecute, if_neg (by simp [hf]), h]

/-- Settles O16: its level is a self-loop of a stable state; the refusal is that of `realise`. -/
theorem stableclocks : Obligations.Stableclocks := by
  intro c s hf
  refine ⟨fun h => ?_, fun h => ⟨?_, fun rest => ?_⟩⟩
  · exact exec_of_realise_ok (op := .stableclocks c) rfl hf
      ((realise_stableclocks_stable c 0 h).trans (congrArg Except.ok (stableclocksOp_eq c h)))
  · rw [exec_ofOp (op := .stableclocks c) rfl hf 0, realise_stableclocks_unstable c 0 h]
  · exact exec_execute_refused hf (by rw [realiseAll, realise_stableclocks_unstable c 0 h])

/-! ### `execute` after operations that complete -/

section Execute

variable {ops rest : List JtagOp} {s t : State}

/-- Ending a command writes over the report that stood at the port. -/
theorem finish_withReportRun (k : Option Nat) (r : Report) (run : Run) : finish k (withReportRun r run) = finish k run := by
  unfold finish
  split <;> rfl

/-- R310: an error ends a command by being raised. -/
theorem finish_of_ne_ok {run : Run} (h : run.2 ≠ .ok) (k : Option Nat) : finish k run = raise run.2 k run.1 := if_neg h

theorem closeExecute_withReport (r : Report) (s : State) : closeExecute (withReport r s) = closeExecute s := by
  rw [closeExecute, withReport_flush]
  exact finish_withReportRun none r (flush s, if flushOk s then .ok else .transportError)

/-- R160: after a chain of operations that complete, `execute` goes on with the rest. -/
theorem exec_execute_append {run : Run} {k : Nat} (hf : s.fatal = false) (hchain : OkChain ops s t)
    (h : realiseAll rest ops.length t = .ok (run, k)) :
    exec (.execute (ops ++ rest)) s = .next (if run.2 = .ok then closeExecute run.1 else finish (some k) run) := by
  obtain ⟨-, r, hall⟩ := realiseAll_of_okChain hf hchain rest 0
  rw [Nat.zero_add, withReport_realiseAll r rest, h] at hall
  rw [exec_execute hf hall, closeExecute_withReport, finish_withReportRun]

theorem okChain_fatal (hf : s.fatal = false) (hchain : OkChain ops s t) : t.fatal = false :=
  (realiseAll_of_okChain hf hchain [] 0).1

/-- R160: the closing flush's result is the command's. -/
theorem closeExecute_eq (s : State) :
    closeExecute s = { flush s with lastResult := ⟨if flushOk s then .ok else .transportError, none⟩ } := by
  unfold closeExecute
  split
  · exact finish_ok _ _
  · exact finish_transport _ _

end Execute

/-- Settles O17: nothing is left after the chain but the closing flush. -/
theorem executeRealisesInOrder : Obligations.ExecuteRealisesInOrder := by
  intro ops s t hf hchain
  have h := exec_execute_append (rest := []) hf hchain rfl
  rw [List.append_nil] at h
  rw [h, if_pos rfl, closeExecute_eq]

/-- Settles O18: the operation fails inside `execute` as it does on its own, but for the index it reports. -/
theorem executeStopsAtFirstError : Obligations.ExecuteStopsAtFirstError := by
  intro ops op rest i s t u hf hchain hi hexec hfail
  rw [exec_ofOp hi (okChain_fatal hf hchain) ops.length] at hexec
  split at hexec
  · next run hrun =>
    cases hexec
    rw [finish_result] at hfail
    have hstop : realiseAll (op :: rest) ops.length t = .ok (run, ops.length) := by
      simp only [realiseAll, hrun, if_neg hfail]
    rw [exec_execute_append hf hchain hstop, if_neg hfail, finish_result, finish_of_ne_ok hfail, finish_of_ne_ok hfail]
    rfl
  · cases hexec

/-- Settles O19: the operations before the tag stand, and the tag ends the command. -/
theorem executeUnknownTag : Obligations.ExecuteUnknownTag := by
  intro ops tag rest s t hf hchain
  have hne : (t, Result.unknownCommand ops.length).2 ≠ .ok := nofun
  rw [exec_execute_append hf hchain rfl, if_neg hne, finish_of_ne_ok hne]
  simp only [raise, Result.isFatal, Bool.or_true]

/-! ### A list of operations with stable end states -/

/-- An operation completes in a stable state, with `flushes` left of the flush results the environment supplies. -/
def CompletesStable (flushes : List Bool) (r : Run) : Prop :=
  r.2 = .ok ∧ r.1.tapCur.isStable = true ∧ r.1.flushIn = flushes

section Ready

variable {s : State} {e : TapState} {r : List Bool}

theorem runtestOp_completes (c : Nat) (hs : s.tapCur.isStable = true) (he : e.isStable = true) (hflush : s.flushIn = r) :
    CompletesStable r (runtestOp c e s) := by
  obtain ⟨p, hp⟩ : ∃ p, path s.tapCur .idle = some p := path_of_isPath (isPath_of_isStable hs) rfl
  obtain ⟨q, hq⟩ : ∃ q, path .idle e = some q := path_of_isPath rfl (isPath_of_isStable he)
  rw [runtestOp_ok hp he hq]
  exact ⟨rfl, he, hflush⟩

theorem statemoveOp_completes (hs : s.tapCur.isStable = true) (he : e.isStable = true) (hflush : s.flushIn = r) :
    CompletesStable r (statemoveOp e s) := by
  by_cases hmove : s.tapCur ≠ e ∨ e = .reset
  · obtain ⟨p, hp⟩ := path_of_isPath (isPath_of_isStable hs) (isPath_of_isStable he)
    rw [statemoveOp_ok hmove he hp]
    exact ⟨rfl, he, hflush⟩
  · obtain ⟨hthere, hr⟩ := not_or.1 hmove
    rw [statemoveOp_there (not_not.1 hthere) hr]
    exact ⟨rfl, hs, hflush⟩

theorem scanOp_completes (ir : Bool) (fields : List ScanField) (hs : s.tapCur.isStable = true) (he : e.isStable = true)
    (hflush : s.flushIn = r) : CompletesStable r (scanOp ir fields e s) := by
  by_cases hbits : totalBits fields = 0
  · rw [scanOp_of_zero_bits hbits]
    exact ⟨rfl, hs, hflush⟩
  · obtain ⟨pre, f, post, rfl, hf, hpost⟩ := exists_last_live fields hbits
    obtain ⟨p, hp⟩ := path_of_isPath (isPath_of_isStable hs) (isPath_shiftState ir)
    obtain ⟨q, hq⟩ := path_of_isPath (isPath_pauseState ir) (isPath_of_isStable he)
    rw [scanOp_ok hf hpost hp he hq]
    exact ⟨rfl, he, hflush⟩

theorem stableclocksOp_completes (c : Nat) (hs : s.tapCur.isStable = true) (hflush : s.flushIn = r) :
    CompletesStable r (stableclocksOp c s) := by
  rw [stableclocksOp_eq c hs]
  exact ⟨rfl, hs, hflush⟩

theorem flushOk_of_flushIn (h : s.flushIn = true :: r) : flushOk s = true := by
  rw [flushOk, h]
  rfl

theorem sleepOp_completes (us : Nat) (hs : s.tapCur.isStable = true) (hflush : s.flushIn = true :: r) :
    CompletesStable r (sleepOp us s) := by
  rw [sleepOp, if_pos (flushOk_of_flushIn hflush), if_pos (flushOk_of_flushIn hflush)]
  exact ⟨rfl, (flush_tapCur s).symm ▸ hs, by rw [emitDelay_flushIn, flush_flushIn, hflush]; rfl⟩

/-- From a stable state an operation that is ready completes, and of the flush results uses up its own alone. -/
theorem realise_ready {op : JtagOp} (hop : opReady op = true) (hs : s.tapCur.isStable = true)
    (hflush : s.flushIn = List.replicate ([op].filter opIsSleep).length true ++ r) (k : Nat) :
    ∃ run, realise op k s = .ok run ∧ CompletesStable r run := by
  cases op with
  | runtest c e => exact ⟨_, rfl, runtestOp_completes c hs hop hflush⟩
  | statemove e => exact ⟨_, rfl, statemoveOp_completes hs hop hflush⟩
  | scan ir fields e => exact ⟨_, rfl, scanOp_completes ir fields hs hop hflush⟩
  | sleep us => exact ⟨_, rfl, sleepOp_completes us hs hflush⟩
  | stableclocks c => exact ⟨_, realise_stableclocks_stable c k hs, stableclocksOp_completes c hs hflush⟩
  | pathmove | tms | other => cases hop

/-- R160: so does a list of such operations. -/
theorem realiseAll_ready {ops : List JtagOp} (hops : ∀ op ∈ ops, opReady op = true) (hs : s.tapCur.isStable = true)
    (hflush : s.flushIn = List.replicate (ops.filter opIsSleep).length true ++ r) (k : Nat) :
    ∃ run n, realiseAll ops k s = .ok (run, n) ∧ CompletesStable r run := by
  induction ops generalizing s k with
  | nil => exact ⟨_, _, rfl, rfl, hs, hflush⟩
  | cons op ops ih =>
    obtain ⟨hop, hops⟩ := List.forall_mem_cons.1 hops
    rw [← List.singleton_append, List.filter_append, List.length_append, List.replicate_add, List.append_assoc] at hflush
    obtain ⟨run, hrun, hok, hstable, hleft⟩ := realise_ready hop hs hflush k
    simp only [realiseAll, hrun, if_pos hok]
    exact ih hops hstable hleft (k + 1)

end Ready

/-- R310: no JTAG operation writes the latch. -/
theorem JtagReach.fatal_eq {s t : State} (h : JtagReach s t) : t.fatal = s.fatal :=
  jtagReach_keeps (P := fun t => t.fatal = s.fatal) (fun _ _ _ h => h) (fun _ _ _ _ _ h => h)
    (fun t h => (flush_fatal t).trans h) (fun _ _ h => h) h rfl

/-- R43: the operations only add to the trace. -/
theorem JtagReach.extendsTrace {s t : State} (h : JtagReach s t) : Extends s t :=
  jtagReach_keeps (P := Extends s) (fun _ _ _ h => h.append rfl rfl) (fun _ _ _ _ _ h => h)
    (fun t h => h.append (flush_trace t) (flush_params t)) (fun _ _ h => h.append rfl rfl) h (.refl s)

/-- Settles O20: the operations complete one after another, each from the stable state the one before it left, and the last
of the flush results is the closing flush's. -/
theorem executeReadyList : Obligations.ExecuteReadyList := by
  intro ops s r hf hs hops hflush
  rw [List.replicate_succ', List.append_assoc] at hflush
  obtain ⟨⟨t, res⟩, n, hall, rfl, hstable, hleft⟩ := realiseAll_ready hops hs hflush 0
  have hreach := jtagReach_realiseAll hall
  obtain ⟨⟨evs, hevs⟩, -⟩ := hreach.extendsTrace
  refine ⟨{ flush t with lastResult := ⟨.ok, none⟩ }, ?_, rfl, (flush_fatal t).trans (hreach.fatal_eq.trans hf), ?_,
    flush_pending t, ?_, evs, (flush_trace t).trans (congrArg (· ++ _) hevs)⟩
  · rw [exec_execute hf hall]
    simp only [if_true, closeExecute_eq, flushOk_of_flushIn hleft]
  · exact (flush_tapCur t).symm ▸ hstable
  · exact (flush_flushIn t).trans (congrArg List.tail hleft)

/-! ### The two sides of the block -/

/-- R181: `t` has the SWD side of `s`: the queue but for its `raw` buffers, the sticky error, the line's direction, the slots
and the handles. -/
def SameSwd (s t : State) : Prop :=
  t.swdLen = s.swdLen ∧ t.swdCap = s.swdCap ∧ t.swdSticky = s.swdSticky ∧ t.swdioDir = s.swdioDir
    ∧ t.swdQ.map Entry.request = s.swdQ.map Entry.request
    ∧ t.slots = s.slots ∧ t.nextSlot = s.nextSlot ∧ t.lastHandle = s.lastHandle

theorem SameSwd.refl (s : State) : SameSwd s s := ⟨rfl, rfl, rfl, rfl, rfl, rfl, rfl, rfl⟩

theorem SameSwd.flush {s t : State} (h : SameSwd s t) : SameSwd s (flush t) := by
  simpa only [SameSwd, flush_swdLen, flush_swdCap, flush_swdSticky, flush_swdioDir, flush_swdQ_request, flush_slots,
    flush_nextSlot, flush_lastHandle] using h

theorem SameSwd.finish {s : State} {run : Run} (h : SameSwd s run.1) (k : Option Nat) : SameSwd s (finish k run) := by
  obtain ⟨res, f, heq⟩ := finish_frame k run
  rw [heq]
  exact h

theorem JtagReach.sameSwd {s t : State} (h : JtagReach s t) : SameSwd s t :=
  jtagReach_keeps (P := SameSwd s) (fun _ _ _ h => h) (fun _ _ _ _ _ h => h) (fun _ h => h.flush) (fun _ _ h => h) h
    (.refl s)

/-- R32, R254: `t` has the tracker and the numbering of the buffers of `s`. -/
def SameTap (s t : State) : Prop := t.tapCur = s.tapCur ∧ t.tapGoal = s.tapGoal ∧ t.nextBuf = s.nextBuf

theorem SameTap.refl (s : State) : SameTap s s := ⟨rfl, rfl, rfl⟩

theorem SameTap.run {s t : State} (h : SameTap s t) (a) : SameTap s (runQueue a t).1 :=
  runQueue_keeps (P := SameTap s) (fun _ h => h)
    (fun t h => by simpa only [SameTap, flush_tapCur, flush_tapGoal, flush_nextBuf] using h) (fun _ h => h)
    (forceAck_keeps fun _ _ h => h) (fun _ _ h => h) a t h

theorem SameTap.enqueue {s t : State} (h : SameTap s t) {w : Option Word} {dst : Option Nat} (hw : w.isNone = dst.isSome)
    (ap a d) : SameTap s (enqueue ap a w d dst t) :=
  enqueue_keeps (P := SameTap s) (fun _ h => h.run none)
    (fun _ _ _ _ _ _ hw h => enqueueEntry_cases hw (fun _ _ _ => h) fun _ _ _ => h) ap a w d dst t hw h

theorem sameTap_readOp (ap a d) (s : State) : SameTap s (readOp ap a d s) :=
  readOp_keeps (P := SameTap s) (fun _ _ _ h => h) (fun _ _ _ h => h) (fun ap a _ d _ _ hw h => h.enqueue hw ap a d) ap a d s
    (.refl s)

theorem sameTap_writeOp (ap a w d) (s : State) : SameTap s (writeOp ap a w d s) :=
  writeOp_keeps (P := SameTap s) (fun _ _ _ h => h) (fun ap a _ d _ _ hw h => h.enqueue hw ap a d) ap a w d s (.refl s)

theorem sameTap_switchOp (id : BitVec 3) (s : State) : SameTap s (switchOp id s) :=
  switchOp_keeps (P := SameTap s) (fun _ _ _ h => h) (fun _ _ _ h => h) id s (.refl s)

/-- What is done on one side of the block leaves the other side alone. -/
theorem Does.apart {s t : State} {jtag : Bool} (h : Does s jtag t) :
    (jtag = true → SameSwd s t) ∧ (jtag = false → SameTap s t) := by
  cases h with
  | op op run hrun => exact ⟨fun _ => (jtagReach_realise hrun).sameSwd.finish none, nofun⟩
  | list ops run n hrun =>
    have hreach := jtagReach_realiseAll hrun
    refine ⟨fun _ => ?_, nofun⟩
    split
    · exact hreach.sameSwd.flush.finish none
    · exact hreach.sameSwd.finish (some n)
  | read ap a d => exact ⟨nofun, fun _ => sameTap_readOp ap a d s⟩
  | write ap a w d => exact ⟨nofun, fun _ => sameTap_writeOp ap a w d s⟩
  | run a => exact ⟨nofun, fun _ => (SameTap.refl s).run a⟩
  | switch id => exact ⟨nofun, fun _ => sameTap_switchOp id s⟩
  | unknown n => exact ⟨nofun, fun _ => .refl s⟩

/-- Settles O54: with the latch set nothing is done; otherwise what is done is of one side. -/
theorem sidesApart : Obligations.SidesApart := by
  intro i s t hexec
  by_cases hf : s.fatal = true
  · rw [exec_fatal i s hf] at hexec
    cases hexec
    exact ⟨fun _ => SameSwd.refl s, fun _ => SameTap.refl s⟩
  · exact (exec_does (by simpa using hf) hexec).apart

end Sys2Proof.Machine
end

section
/-! The SWD queue family: what an enqueue does where there is room, while the sticky error is set and at a full queue; how a run
ends; and a word written, read back and run. -/

namespace Sys2Proof.Machine

open Sys2Proof

/-! ### An enqueue where there is room -/

/-- Settles O24: the read of its space and address, as `exec_asRead_room` has it. -/
theorem swdReadEnqueues : Obligations.SwdReadEnqueues := fun _ _ _ _ h => exec_asRead_room rfl rfl rfl h

/-- Settles O25: the write to its space and address, as `exec_asWrite_room` has it. -/
theorem swdWriteEnqueues : Obligations.SwdWriteEnqueues := fun _ _ _ _ _ h => exec_asWrite_room rfl rfl rfl h

/-- Settles O28: the row is a read or a write by its RnW bit. -/
theorem genericRequestRow : Obligations.GenericRequestRow := fun _ _ _ _ _ h =>
  ⟨exec_asRead_room rfl rfl rfl h, exec_asWrite_room rfl rfl rfl h⟩

/-! ### An enqueue while the sticky error is set -/

/-- R202, R207: with room a read that finds the sticky error hands out its handle and does no more. -/
theorem readOp_sticky {s : State} (hroom : s.swdLen < s.swdCap) (hs : s.swdSticky ≠ .ok) (ap a d) :
    readOp ap a d s =
      { s with nextSlot := s.nextSlot + 1, lastHandle := some s.nextSlot, lastResult := ⟨.ok, none⟩ } := by
  have henq := enqueue_sticky (s := withHandle (s.nextSlot + 1) (some s.nextSlot) s) hroom hs ap a none d (some s.nextSlot)
  simp only [readOp, henq]

/-- R202, R208: with room a write that finds the sticky error does nothing. -/
theorem writeOp_sticky {s : State} (hroom : s.swdLen < s.swdCap) (hs : s.swdSticky ≠ .ok) (ap a w d) :
    writeOp ap a w d s = { s with lastResult := ⟨.ok, none⟩ } := by
  simp only [writeOp, enqueue_sticky hroom hs]

/-- Settles O29: every row that reads or writes is `readOp` or `writeOp`, which the sticky error stops. -/
theorem enqueueWhileSticky : Obligations.EnqueueWhileSticky := fun _ _ hf hs hroom =>
  ⟨fun x hx => by rw [exec_asRead hx, command_ok hf, readOp_sticky hroom hs],
    fun x hx => by rw [exec_asWrite hx, command_ok hf, writeOp_sticky hroom hs]⟩

/-! ### A run -/

theorem exec_swdRun {s : State} (hf : s.fatal = false) : exec .swdRun s = .next (runQueue none s).1 :=
  command_ok (body := fun s => (runQueue none s).1) hf

/-- R212: a run whose flush succeeds decodes the queue as the flush left it. -/
theorem exec_swdRun_flushed {s : State} (hf : s.fatal = false) (hs : s.swdSticky = .ok) (hok : flushOk s = true) :
    exec .swdRun s = .next (endRun (decodeQueue (afterRunFlush s))).1 := by
  rw [exec_swdRun hf, runQueue_flushed hs hok]
  rfl

/-- R213: a run whose flush fails ends without a decode. -/
theorem runQueue_flush_failed {s : State} (hs : s.swdSticky = .ok) (hfail : flushOk s = false) (a) :
    runQueue a s = endRun (afterRunFlush s, .transportError) := by
  have hflush : ¬ flushOk (emitAll (runIdleEvents s.params) s) = true := Bool.eq_false_iff.1 hfail
  rw [runQueue, if_pos hs, emitIdle_run]
  simp only [if_neg hflush]
  rfl

theorem afterRunFlush_slots (s : State) : (afterRunFlush s).slots = s.slots := flush_slots _

theorem afterRunFlush_trace (s : State) :
    (afterRunFlush s).trace = s.trace ++ runIdleEvents s.params ++ [Event.flush] := flush_trace _

/-- Settles O31: the decode commits every entry. -/
theorem runCommitsAll : Obligations.RunCommitsAll := by
  rintro s _ hf hs rfl hok hall
  rw [exec_swdRun_flushed hf hs hok, decodeQueue_all hall]

/-- Settles O32: the decode stops at entry `k`. -/
theorem runStopsAtFirstFailure : Obligations.RunStopsAtFirstFailure := by
  rintro s _ k e hf hs rfl hok hk hfails hbefore
  rw [exec_swdRun_flushed hf hs hok, decodeQueue_failed hk hfails hbefore]

/-- Settles O33: the run ends after its flush, which writes no slot. -/
theorem runFlushFails : Obligations.RunFlushFails := fun s hf hs hfail =>
  ⟨by rw [exec_swdRun hf, runQueue_flush_failed hs hfail]; rfl, afterRunFlush_slots s, afterRunFlush_trace s⟩

/-- Settles O34: the sticky error stops the run at once. -/
theorem runWhileSticky : Obligations.RunWhileSticky := fun _ hf hs => by
  rw [exec_swdRun hf, runQueue_sticky none hs]

/-- R216: after a run there is room, the queue having a capacity. -/
theorem room_runQueue {s : State} (hf : s.fatal = false) (hcap : 1 ≤ s.swdCap) (a) : Room (runQueue a s).1 where
  not_fatal := (runQueue_fatal a s).trans hf
  not_sticky := (runQueue_end a s).2.1
  room := by
    rw [(runQueue_end a s).1, runQueue_cap]
    exact hcap

/-- Settles O35: a run ends with the queue empty, and an enqueue where there is room puts its entry at the queue's end. -/
theorem runEmptiesQueue : Obligations.RunEmptiesQueue := by
  intro s hf hcap
  have hroom := room_runQueue hf hcap none
  obtain ⟨hlen, hsticky, -⟩ := runQueue_end none s
  refine ⟨_, exec_swdRun hf, hlen, hsticky, fun ap a w d => ⟨?_, ?_⟩⟩
  · obtain ⟨raw, -, hread⟩ := swdReadEnqueues ap a d _ hroom
    exact ⟨_, hread, by simp [enqueuedRead, hlen], by simp [enqueuedRead, hlen]⟩
  · obtain ⟨raw, -, hwrite⟩ := swdWriteEnqueues ap a w d _ hroom
    exact ⟨_, hwrite, by simp [enqueuedWrite, hlen], by simp [enqueuedWrite, hlen]⟩

/-! ### Growth -/

/-- R206: growth is a run, the doubling, and the run's result in place of the sticky error. -/
theorem grow_eq (s : State) :
    grow s = { (runQueue none s).1 with
      swdCap := 2 * s.swdCap, swdSticky := (runQueue none s).1.lastResult.result } := rfl

theorem withHandle_grow (n h) (s : State) : grow (withHandle n h s) = withHandle n h (grow s) := by
  rw [grow, withHandle_run]
  rfl

/-- R206, R216: growth leaves room for an entry. -/
theorem swdLen_grow_lt {s : State} (hcap : 1 ≤ s.swdCap) : (grow s).swdLen < (grow s).swdCap := by
  show 0 < 2 * s.swdCap
  omega

/-- R206: an enqueue at a full queue grows the queue and goes on as an enqueue into the grown one. -/
theorem enqueue_grow {s : State} (hcap : 1 ≤ s.swdCap) (hfull : s.swdCap ≤ s.swdLen) (ap a w d h) :
    enqueue ap a w d h s = enqueue ap a w d h (grow s) := by
  rw [enqueue_full hfull]
  split
  · next hs => rw [enqueue_room (swdLen_grow_lt hcap) hs]
  · next hs => rw [enqueue_sticky (swdLen_grow_lt hcap) hs]

theorem readOp_grow {s : State} (hcap : 1 ≤ s.swdCap) (hfull : s.swdCap ≤ s.swdLen) (ap a d) :
    readOp ap a d s = readOp ap a d (grow s) := by
  have hslot : (grow s).nextSlot = s.nextSlot := runQueue_nextSlot none s
  have henq := enqueue_grow (s := withHandle (s.nextSlot + 1) (some s.nextSlot) s) hcap hfull ap a none d (some s.nextSlot)
  rw [withHandle_grow] at henq
  simp only [readOp, henq, hslot]

theorem writeOp_grow {s : State} (hcap : 1 ≤ s.swdCap) (hfull : s.swdCap ≤ s.swdLen) (ap a w d) :
    writeOp ap a w d s = writeOp ap a w d (grow s) := by
  simp only [writeOp, enqueue_grow hcap hfull]

/-- Settles O30: the enqueue goes on in the grown queue, where the run's error, if there is one, is the sticky error. -/
theorem growth : Obligations.Growth := by
  intro ap a w d s t hf hcap hfull hrun
  obtain rfl : (runQueue none s).1 = t := Host.Outcome.next.inj ((exec_swdRun hf).symm.trans hrun)
  have hgf : (grow s).fatal = false := (runQueue_fatal none s).trans hf
  have hread : exec (.swdRead ap a d) s = .next (readOp ap a d (grow s)) :=
    (command_ok hf).trans (congrArg _ (readOp_grow hcap hfull ap a d))
  have hwrite : exec (.swdWrite ap a w d) s = .next (writeOp ap a w d (grow s)) :=
    (command_ok hf).trans (congrArg _ (writeOp_grow hcap hfull ap a w d))
  refine ⟨fun hok => ?_, fun herr => ?_⟩
  · have hgrow : { (runQueue none s).1 with swdCap := 2 * s.swdCap } = grow s := by
      rw [grow_eq, hok, ← (runQueue_end none s).2.1]
    rw [hgrow, hread, hwrite]
    exact ⟨(command_ok hgf).symm, (command_ok hgf).symm, ⟨hgf, hok, swdLen_grow_lt hcap⟩, (runQueue_end none s).1⟩
  · rw [hread, hwrite, readOp_sticky (swdLen_grow_lt hcap) herr, writeOp_sticky (swdLen_grow_lt hcap) herr, grow_eq,
      runQueue_nextSlot]
    exact ⟨rfl, rfl⟩

/-! ### Ignored acks and the line's direction -/

/-- Settles O37: the default holds one of the sixteen bytes, and the predicate asks for a write whatever bytes it holds. -/
theorem ignoredAcks : Obligations.IgnoredAcks := by
  refine ⟨List.forall_iff_forall_mem.1 (by decide), fun p cmd h => ?_⟩
  simp only [ackIgnored, Bool.and_eq_true, Bool.not_eq_true'] at h
  exact h.1

/-- Settles O51: only an enqueue writes the direction, and a new entry's frame ends with the line driven. -/
theorem lineDrivenBetweenCommands : Obligations.LineDrivenBetweenCommands := by
  have hrun (a) (s : State) : s.swdioDir = .drive → (runQueue a s).1.swdioDir = .drive :=
    runQueue_keeps (P := fun s => s.swdioDir = .drive) (fun _ h => h) (fun s h => (flush_swdioDir s).trans h) (fun _ h => h)
      (forceAck_keeps fun _ _ h => h) (fun _ _ h => h) a s
  exact fun _ _ => step_keeps_of_parts (P := fun s => s.swdioDir = .drive) (fun _ _ h => h) (fun _ _ _ h => h)
    (fun _ _ _ h => h) (fun _ _ _ _ _ h => h) (fun _ _ _ h => h) (fun _ _ h => h)
    (fun s h => (flush_swdioDir s).trans h)
    (enqueue_keeps (fun s h => hrun none s h) fun _ _ _ _ _ s hw _ =>
      enqueueEntry_cases (P := fun s => s.swdioDir = .drive) hw (fun _ _ _ => rfl) fun _ _ _ => rfl)
    hrun

/-! ### A word written and read back -/

section ReadBack

variable {p : Params} {w : Word} {z z' : List Bool}

/-- R10, R62: the bits of a value that stand after the first `o` of a buffer are read back as that value. -/
theorem slice_of_drop {b post : List Bool} {o n : Nat} {v : BitVec n} (h : b.drop o = wireOf v ++ post) :
    slice b o n = BitVec.ofNat n (bitsVal (wireOf v)) := by
  rw [slice, h, List.take_left' (wireOf_length v)]

/-- R104, R105: the ack of a frame stands after its first turnaround. -/
theorem rawAck_frame (hz : z.length = p.trnCycles) (ack : BitVec 3) (post : List Bool) :
    rawAck p (z ++ (wireOf ack ++ post)) = ack := by
  rw [rawAck, slice_of_drop (List.drop_left' hz), bitsVal_wireOf_ack]

/-- R104: the data of a read's frame stand after the ack. -/
theorem rawData_frame (hz : z.length = p.trnCycles) (ack : BitVec 3) (post : List Bool) :
    rawData p (z ++ (wireOf ack ++ (wireOf w ++ post))) = w := by
  have hlen : (z ++ wireOf ack).length = p.trnCycles + 3 := by rw [List.length_append, hz, wireOf_length]
  rw [rawData, ← List.append_assoc, slice_of_drop (List.drop_left' hlen), ofNat_bitsVal_wireOf]

/-- R104: the parity bit of a read's frame stands after the data. -/
theorem rawParity_frame (hz : z.length = p.trnCycles) (ack : BitVec 3) (b : Bool) (post : List Bool) :
    rawParity p (z ++ (wireOf ack ++ (wireOf w ++ b :: post))) = b := by
  have hlen : (z ++ (wireOf ack ++ wireOf w)).length = p.trnCycles + 35 := by
    simp only [List.length_append, hz, wireOf_length]
  rw [rawParity, ← hlen, ← List.append_assoc (wireOf ack), ← List.append_assoc z, List.getD_append_right _ _ _ _ le_rfl,
    Nat.sub_self]
  rfl

/-- R104: what a target samples onto the frame of a read it answers OK, between the turnarounds `z` and `z'`. -/
def readAnswer (w : Word) (z z' : List Bool) : List Bool := z ++ (wireOf ackOk ++ (wireOf w ++ parity w :: z'))

/-- R105: what it samples onto the frame of a write it answers OK. -/
def writeAnswer (z z' : List Bool) : List Bool := z ++ (wireOf ackOk ++ z')

theorem readAnswer_length (hz : z.length = p.trnCycles) (hz' : z'.length = p.trnCycles) :
    (readAnswer w z z').length = readFrameLen p := by
  simp only [readAnswer, readFrameLen, List.length_append, List.length_cons, wireOf_length, hz, hz']
  omega

theorem writeAnswer_length (hz : z.length = p.trnCycles) (hz' : z'.length = p.trnCycles) :
    (writeAnswer z z').length = writeFrameLen p := by
  simp only [writeAnswer, writeFrameLen, List.length_append, wireOf_length, hz, hz']
  omega

/-- R72: the entry with bits delivered to its `raw` buffer. -/
def Entry.delivered (bits : List Bool) (e : Entry) : Entry := { e with raw := overlay bits e.raw }

/-- R106: a write answered OK passes. -/
theorem passes_writeAnswer (hz : z.length = p.trnCycles) {e : Entry} (he : e.isRead = false) :
    Passes p (e.delivered (writeAnswer z z')) := by
  refine .inl ⟨?_, fun hread => absurd (he.symm.trans hread) (by decide)⟩
  simp only [Entry.delivered, overlay, writeAnswer, List.append_assoc]
  exact rawAck_frame hz ackOk _

/-- R104: the buffer of an entry a read's answer was delivered to. -/
theorem delivered_readAnswer_raw (e : Entry) (w : Word) (z z' : List Bool) : ∃ post,
    (e.delivered (readAnswer w z z')).raw = z ++ (wireOf ackOk ++ (wireOf w ++ parity w :: post)) :=
  ⟨z' ++ e.raw.drop (readAnswer w z z').length, by simp only [Entry.delivered, overlay, readAnswer, List.append_assoc,
    List.cons_append]⟩

section

variable (hz : z.length = p.trnCycles) (e : Entry)

include hz

theorem rawAck_readAnswer : rawAck p (e.delivered (readAnswer w z z')).raw = ackOk := by
  obtain ⟨_, hraw⟩ := delivered_readAnswer_raw e w z z'
  rw [hraw, rawAck_frame hz]

theorem rawData_readAnswer : rawData p (e.delivered (readAnswer w z z')).raw = w := by
  obtain ⟨_, hraw⟩ := delivered_readAnswer_raw e w z z'
  rw [hraw, rawData_frame hz]

theorem rawParity_readAnswer : rawParity p (e.delivered (readAnswer w z z')).raw = parity w := by
  obtain ⟨_, hraw⟩ := delivered_readAnswer_raw e w z z'
  rw [hraw, rawParity_frame hz]

/-- R104: a read answered OK with a word and its parity passes. -/
theorem passes_readAnswer : Passes p (e.delivered (readAnswer w z z')) :=
  .inl ⟨rawAck_readAnswer hz e, fun _ => by rw [rawParity_readAnswer hz, rawData_readAnswer hz]⟩

end

/-! ### What the flush of a write's and a read's frames delivers -/

/-- R72: the state once bits were delivered to entry `i`, with `r` left of what the environment supplies. -/
def deliveredTo (i : Nat) (bits r : List Bool) (s : State) : State :=
  { s with capIn := r, swdQ := s.swdQ.modify i (Entry.delivered bits) }

theorem idleEvents_cap (p : Params) (k : Nat) : ∀ e ∈ idleEvents p k, e.cap = .none := by
  unfold idleEvents
  split
  · nofun
  · exact List.forall_mem_singleton.2 rfl

/-- The queue entry of a write just enqueued. -/
def writeEntry (cmd : Byte) (data : Word) (raw : List Bool) : Entry :=
  { cmd, isRead := false, wdata := some data, dst := none, raw, phase := .pending }

/-- The queue entry of a read just enqueued. -/
def readEntry (cmd : Byte) (dst : Nat) (raw : List Bool) : Entry :=
  { cmd, isRead := true, wdata := none, dst := some dst, raw, phase := .pending }

/-- R202: the events of a transaction whose `n` captured cycles go to entry `i`, and `post` after its frame. -/
def frameEvents (p : Params) (cmd : Byte) (n i : Nat) (post : List Event) : List Event :=
  .bits (swdWire p) (some (wireOf cmd)) 8 .none :: .dir .float :: .bits (swdWire p) none n (.raw i n) :: .dir .drive :: post

/-- R72: a frame delivers to its entry the next bits the environment supplies. -/
theorem foldl_deliver_frameEvents {n : Nat} {s : State} {l r : List Bool} {post : List Event} (hl : l.length = n)
    (hpost : ∀ e ∈ post, e.cap = .none) (hc : s.capIn = l ++ r) (p cmd i) :
    (frameEvents p cmd n i post).foldl deliver s = deliveredTo i l r s := by
  rw [frameEvents, List.foldl_cons, deliver_none rfl, List.foldl_cons, deliver_none rfl, List.foldl_cons, List.foldl_cons,
    deliver_none (e := .dir .drive) rfl, foldl_deliver_none hpost]
  exact deliver_raw rfl hl hc

/-- R203: what a read adds to the batch. -/
theorem enqueuedRead_pending (cmd idle raw) (s : State) : (enqueuedRead cmd idle raw s).pending =
    s.pending ++ frameEvents s.params cmd (readFrameLen s.params) s.swdLen (idleEvents s.params idle) := rfl

/-- R204: what a write adds to it: its payload captures nothing. -/
theorem enqueuedWrite_pending (cmd data idle raw) (s : State) : ∃ post, (∀ e ∈ post, e.cap = .none) ∧
    (enqueuedWrite cmd data idle raw s).pending =
      s.pending ++ frameEvents s.params cmd (writeFrameLen s.params) s.swdLen post :=
  ⟨_ :: idleEvents s.params idle, List.forall_mem_cons.2 ⟨rfl, idleEvents_cap _ _⟩, rfl⟩

/-! ### The flush and the decode after a write and a read -/

/-- R202 to R208: the state after a write and a read of one space and address, where there is room for both. -/
def afterWriteRead (ap : Bool) (a : BitVec 2) (w : Word) (d : Nat) (raw raw' : List Bool) (s : State) : State :=
  enqueuedRead (encodeRequest ap true a) (if ap then d else 0) raw'
    (enqueuedWrite (encodeRequest ap false a) w (if ap then d else 0) raw s)

section

variable {ap : Bool} {a : BitVec 2} {d : Nat} {raw raw' r r' : List Bool} {s : State} {z₀ z₁ z₂ z₃ : List Bool}

theorem afterWriteRead_swdQ (hlen : s.swdLen = 0) : (afterWriteRead ap a w d raw raw' s).swdQ =
    writeEntry (encodeRequest ap false a) w raw :: readEntry (encodeRequest ap true a) s.nextSlot raw'
      :: s.swdQ.drop 2 := by
  simp [afterWriteRead, enqueuedRead, enqueuedWrite, emitAll, hlen, writeEntry, readEntry]

/-- R72: the batch of the two into an empty batch: a frame for each entry, and nothing else that captures. -/
theorem afterWriteRead_pending (hpend : s.pending = []) (hlen : s.swdLen = 0) (ap a w d raw raw') :
    ∃ post post' : List Event, (∀ e ∈ post, e.cap = .none) ∧ (∀ e ∈ post', e.cap = .none) ∧
      (afterWriteRead ap a w d raw raw' s).pending =
        frameEvents s.params (encodeRequest ap false a) (writeFrameLen s.params) 0 post
          ++ frameEvents s.params (encodeRequest ap true a) (readFrameLen s.params) 1 post' := by
  obtain ⟨post, hpost, hwrite⟩ := enqueuedWrite_pending (encodeRequest ap false a) w (if ap then d else 0) raw s
  rw [hpend, hlen, List.nil_append] at hwrite
  have hlen₁ : (enqueuedWrite (encodeRequest ap false a) w (if ap then d else 0) raw s).swdLen = 1 :=
    congrArg (· + 1) hlen
  refine ⟨post, _, hpost, idleEvents_cap s.params (if ap then d else 0), ?_⟩
  rw [afterWriteRead, enqueuedRead_pending, hwrite, hlen₁]
  rfl

/-- The entries of the queue once the flush delivered the target's answers. -/
def answeredEntries (ap : Bool) (a : BitVec 2) (w : Word) (raw raw' : List Bool) (slot : Nat) (z₀ z₁ z₂ z₃ : List Bool) :
    List Entry :=
  [(writeEntry (encodeRequest ap false a) w raw).delivered (writeAnswer z₀ z₁),
    (readEntry (encodeRequest ap true a) slot raw').delivered (readAnswer w z₂ z₃)]

theorem passes_answeredEntries (hz₀ : z₀.length = p.trnCycles) (hz₂ : z₂.length = p.trnCycles) (slot : Nat) :
    ∀ e ∈ answeredEntries ap a w raw raw' slot z₀ z₁ z₂ z₃, Passes p e :=
  List.forall_mem_cons.2 ⟨passes_writeAnswer hz₀ rfl, List.forall_mem_singleton.2 (passes_readAnswer hz₂ _)⟩

/-- R215: of the two the read is the one that writes a slot. -/
theorem commits_answeredEntries (hz₂ : z₂.length = p.trnCycles) (slot : Nat) (m : Store Word) :
    commits p (answeredEntries ap a w raw raw' slot z₀ z₁ z₂ z₃) m = m.put slot w := by
  let e := (readEntry (encodeRequest ap true a) slot raw').delivered (readAnswer w z₂ z₃)
  have hack : rawAck p e.raw = 0b001#3 := rawAck_readAnswer hz₂ _
  have hdata : rawData p e.raw = w := rawData_readAnswer hz₂ _
  calc commits p (answeredEntries ap a w raw raw' slot z₀ z₁ z₂ z₃) m
    _ = commits p [e] m := rfl
    _ = m.put slot (rawData p e.raw) := if_pos ⟨rfl, hack⟩
    _ = m.put slot w := by rw [hdata]

/-- R72, R222 (b): the flush gives each of the two entries the bits sampled on its frame. -/
theorem afterRunFlush_inUse (hlen : s.swdLen = 0) (hpend : s.pending = []) (hflush : s.flushIn = true :: r')
    (hz : ∀ z ∈ [z₀, z₁, z₂, z₃], z.length = s.params.trnCycles)
    (hc : s.capIn = writeAnswer z₀ z₁ ++ (readAnswer w z₂ z₃ ++ r)) :
    (afterRunFlush (afterWriteRead ap a w d raw raw' s)).swdQ.take
        (afterRunFlush (afterWriteRead ap a w d raw raw' s)).swdLen =
      answeredEntries ap a w raw raw' s.nextSlot z₀ z₁ z₂ z₃ := by
  simp only [List.forall_mem_cons] at hz
  obtain ⟨hz₀, hz₁, hz₂, hz₃, -⟩ := hz
  let t := emitAll (runIdleEvents s.params) (afterWriteRead ap a w d raw raw' s)
  have hcap : (flushed t).capIn = writeAnswer z₀ z₁ ++ (readAnswer w z₂ z₃ ++ r) := hc
  have hok : flushOk t = true := flushOk_of_flushIn hflush
  have hidle : ∀ e ∈ runIdleEvents s.params, e.cap = .none := idleEvents_cap _ _
  have hlent : (flush t).swdLen = 2 := (flush_swdLen t).trans (congrArg (· + 1 + 1) hlen)
  obtain ⟨post, post', hpost, hpost', hframes⟩ := afterWriteRead_pending hpend hlen ap a w d raw raw'
  have hbatch : t.pending = _ ++ runIdleEvents s.params := congrArg (· ++ runIdleEvents s.params) hframes
  have hqueue : (flush t).swdQ = ((afterWriteRead ap a w d raw raw' s).swdQ.modify 0
      (Entry.delivered (writeAnswer z₀ z₁))).modify 1 (Entry.delivered (readAnswer w z₂ z₃)) := by
    rw [flush, if_pos hok, hbatch, List.foldl_append, List.foldl_append,
      foldl_deliver_frameEvents (writeAnswer_length hz₀ hz₁) hpost hcap,
      foldl_deliver_frameEvents (readAnswer_length hz₂ hz₃) hpost' rfl, foldl_deliver_none hidle]
    rfl
  show (flush t).swdQ.take (flush t).swdLen = _
  rw [hlent, hqueue, afterWriteRead_swdQ hlen]
  rfl

end

end ReadBack

/-- Settles O38: the flush delivers the target's answers to the two entries, both pass, and the read's word goes to its slot. -/
theorem writeThenReadBack : Obligations.WriteThenReadBack := by
  intro ap a w d z₀ z₁ z₂ z₃ s r r' hroom hcap hlen hpend hz hc hflush
  have hanswers : s.capIn = writeAnswer z₀ z₁ ++ (readAnswer w z₂ z₃ ++ r) := by
    have hack : wireOf ackOk = [true, false, false] := by decide
    simp only [hc, writeAnswer, readAnswer, hack, List.append_assoc, List.cons_append, List.nil_append]
  obtain ⟨raw, -, hwrite⟩ := swdWriteEnqueues ap a w d s hroom
  have hroom₁ : Room (enqueuedWrite (encodeRequest ap false a) w (if ap then d else 0) raw s) :=
    ⟨hroom.not_fatal, hroom.not_sticky, show s.swdLen + 1 < s.swdCap by omega⟩
  obtain ⟨raw', -, hread⟩ := swdReadEnqueues ap a d _ hroom₁
  let u := afterRunFlush (afterWriteRead ap a w d raw raw' s)
  have hinUse : u.swdQ.take u.swdLen = answeredEntries ap a w raw raw' s.nextSlot z₀ z₁ z₂ z₃ :=
    afterRunFlush_inUse hlen hpend hflush hz hanswers
  have hparams : u.params = s.params := flush_params _
  have hrun := runCommitsAll (afterWriteRead ap a w d raw raw' s) u hroom.not_fatal hroom.not_sticky rfl
    (flushOk_of_flushIn hflush)
    (hparams.symm ▸ hinUse.symm ▸ passes_answeredEntries (hz z₀ (by simp)) (hz z₂ (by simp)) s.nextSlot)
  have hslots : (runStopped (u.swdQ.take u.swdLen) (u.swdQ.take u.swdLen).length .ok u).slots =
      s.slots.put s.nextSlot w := by
    simp only [runStopped, List.take_length, hinUse]
    rw [hparams, commits_answeredEntries (hz z₂ (by simp)), show u.slots = s.slots from afterRunFlush_slots _]
  refine ⟨_, _, _, hwrite, hread, hrun, rfl, rfl, ?_, fun h hh => ?_⟩
  · rw [hslots, Store.get_put_same]
  · rw [hslots, Store.get_put_other _ _ hh]

end Sys2Proof.Machine
end

section
/-! The mode-switch family: `switch_sequence` of each id. -/

namespace Sys2Proof.Machine

/-- Settles O39: ids 0 to 5 have the listed pattern in `MODE_SEQ`, and ids 6 and 7 have none. -/
theorem switchSequence : Obligations.SwitchSequence := by
  intro s hf
  refine ⟨fun x hx => ?known, fun id hid => ?unknown⟩
  case known =>
    have hpattern : modePattern s.params.modeSeq x.1 = some x.2 := by fin_cases hx <;> rfl
    exact command_switchOp_known hf hpattern
  case unknown =>
    have hnone : modePattern s.params.modeSeq id = none := by fin_cases hid <;> rfl
    exact command_switchOp_unknown hf hnone

end Sys2Proof.Machine
end

section
/-! The Signal Registry family: what `define`, `set` and `get` of the stub do (R282, R284, R285, R288). -/

namespace Sys2Proof.Machine

namespace Registry

/-! ### `define` -/

/-- Overwriting the first signal of a name, with a signal of that name, leaves it the first of the name. -/
theorem find?_map_overwrite (sig : Signal) (l : List Signal) (h : (l.find? (·.name == sig.name)).isSome) :
    (l.map fun s => if s.name = sig.name then sig else s).find? (·.name == sig.name) = some sig := by
  induction l with
  | nil => simp at h
  | cons s l ih =>
    by_cases hs : s.name = sig.name
    · simp [hs]
    · rw [List.map_cons, if_neg hs, List.find?_cons_of_neg (by simpa using hs)]
      exact ih (by simpa [hs] using h)

/-- R282: a defined signal is the one its name finds, created or overwritten. -/
@[simp] theorem find_define_same (sig : Signal) (r : Registry) : (r.define sig).find sig.name = some sig := by
  by_cases h : (r.find sig.name).isSome
  case pos =>
    rw [define, if_pos h]
    exact find?_map_overwrite sig r.signals h
  case neg =>
    have hnone : r.signals.find? (·.name == sig.name) = none := by simpa [find] using h
    rw [define, if_neg h, find, List.find?_append, hnone]
    simp

/-! ### `set` -/

/-- R284: the outcomes of `set` on a defined signal: an error for a level whose mask is zero, else the shadow update. -/
theorem set_of_find {r : Registry} {name : String} {sig : Signal} (h : r.find name = some sig) (level : Level) :
    r.set name level =
      if level = .high ∧ sig.dataMask = 0 ∨ level = .tristate ∧ sig.oeMask = 0 then .error .unsupportedSignal
      else .ok ({ r with gpioOut := (r.shadowUpdate sig level).1, gpioDir := (r.shadowUpdate sig level).2 },
        gpioWrites (r.gpioOut, r.gpioDir) (r.shadowUpdate sig level)) := by
  simp only [set, h, ite_or]

/-- A word that takes another's bits inside a mask does not change outside it. -/
theorem masked_update_frame (old new m : BitVec 16) : (((old &&& ~~~m) ||| (new &&& m)) ^^^ old) &&& ~~~m = 0 := by
  ext k hk
  cases hm : m[k] <;> simp [hm]

/-- R284: `set` changes no shadow bit outside the signal's masks. -/
theorem set_frame {r r' : Registry} {name : String} {level : Level} {sig : Signal} {ws : List GpioWrite}
    (hfind : r.find name = some sig) (hset : r.set name level = .ok (r', ws)) :
    (r'.gpioOut ^^^ r.gpioOut) &&& ~~~(sig.dataMask ||| sig.oeMask) = 0
      ∧ (r'.gpioDir ^^^ r.gpioDir) &&& ~~~(sig.dataMask ||| sig.oeMask) = 0 := by
  rw [set_of_find hfind] at hset
  split at hset
  case isTrue => cases hset
  case isFalse =>
    cases hset
    exact ⟨masked_update_frame .., masked_update_frame ..⟩

/-! ### `get` -/

/-- R285: a signal with no input lines cannot be read. -/
theorem get_of_inputMask_eq_zero {r : Registry} {name : String} {sig : Signal} (h : r.find name = some sig)
    (hm : sig.inputMask = 0) (lines : BitVec 16) : r.get name lines = .error .unsupportedSignal := by
  simp only [get, h, if_pos hm]

/-- The word `get` answers: the sampled lines with the input inversion applied, masked. -/
def answer (sig : Signal) (lines : BitVec 16) : BitVec 16 :=
  let sample := gpioSample (gpioReads sig.inputMask) lines
  (if sig.invertInput then ~~~sample else sample) &&& sig.inputMask

theorem get_of_inputMask_ne_zero {r : Registry} {name : String} {sig : Signal} (h : r.find name = some sig)
    (hm : sig.inputMask ≠ 0) (lines : BitVec 16) :
    r.get name lines = .ok (answer sig lines, gpioReads sig.inputMask) := by
  simp only [get, h, if_neg hm, answer]

/-- R285: each masked line is answered with the input inversion applied, every other bit as 0. -/
theorem answer_getLsbD (sig : Signal) (lines : BitVec 16) (k : Nat) :
    (answer sig lines).getLsbD k = (sig.inputMask.getLsbD k && (lines.getLsbD k ^^ sig.invertInput)) := by
  cases hm : sig.inputMask.getLsbD k
  case false => simp [answer, hm]
  case true =>
    have hk : k < 16 := BitVec.lt_of_getLsbD hm
    have hsample := gpioSample_masked sig.inputMask lines hm
    cases hinv : sig.invertInput <;> simp [answer, hm, hinv, hsample, hk, -BitVec.getLsbD_eq_getElem]

end Registry

/-- Settles O59: `define` makes `R` the signal its name finds, `set` updates the shadow words under the masks alone, and
`get` answers the masked sample of the byte groups its mask selects. -/
theorem signalRegistry : Obligations.SignalRegistry := by
  refine ⟨fun r => ?defined, fun _ _ _ _ _ _ => Registry.set_frame, fun r name sig lines hfind =>
    ⟨fun hm => Registry.get_of_inputMask_eq_zero hfind hm lines, fun hm =>
      ⟨_, _, Registry.get_of_inputMask_ne_zero hfind hm lines, ?low, ?high, Registry.answer_getLsbD sig lines⟩⟩⟩
  case defined =>
    intro sig
    have hfind : (r.define sig).find "R" = some sig := Registry.find_define_same sig r
    rw [Registry.set_of_find hfind, Registry.set_of_find hfind, if_neg (by decide), if_pos (by decide)]
    exact ⟨⟨_, rfl⟩, rfl⟩
  case low => exact (mem_gpioReads _).1.trans (lowByte_ne_zero_iff _)
  case high => exact (mem_gpioReads _).2.trans (highByte_ne_zero_iff _)

end Sys2Proof.Machine
end

section
/-! The exceptions family: the error codes and the fatal set (R301, R303), and the latch, which a fatal error sets and no step
clears (R310, R311). -/

namespace Sys2Proof.Machine

open Sys2Proof

/-! ### The error codes -/

/-- R303: the fatal set by its codes, ConfigError's and InvalidTransition's. -/
theorem isFatal_iff_code (r : Result) : r.isFatal = true ↔ r.code = 1 ∨ r.code = 3 := by
  cases r <;> simp [Result.isFatal, Result.code]

/-- Settles O44: the codes are those of the table, and the fatal set is read off it. -/
theorem errorCodes : Obligations.ErrorCodes :=
  ⟨rfl, fun _ => rfl, fun _ => rfl, rfl, fun _ _ => rfl, rfl, fun _ => rfl, fun _ _ => rfl, fun _ => rfl, isFatal_iff_code⟩

/-! ### The latch set -/

/-- A step that answers a next state waited at an empty port or ran the record at its front. -/
theorem step_next_cases {s t : State} (h : step s = .next t) :
    (s.cmdPort = [] ∧ t = s) ∨
      ∃ i rest, decode s.cmdPort = .ok (i, rest) ∧ exec i { s with cmdPort := rest } = .next t := by
  by_cases hport : s.cmdPort = []
  · rw [step_of_cmdPort_nil hport] at h
    cases h
    exact .inl ⟨hport, rfl⟩
  · cases hdecode : decode s.cmdPort with
    | error e =>
      rw [step_of_decode_error hport hdecode] at h
      cases h
    | ok r => exact .inr ⟨r.1, r.2, rfl, (step_of_decode_ok hdecode).symm.trans h⟩

/-- R311: with the latch set a step takes the record off the port at most. -/
theorem step_fatal {s t : State} (hf : s.fatal = true) (h : step s = .next t) : t = { s with cmdPort := t.cmdPort } := by
  obtain ⟨-, rfl⟩ | ⟨i, rest, -, hexec⟩ := step_next_cases h
  · rfl
  · rw [exec_fatal i { s with cmdPort := rest } hf] at hexec
    cases hexec
    rfl

/-- Settles O43: every arm is refused, so a step leaves the latch as it leaves all else. -/
theorem refusedWhileFatal : Obligations.RefusedWhileFatal := ⟨exec_fatal, fun _ _ => step_fatal⟩

/-! ### The latch follows the result -/

/-- What a command that is not refused starts from, and what its parts keep until it ends: the latch clear, and a sticky
error that would not set it. -/
def NoFatal (s : State) : Prop := s.fatal = false ∧ s.swdSticky.isFatal = false

theorem LatchInv.noFatal {s : State} (h : LatchInv s) (hf : s.fatal = false) : NoFatal s := ⟨hf, h.2⟩

/-- R303, R310: from a clear latch, raising an error sets it just if the error is of the fatal set. -/
theorem NoFatal.raise {s : State} (h : NoFatal s) (r : Result) (k : Option Nat) : LatchInv (raise r k s) := by
  obtain ⟨hf, hsticky⟩ := h
  exact ⟨by rw [raise_fatal, raise_lastResult, hf, Bool.false_or], hsticky⟩

theorem NoFatal.withOk {s : State} (h : NoFatal s) : LatchInv { s with lastResult := ⟨.ok, none⟩ } := h

theorem NoFatal.finish {r : Run} (h : NoFatal r.1) (k : Option Nat) : LatchInv (finish k r) := by
  unfold Machine.finish
  split
  · exact h.withOk
  · exact h.raise r.2 k

/-- R310: no JTAG operation writes the latch or the sticky error. -/
theorem JtagReach.noFatal {s t : State} (hreach : JtagReach s t) (h : NoFatal s) : NoFatal t := by
  obtain ⟨-, -, hsticky, -⟩ := hreach.sameSwd
  exact ⟨hreach.fatal_eq.trans h.1, hsticky ▸ h.2⟩

/-- R303: what a run reports of its own, at its flush or its decode, is not fatal; what else it reports is the sticky error. -/
theorem NoFatal.runQueue_result {s : State} (h : NoFatal s) (a) : (runQueue a s).2.isFatal = false := by
  simp only [runQueue, endRun]
  split
  · split
    · exact decodeEntries_not_fatal _ _ _ _
    · rfl
  · exact h.2

/-- R216: a run reports its result and leaves no sticky error. -/
theorem NoFatal.run {s : State} (h : NoFatal s) (a) : LatchInv (runQueue a s).1 := by
  obtain ⟨-, hsticky, hresult⟩ := runQueue_end a s
  refine ⟨?_, by rw [hsticky]; rfl⟩
  rw [runQueue_fatal, h.1, hresult]
  exact (h.runQueue_result a).symm

/-- R206: the error growth parks is the run's result. -/
theorem NoFatal.grow {s : State} (h : NoFatal s) : NoFatal (grow s) :=
  ⟨(runQueue_fatal none s).trans h.1, h.runQueue_result none⟩

theorem NoFatal.enqueue {s : State} (h : NoFatal s) (ap a) (w : Option Word) (d) (dst : Option Nat)
    (hw : w.isNone = dst.isSome) : NoFatal (enqueue ap a w d dst s) :=
  enqueue_keeps (P := NoFatal) (fun _ h => h.grow)
    (fun _ _ _ _ _ _ hw h => enqueueEntry_cases (P := NoFatal) hw (fun _ _ _ => h) fun _ _ _ => h) ap a w d dst s hw h

theorem NoFatal.switchOp {s : State} (h : NoFatal s) (id : BitVec 3) : LatchInv (switchOp id s) := by
  unfold Machine.switchOp
  split
  · exact NoFatal.withOk (s := emit _ s) h
  · exact h.raise _ none

/-- However a command that was not refused ends, the latch is set just if it reports a fatal error. -/
theorem Does.latchInv {s t : State} {b : Bool} (hdoes : Does s b t) (h : NoFatal s) : LatchInv t := by
  cases hdoes with
  | op op run hrun => exact ((jtagReach_realise hrun).noFatal h).finish none
  | list ops run n hrun =>
    have hreach := jtagReach_realiseAll hrun
    split
    · exact NoFatal.finish (r := (flush run.1, _)) (hreach.flush.noFatal h) none
    · exact (hreach.noFatal h).finish (some n)
  | read ap a d =>
    have hhandle : NoFatal (withHandle (s.nextSlot + 1) (some s.nextSlot) s) := h
    exact (hhandle.enqueue ap a none d (some s.nextSlot) rfl).withOk
  | write ap a w d => exact (h.enqueue ap a (some w) d none rfl).withOk
  | run a => exact h.run a
  | switch id => exact h.switchOp id
  | unknown n => exact h.raise (.unknownCommand n) none

theorem LatchInv.exec {i : Instr} {s t : State} (h : LatchInv s) (hexec : exec i s = .next t) : LatchInv t := by
  by_cases hf : s.fatal = true
  · rw [exec_fatal i s hf] at hexec
    cases hexec
    exact h
  · have hclear : s.fatal = false := by simpa using hf
    exact (exec_does hclear hexec).latchInv (h.noFatal hclear)

/-- Settles O45: with the latch set nothing is done; with it clear, no part of a command writes the latch before the command
reports, and the sticky error is a run's result, never fatal. -/
theorem latchFollowsResult : Obligations.LatchFollowsResult := by
  intro s t h hstep
  obtain ⟨-, rfl⟩ | ⟨i, rest, -, hexec⟩ := step_next_cases hstep
  · exact h
  · exact LatchInv.exec (s := { s with cmdPort := rest }) h hexec

end Sys2Proof.Machine
end

section
/-! The reset family: the reset values (R341), and how `statemove RESET` makes the tracker true of the target (R346). -/

namespace Sys2Proof.Machine

open Sys2Proof

/-- Settles O46: each value is the field's initialiser in `State.reset`. -/
theorem resetValues : Obligations.ResetValues := ⟨rfl, rfl, rfl, rfl, rfl, rfl, rfl, rfl, rfl⟩

/-- R346: a move to RESET writes back the tracker's own value where that is RESET already. -/
theorem withTapCur_reset {s : State} (h : s.tapCur = .reset) : { s with tapCur := .reset } = s := by rw [← h]

/-- Settles O7: RESET is always re-asserted, by the five ones on the diagonal of the path table, and five ones lead from
every state to RESET. -/
theorem tapResetResynchronises : Obligations.TapResetResynchronises := by
  intro s hf hcur
  obtain ⟨-, hpath, -⟩ := pathIsShortest
  refine ⟨List.replicate 5 true, ?emitted, rfl, fun target => tapWalk_five_ones target 5 le_rfl⟩
  case emitted =>
    obtain ⟨hmove, -⟩ := statemove .reset s hf
    have hstay : { emitAll [.tms (List.replicate 5 true) false .none] s with tapCur := .reset } =
        emitAll [.tms (List.replicate 5 true) false .none] s := withTapCur_reset hcur
    rw [← hstay]
    exact hmove (List.replicate 5 true) (.inr rfl) rfl (hcur ▸ hpath)

end Sys2Proof.Machine
end
